-- ==== Sys2Proof/Word.lean ====
section
/-! DEFINITION. The word types of the block: the 64-bit command word and registers, stream bytes,
16-bit samples, and the binary64 values of 00_scope.md section 4. Arithmetic on binary64 stands in
Sys2Proof/Machine/Float64.lean. -/

namespace Sys2Proof

/-- A command word, or a 64-bit register (30_encoding.md R130, 10_state.md R23). -/
abbrev Word := BitVec 64

/-- One byte of the stream (20_memory.md R61). -/
abbrev Byte := BitVec 8

/-- One signed 16-bit sample, two's complement (00_scope.md R11, `s16`). -/
abbrev Sample := BitVec 16

/-- A 16-bit operand field A, B or C of a command word (30_encoding.md R130). -/
abbrev Field := BitVec 16

/-- An IEEE 754 binary64 value (00_scope.md section 4, 93_implementation_defined.md G1).
A finite value has its sign, its biased exponent (0 to 2046) and its 52 fraction bits, as the
format has them. All NaNs are the one `nan`: the spec says "NaN is any binary64 NaN" and no rule
tells two of them apart (log 4, DEDUCED, safe). -/
inductive F64 where
  | nan
  | inf (neg : Bool)
  | fin (neg : Bool) (exp : Fin 2047) (frac : BitVec 52)
deriving DecidableEq, Repr, Inhabited

end Sys2Proof
end

