-- ==== Sys2Proof/Syntax.lean ====
section
/-! DEFINITION. The commands of spec/opcode_table.json, one constructor per row (SETLAYOUT has two
rows, one per legal operand: log 18), with their operand fields as 30_encoding.md R130 to R132 give
them. -/

namespace Sys2Proof

/-- The command set (30_encoding.md R132). -/
inductive Instr where
  /-- NOP, OP 0x00 (44_control.md R300). -/
  | nop
  /-- RESET, OP 0x01 (44_control.md R301). -/
  | reset
  /-- SETLAYOUT with A = 1, OP 0x10 (40_framer.md R154). -/
  | setlayoutA
  /-- SETLAYOUT with A = 2, OP 0x10 (40_framer.md R154). -/
  | setlayoutB
  /-- PROBE, OP 0x11 (40_framer.md R165). -/
  | probe
  /-- SYNC, OP 0x12 (40_framer.md R155). -/
  | sync
  /-- DECODE, OP 0x13 (40_framer.md R159). -/
  | decode
  /-- SEEK, OP 0x14, P the new position (40_framer.md R170). -/
  | seek (p : BitVec 48)
  /-- C2S, OP 0x20 (41_translator.md R205). -/
  | c2s (cell stopCell : Field)
  /-- S2C, OP 0x21 (41_translator.md R206). -/
  | s2c (sampleIndex stopCell : Field)
  /-- INWIN, OP 0x22 (41_translator.md R207). -/
  | inwin (cell stopCell captureLength : Field)
  /-- OBSERVE, OP 0x30 (42_tracker.md R221). -/
  | observe
  /-- INVALIDATE, OP 0x31 (42_tracker.md R222). -/
  | invalidate
  /-- CALCFG, OP 0x40, the whole operand A (43_calibration.md R253). -/
  | calcfg (mask : Field)
  /-- APPLY, OP 0x41 (43_calibration.md R255). -/
  | apply
deriving DecidableEq, Repr

end Sys2Proof
end

