-- ==== Sys2Proof/WellFormed.lean ====
section
/-! DEFINITION. Which terms of Instr are legal commands (30_encoding.md R133). The field widths are
in the types, SETLAYOUT's two operands are two constructors, and unused fields and Z are not part of
a term, so one check is left: the mask of CALCFG. -/

namespace Sys2Proof

/-- The legal commands: CALCFG needs A[15:4] = 0 (30_encoding.md R133). -/
def Instr.wellFormed : Instr → Bool
  | .calcfg mask => decide (mask.toNat < 16)
  | .nop | .reset | .setlayoutA | .setlayoutB | .probe | .sync | .decode | .seek _ => true
  | .c2s _ _ | .s2c _ _ | .inwin _ _ _ | .observe | .invalidate | .apply => true

end Sys2Proof
end

