-- ==== Sys2Proof/Decode.lean ====
section
/-! DEFINITION. The decoder of command words, total on every 64-bit word and rejecting by name
(30_encoding.md R130 to R135), and the encoder, both written from the spec's encoding tables. -/

namespace Sys2Proof

/-- Why a word is illegal (30_encoding.md R133). Whatever the reason, the block raises
ILLEGAL_COMMAND with no other effect (60_exceptions.md R328). -/
inductive IllegalWord where
  /-- OP is not in the table of R132. -/
  | unassignedOpcode (op : Byte)
  /-- Z is not 0. -/
  | reservedZ
  /-- A field the command does not use is not 0. -/
  | unusedField
  /-- SETLAYOUT with A outside 1 and 2. -/
  | layoutOperand
  /-- CALCFG with A[15:4] not 0. -/
  | maskOperand
deriving DecidableEq, Repr

/-- The field OP, bits [63:56] (30_encoding.md R130). -/
def fieldOp (w : Word) : Byte := w.extractLsb' 56 8
/-- The field A, bits [55:40] (30_encoding.md R130). -/
def fieldA (w : Word) : Field := w.extractLsb' 40 16
/-- The field B, bits [39:24] (30_encoding.md R130). -/
def fieldB (w : Word) : Field := w.extractLsb' 24 16
/-- The field C, bits [23:8] (30_encoding.md R130). -/
def fieldC (w : Word) : Field := w.extractLsb' 8 16
/-- The field Z, bits [7:0] (30_encoding.md R130). -/
def fieldZ (w : Word) : Byte := w.extractLsb' 0 8
/-- SEEK's operand P, bits [55:8] (30_encoding.md R130). -/
def fieldP (w : Word) : BitVec 48 := w.extractLsb' 8 48

/-- What is read from the used fields, if the fields the command does not use are 0
(30_encoding.md R133). -/
def unusedZero (fields : List Field) (r : Except IllegalWord Instr) : Except IllegalWord Instr :=
  if fields.all (· == 0) then r else .error .unusedField

/-- SETLAYOUT's operand A is 1 or 2 (30_encoding.md R133). -/
def decodeSetlayout (a : Field) : Except IllegalWord Instr :=
  if a = 1 then .ok .setlayoutA
  else if a = 2 then .ok .setlayoutB
  else .error .layoutOperand

/-- CALCFG's mask is A[3:0], A[15:4] being 0 (30_encoding.md R133). -/
def decodeCalcfg (a : Field) : Except IllegalWord Instr :=
  if a.toNat < 16 then .ok (.calcfg a) else .error .maskOperand

/-- The command that a word with Z = 0 is, by its opcode (30_encoding.md R132, R134). -/
def decodeByOp (w : Word) : Except IllegalWord Instr :=
  match (fieldOp w).toNat with
  | 0x00 => unusedZero [fieldA w, fieldB w, fieldC w] (.ok .nop)
  | 0x01 => unusedZero [fieldA w, fieldB w, fieldC w] (.ok .reset)
  | 0x10 => unusedZero [fieldB w, fieldC w] (decodeSetlayout (fieldA w))
  | 0x11 => unusedZero [fieldA w, fieldB w, fieldC w] (.ok .probe)
  | 0x12 => unusedZero [fieldA w, fieldB w, fieldC w] (.ok .sync)
  | 0x13 => unusedZero [fieldA w, fieldB w, fieldC w] (.ok .decode)
  | 0x14 => .ok (.seek (fieldP w))
  | 0x20 => unusedZero [fieldC w] (.ok (.c2s (fieldA w) (fieldB w)))
  | 0x21 => unusedZero [fieldC w] (.ok (.s2c (fieldA w) (fieldB w)))
  | 0x22 => .ok (.inwin (fieldA w) (fieldB w) (fieldC w))
  | 0x30 => unusedZero [fieldA w, fieldB w, fieldC w] (.ok .observe)
  | 0x31 => unusedZero [fieldA w, fieldB w, fieldC w] (.ok .invalidate)
  | 0x40 => unusedZero [fieldB w, fieldC w] (decodeCalcfg (fieldA w))
  | 0x41 => unusedZero [fieldA w, fieldB w, fieldC w] (.ok .apply)
  | _ => .error (.unassignedOpcode (fieldOp w))

/-- The decoder: every word is one legal command or illegal (30_encoding.md R135). -/
def decode (w : Word) : Except IllegalWord Instr :=
  if fieldZ w = 0 then decodeByOp w else .error .reservedZ

/-- The word with the given OP, A, B and C, Z being 0 (30_encoding.md R130). -/
def wordOf (op : Byte) (a b c : Field) : Word := op ++ a ++ b ++ c ++ (0 : Byte)

/-- The word of a command (30_encoding.md R132, R134). -/
def encode : Instr → Word
  | .nop => wordOf 0x00 0 0 0
  | .reset => wordOf 0x01 0 0 0
  | .setlayoutA => wordOf 0x10 1 0 0
  | .setlayoutB => wordOf 0x10 2 0 0
  | .probe => wordOf 0x11 0 0 0
  | .sync => wordOf 0x12 0 0 0
  | .decode => wordOf 0x13 0 0 0
  | .seek p => (0x14 : Byte) ++ p ++ (0 : Byte)
  | .c2s cell stopCell => wordOf 0x20 cell stopCell 0
  | .s2c sampleIndex stopCell => wordOf 0x21 sampleIndex stopCell 0
  | .inwin cell stopCell captureLength => wordOf 0x22 cell stopCell captureLength
  | .observe => wordOf 0x30 0 0 0
  | .invalidate => wordOf 0x31 0 0 0
  | .calcfg mask => wordOf 0x40 mask 0 0
  | .apply => wordOf 0x41 0 0 0

/-- The command the decoder reads from a word given as its bits, bit 0 the least significant: a
command is one 64-bit word (30_encoding.md R130), so bits above `nbits` are 0 and a number with a
bit beyond the word is no command. -/
def decodeTableWord (nbits w : Nat) : Option Instr :=
  if w % 2 ^ nbits < 2 ^ 64 then
    match decode (BitVec.ofNat 64 (w % 2 ^ nbits)) with
    | .ok i => some i
    | .error _ => none
  else none

end Sys2Proof
end

