-- ==== Sys2Proof/Config.lean ====
section
/-! DEFINITION. The implementation parameters of 00_scope.md section 3, as one plain-data structure
that State holds and nothing changes (log 1), the one parameter that is an opaque constant
(POW_FN, log 6), and the configuration TC of 95_test_vectors.md, the only complete one the spec
writes out (log 2). -/

namespace Sys2Proof

/-- `HDR_BYTE_ORDER` (00_scope.md R11, 20_memory.md R63). -/
inductive ByteOrder where
  | big
  | little
deriving DecidableEq, Repr

/-- `LAST_FRAME_POLICY` (40_framer.md R152). -/
inductive LastFramePolicy where
  | strict
  | reusePrev
deriving DecidableEq, Repr

/-- `GP_CELL`: the cell that keys the stage 3 and stage 4 tables (43_calibration.md R252). -/
inductive GpCell where
  | sample
  | stop
deriving DecidableEq, Repr

/-- `WB_ROUND`: the rounding of a write-back (43_calibration.md R256). -/
inductive WbRound where
  | trunc
  | rne
  | floor
  | rhaz
deriving DecidableEq, Repr

/-- `DEINT`, the de-interleave (30_encoding.md R118): the spec's default formula, or a table whose
row `L - 1` lists, for capture length `L`, the word index of (ch, g, i) at place
`(ch * 2 + g) * L + i`. Every function the rule allows is one of these (log 16). -/
inductive Deint where
  | standard
  | table (rows : List (List Nat))
deriving DecidableEq, Repr

/-- One point of the graph of POW_FN that an integrator has fixed (log 6). -/
structure PowPoint where
  x : F64
  y : F64
  value : F64
deriving DecidableEq, Repr

/-- The parameters of 00_scope.md section 3, one field each. `scMap` lists `SC_MAP(ch, g)` at place
`ch * 2 + g` (30_encoding.md R112). `STREAM` and `STREAM_LEN` are `State.stream`. -/
structure Config where
  nCh : Nat
  maxCapture : Nat
  hdrByteOrder : ByteOrder
  wEvA : Nat
  wTrA : Nat
  wPps : Nat
  w10M : Nat
  wEvB : Nat
  wTrB : Nat
  w133 : Nat
  nSc : Nat
  scW : Nat
  scMap : List Nat
  markerA : List Byte
  magicB : List Byte
  mb : Byte
  scaleA : F64
  deint : Deint
  lastFramePolicy : LastFramePolicy
  prefixLen : Nat
  gpCell : GpCell
  wbRound : WbRound
  powPoints : List PowPoint
deriving DecidableEq, Repr

/-- `POW_FN` where no point of `Config.powPoints` fixes it: any total binary64 function
(00_scope.md section 3, 93_implementation_defined.md U15). It has no body, so no proof can see a
value of it (log 6). -/
opaque Config.powFn : F64 → F64 → F64

/-- The binary64 value 1.0. -/
def F64.one : F64 := .fin false 1023 0

/-- The configuration TC of 95_test_vectors.md section 1.1 (log 2, DESIGN CHOICE at reset, unsafe).
Its POW_FN is IEEE 754 `pow`, of which only the three points are written down that the spec's own
vectors state: CA14, CA15 and P3 (log 6, PRESUMED). -/
def Config.tc : Config where
  nCh := 2
  maxCapture := 4096
  hdrByteOrder := .big
  wEvA := 4
  wTrA := 4
  wPps := 2
  w10M := 4
  wEvB := 4
  wTrB := 4
  w133 := 8
  nSc := 2
  scW := 2
  scMap := [0, 0, 1, 1]
  markerA := [0xC0, 0xC1, 0xC2, 0xC3, 0xC4, 0xC5, 0xC6, 0xC7,
              0xC8, 0xC9, 0xCA, 0xCB, 0xCC, 0xCD, 0xCE, 0xCF]
  magicB := [0xA5, 0x5A]
  mb := 0xEE
  scaleA := .fin false 1020 0
  deint := .standard
  lastFramePolicy := .strict
  prefixLen := 1
  gpCell := .sample
  wbRound := .trunc
  powPoints :=
    [⟨.one, .nan, .one⟩, ⟨.one, .one, .one⟩, ⟨.one, .fin true 1023 0, .one⟩]

end Sys2Proof
end

