-- ==== Sys2Proof/Machine/State.lean ====
section
/-! DEFINITION. The state of the block: every element of 10_state.md R20, the arguments of the model
(configuration and stream) and the host's side of the ports (20_memory.md R80), as plain data; why a
step can stop; and the machine after reset (70_reset_and_hazards.md R360). -/

namespace Sys2Proof.Machine

/-- The stream space: (address, byte) pairs. In the canonical form `Memory.wf` (Ops.lean) the
addresses are 0, 1, 2, … in order, one byte each; an address not listed holds no byte, and reading
it faults (20_memory.md R61, 00_scope.md R10, log 7). -/
abbrev Memory := List Host.Cell

/-- A table by Nat key, as the list of the keys at which its value changes, each with the value that
holds from there on; before the first the table holds its base value. `runsRead` and `runsWrite`
(Runs.lean) read and write one entry. In the canonical form `runsWf` the keys strictly rise and no
entry repeats the value before it, so that equal contents are equal data (log 9). -/
abbrev Runs (V : Type) := List (Nat × V)

/-- A layout of the stream (30_encoding.md R100). -/
inductive Layout where
  | a
  | b
deriving DecidableEq, Repr

/-- The state of the recency tracker (10_state.md R29, 42_tracker.md R220). -/
inductive Tracker where
  | tracking
  | invalidatedOnce
deriving DecidableEq, Repr

/-- `FB.hdr`: the decoded header, counters zero-extended to 64 bits (10_state.md R31). -/
inductive Header where
  | a (eventId triggerId clock : Word)
  | b (magic : List Byte) (pps c10m eventId triggerId c133 : Word)
deriving DecidableEq, Repr

/-- A decoded frame without its tag: the record of `parse_frame` (40_framer.md R156) and the fields
of FB and CB but `seq` (10_state.md R31, R34). `samples` has one row per (ch, g), row
`ch * 2 + g`, of `len` samples. -/
structure FrameBody where
  layout : Layout
  hdr : Header
  ticks : Word
  t : F64
  stop : List Nat
  len : Nat
  fl : Word
  samples : List (List Sample)
deriving DecidableEq, Repr

/-- A frame in FB or CB: its tag `seq` and its fields (10_state.md R31, R34). -/
structure Frame where
  seq : Word
  body : FrameBody
deriving DecidableEq, Repr

/-- The elapsed-time buffer EB (10_state.md R33); `dt` has one row per (ch, g), row `ch * 2 + g`. -/
structure Elapsed where
  seq : Word
  len : Nat
  dt : List (List F64)
deriving DecidableEq, Repr

/-- The six constant tables of ACS and CT (10_state.md R36, R37). The four tables by cell have the
keys `cellIndex` gives, GRID and PAT those `posIndex` gives (Sizes.lean); `none` is absent. -/
structure CalStore where
  off : Runs (Option F64)
  pa : Runs (Option F64)
  pb : Runs (Option F64)
  pc : Runs (Option F64)
  grid : Runs (Option F64)
  pat : Runs (Option F64)
deriving DecidableEq, Repr

/-- A store in which every entry is absent (10_state.md R36, R37: the reset value of ACS and CT). -/
def CalStore.empty : CalStore := ⟨[], [], [], [], [], []⟩

/-- A constant table keyed by (ch, g, cell) (43_calibration.md R251). -/
inductive CellTable where
  | off
  | pa
  | pb
  | pc
deriving DecidableEq, Repr

/-- A constant table keyed by (ch, g, cell, pos) (43_calibration.md R251). -/
inductive PosTable where
  | grid
  | pat
deriving DecidableEq, Repr

/-- The key of a CT entry (20_memory.md R66). -/
inductive CalKey where
  | atCell (table : CellTable) (ch g cell : Nat)
  | atPos (table : PosTable) (ch g cell pos : Nat)
deriving DecidableEq, Repr

/-- A field of FB or CB on the buffer read port (10_state.md R31, R34, R39). -/
inductive FrameField where
  | seq
  | layout
  | hdr
  | ticks
  | t
  | stop (k : Nat)
  | len
  | fl
  | sample (ch g i : Nat)
deriving DecidableEq, Repr

/-- What the host names on the buffer read port (10_state.md R39). -/
inductive BufferRef where
  | fb (f : FrameField)
  | cb (f : FrameField)
  | ebSeq
  | ebLen
  | ebElem (ch g i : Nat)
deriving DecidableEq, Repr

/-- A value a read port gives the host (10_state.md R38, R39). -/
inductive HostValue where
  | word (w : Word)
  | layout (l : Layout)
  | header (h : Header)
  | real (x : F64)
  | index (n : Nat)
  | sample (x : Sample)
deriving DecidableEq, Repr

/-- One interaction of the host with the block (20_memory.md R80). -/
inductive HostEvent where
  /-- Issue a command word, legal or not. -/
  | command (w : Word)
  /-- Issue a command word only if the last command reported OK: the host's own conduct in the
  pseudo-instruction `next` (30_encoding.md R141, log 21). -/
  | commandIfOk (w : Word)
  /-- Supply this session's stream. -/
  | supply (bytes : List Byte)
  /-- `CTWrite(key, v)` (20_memory.md R66). -/
  | ctWrite (key : CalKey) (v : F64)
  /-- `CTClear(key)` (20_memory.md R66). -/
  | ctClear (key : CalKey)
  /-- Read a register by number (10_state.md R38). -/
  | readReg (n : Nat)
  /-- Read a field or an element of a buffer (10_state.md R39). -/
  | readBuf (ref : BufferRef)
  /-- Assert reset (70_reset_and_hazards.md R361). -/
  | reset
deriving DecidableEq, Repr

/-- Why the machine stops with a fault. The hardware itself has none (60_exceptions.md R331: a raise
is a status write, a next state here); both stand where the spec says that a thing cannot be. -/
inductive Fault where
  /-- `MemRead` of a byte the stream does not hold. Raised by SYNC, PROBE and DECODE only where POS
  lies beyond the stream or the configuration's DEINT leaves the sample block; 00_scope.md R10 says
  no command does it. Safe: the model stops where the spec defines no value (log 7). -/
  | readOutsideStream
  /-- An element that a buffer, a constant table or the stop-cell map must have is not there. Raised
  by OBSERVE and APPLY only in states whose buffers, tables or configuration do not have the shape
  10_state.md R31, R33, R36 give them, or after the frame counter has wrapped (log 11).
  Safe: the model stops where the spec defines no value (log 12). -/
  | elementMissing
deriving DecidableEq, Repr

/-- Why the model refuses a host's move, or an instruction it has no meaning for. -/
inductive Refusal where
  /-- The instruction has no meaning yet. Raised by no arm of this model. Safe. -/
  | notModelled (mnemonic : String)
  /-- A read of register 7 or above, which "a model refuses" (10_state.md R38). Raised by the
  register read port. Safe. -/
  | reservedRegister (n : Nat)
  /-- A read of a buffer whose valid flag is 0, "refused by a model" (10_state.md R39). Raised by
  the buffer read port. Safe. -/
  | bufferNotValid
  /-- A read of a buffer element out of range, "refused by a model" (10_state.md R39). Raised by the
  buffer read port. Safe. -/
  | indexOutOfRange
  /-- A CTWrite or CTClear of a key that is no key of R251. Raised by the table write port. Safe
  (log 15). -/
  | noSuchKey (key : CalKey)
  /-- A supply of the stream once this session's stream is fixed, or of a stream that is too long or
  ends before POS: "a model gives the host no move that does so" (70_reset_and_hazards.md R368).
  Raised by the stream port. Safe (log 14). -/
  | streamFixed
deriving DecidableEq, Repr

/-- The state of the machine. The fields from `status` to `ct` are the block's own state, "exactly"
the elements of 10_state.md R20; the others are the model's arguments and the host's side. -/
structure State where
  /-- The configuration parameters (00_scope.md section 3, log 1). Nothing changes them. -/
  cfg : Config
  /-- `STREAM`; `STREAM_LEN` is its length (20_memory.md R61). Only the host's supply changes it. -/
  stream : Memory
  /-- The model's own: this session's stream can no longer be supplied (log 14). -/
  streamFixed : Bool
  /-- The model's own: the host's interactions still to come, oldest first (log 3). -/
  port : List HostEvent
  /-- The model's own: what the host's last read of a port got (log 13). -/
  reply : Option HostValue
  /-- `STATUS` (10_state.md R22). -/
  status : Byte
  /-- `RES` (10_state.md R23). -/
  res : Word
  /-- `POS` (10_state.md R24). -/
  pos : Word
  /-- `LAYOUT`, `none` being NONE (10_state.md R25). -/
  layout : Option Layout
  /-- `FATAL` (10_state.md R26). -/
  fatal : Bool
  /-- `PREV_FL` (10_state.md R27). -/
  prevFl : Word
  /-- `PREV_FL_VALID` (10_state.md R27). -/
  prevFlValid : Bool
  /-- `FSEQ` (10_state.md R28). -/
  fseq : Word
  /-- `TRK` (10_state.md R29). -/
  trk : Tracker
  /-- `RB[ch][g][cell]` at key `cellIndex ch g cell`, base value NaN (10_state.md R30). -/
  rb : Runs F64
  /-- `FB_VALID` and `FB`: `none` when `FB_VALID` is 0 (10_state.md R31, log 10). -/
  fb : Option Frame
  /-- `EB_VALID` and `EB`: `none` when `EB_VALID` is 0 (10_state.md R33, log 10). -/
  eb : Option Elapsed
  /-- `CB_VALID` and `CB`: `none` when `CB_VALID` is 0 (10_state.md R34, log 10). -/
  cb : Option Frame
  /-- `STAGE_EN`; bit s-1 enables stage s (10_state.md R35). -/
  stageEn : BitVec 4
  /-- `ACS` (10_state.md R36). -/
  acs : CalStore
  /-- `CT` (10_state.md R37). -/
  ct : CalStore
deriving DecidableEq, Repr

/-- The block after reset under a configuration, over a stream, with the host's interactions still to
come and its last answer: every element of 10_state.md R20 at its value of
70_reset_and_hazards.md R360. -/
def State.resetWith (cfg : Config) (stream : Memory) (port : List HostEvent)
    (reply : Option HostValue) : State where
  cfg := cfg
  stream := stream
  streamFixed := false
  port := port
  reply := reply
  status := 0
  res := 0
  pos := 0
  layout := none
  fatal := false
  prevFl := 0
  prevFlValid := false
  fseq := 0
  trk := .tracking
  rb := []
  fb := none
  eb := none
  cb := none
  stageEn := 0
  acs := .empty
  ct := .empty

/-- The machine after power-on: the reset state under the configuration TC (log 2), no stream
supplied (log 8) and no interaction pending (log 3). -/
def State.reset : State := .resetWith .tc [] [] none

end Sys2Proof.Machine
end

