-- ==== Sys2Proof/Machine/Runs.lean ====
section
/-! DEFINITION. Reading, writing and scanning the tables RB, ACS and CT (20_memory.md R65, R66).
A table is the list of the keys at which its value changes (`Runs`, log 9), so one entry and a whole
table of equal entries are both short, and equal contents are equal data. -/

namespace Sys2Proof.Machine

variable {V : Type}

/-- The value at a key, `d` being the value in force before the first listed key. -/
def runsRead (d : V) : Runs V → Nat → V
  | [], _ => d
  | (p, v) :: rest, k => if k < p then d else runsRead v rest k

/-- The list that changes from `d` to `v` at `p` and goes on as `rest`; nothing is listed where the
value does not change. -/
def runsPut [DecidableEq V] (d : V) (p : Nat) (v : V) (rest : Runs V) : Runs V :=
  if v = d then rest else (p, v) :: rest

/-- The list that goes on, at `p` and from the value `v`, with the table whose value in force is
`cur` and whose later changes are `rest`. -/
def runsResume [DecidableEq V] (v cur : V) (p : Nat) : Runs V → Runs V
  | [] => runsPut v p cur []
  | (q, w) :: rest => if q = p then runsPut v p w rest else runsPut v p cur ((q, w) :: rest)

/-- The table with the entry at key `k` set to `v`. -/
def runsWrite [DecidableEq V] (d : V) : Runs V → Nat → V → Runs V
  | [], k, v => runsPut d k v (runsResume v d (k + 1) [])
  | (p, w) :: rest, k, v =>
    if p < k then (p, w) :: runsWrite w rest k v
    else if p = k then runsPut d k v (runsResume v w (k + 1) rest)
    else runsPut d k v (runsResume v d (k + 1) ((p, w) :: rest))

/-- The canonical form: keys from `lo` on, strictly rising, each with a value other than the one in
force before it. -/
def runsWf [DecidableEq V] (d : V) (lo : Nat) : Runs V → Bool
  | [] => true
  | (p, v) :: rest => decide (lo ≤ p) && decide (v ≠ d) && runsWf v (p + 1) rest

/-- Whether every entry at a key from `lo` up to, not including, `hi` has a value that `f` accepts. -/
def runsAll (d : V) (f : V → Bool) (lo hi : Nat) : Runs V → Bool
  | [] => decide (hi ≤ lo) || f d
  | (p, v) :: rest =>
    (decide (min p hi ≤ lo) || f d) && runsAll v f (max lo p) hi rest

end Sys2Proof.Machine
end

