-- ==== Sys2Proof/Machine/Sizes.lean ====
section
/-! DEFINITION. The sizes and offsets the configuration gives (00_scope.md R9, 30_encoding.md R102,
R106), the parameter functions SC_MAP, DEINT and POW_FN, the keys of the tables, and what
00_scope.md section 3 asks of a configuration. -/

namespace Sys2Proof.Machine

/-- `TOTAL_CAP`, the cells of a ring (00_scope.md R6). -/
def totalCap : Nat := 4096
/-- `N_GAIN` (00_scope.md R7). -/
def nGain : Nat := 2

/-- `MOFF_A` (00_scope.md R9). -/
def moffA (c : Config) : Nat := c.wEvA + c.wTrA + 8 + c.nSc * c.scW
/-- `HDR_A` (00_scope.md R9). -/
def hdrA (c : Config) : Nat := moffA c + 16
/-- `O_10M` (30_encoding.md R106). -/
def o10M (c : Config) : Nat := 2 + c.wPps
/-- `O_EV_B` (30_encoding.md R106). -/
def oEvB (c : Config) : Nat := o10M c + c.w10M
/-- `O_TR_B` (30_encoding.md R106). -/
def oTrB (c : Config) : Nat := oEvB c + c.wEvB
/-- `O_133` (30_encoding.md R106). -/
def o133 (c : Config) : Nat := oTrB c + c.wTrB
/-- `MOFF_B` (00_scope.md R9, 30_encoding.md R106). -/
def moffB (c : Config) : Nat := o133 c + c.w133
/-- `HDR_B` (00_scope.md R9). -/
def hdrB (c : Config) : Nat := moffB c + 8 + c.nSc * c.scW

/-- `HDR(lay)` (00_scope.md R9). -/
def hdrLen (c : Config) : Layout → Nat
  | .a => hdrA c
  | .b => hdrB c
/-- `MOFF(lay)` (40_framer.md R156). -/
def markerOffset (c : Config) : Layout → Nat
  | .a => moffA c
  | .b => moffB c
/-- `MLEN(lay)` (00_scope.md R9). -/
def markerLen : Layout → Nat
  | .a => 16
  | .b => 8
/-- `MARKER(lay)` (40_framer.md R150, 30_encoding.md R108). -/
def marker (c : Config) : Layout → List Byte
  | .a => c.markerA
  | .b => List.replicate 8 c.mb
/-- The bytes of one sample index over all channels and gains, `2 * N_GAIN * N_CH`
(30_encoding.md R116). -/
def sampleStride (c : Config) : Nat := 2 * nGain * c.nCh
/-- `MAX_FRAME(lay)` (00_scope.md R9). -/
def maxFrame (c : Config) (lay : Layout) : Nat := hdrLen c lay + sampleStride c * c.maxCapture
/-- `LOOKAHEAD(lay)` (00_scope.md R9, 40_framer.md R151). -/
def lookahead (c : Config) (lay : Layout) : Nat := 3 * maxFrame c lay / 2

/-- `SC_MAP(ch, g)`, where the configuration's list has a place for it (30_encoding.md R112). -/
def scMapAt (c : Config) (ch g : Nat) : Option Nat := c.scMap[ch * nGain + g]?

/-- The default de-interleave (30_encoding.md R118). -/
def deintStandard (nCh ch g i len : Nat) : Nat :=
  (ch % 2) * (nCh * len) + (i * (nCh / 2) + ch / 2) * 2 + g

/-- `DEINT(ch, g, i, L)`, where the configuration gives it (30_encoding.md R118). -/
def deintAt (c : Config) (ch g i len : Nat) : Option Nat :=
  match c.deint with
  | .standard => some (deintStandard c.nCh ch g i len)
  | .table rows =>
    match rows[len - 1]? with
    | some row => row[(ch * nGain + g) * len + i]?
    | none => none

/-- `POW_FN(x, y)`: the value the configuration fixes at that point, else the opaque function
(00_scope.md section 3, log 6). -/
def powFn (c : Config) (x y : F64) : F64 :=
  match c.powPoints.find? (fun p => p.x == x && p.y == y) with
  | some p => p.value
  | none => Config.powFn x y

/-- The place of (ch, g) among the rows of a buffer. -/
def rowIndex (ch g : Nat) : Nat := ch * nGain + g
/-- The key of (ch, g, cell) in RB and in the tables OFF, PA, PB, PC (10_state.md R30, R36). -/
def cellIndex (ch g cell : Nat) : Nat := totalCap * rowIndex ch g + cell
/-- The key of (ch, g, cell, pos) in a table that holds `width` positions a cell: `MAX_CAPTURE` for
GRID, `PREFIX_LEN` for PAT (10_state.md R36). -/
def posIndex (width ch g cell pos : Nat) : Nat := cellIndex ch g cell * width + pos
/-- The number of keys of a table by cell (43_calibration.md R251). -/
def cellCount (c : Config) : Nat := nGain * c.nCh * totalCap
/-- The number of keys of GRID (43_calibration.md R251). -/
def gridCount (c : Config) : Nat := cellCount c * c.maxCapture
/-- The number of keys of PAT (43_calibration.md R251). -/
def patCount (c : Config) : Nat := cellCount c * c.prefixLen

/-- Every (ch, g), in the order of a buffer's rows (00_scope.md R13). -/
def lanes (c : Config) : List (Nat × Nat) :=
  (List.range c.nCh).flatMap fun ch => (List.range nGain).map fun g => (ch, g)

/-- `0 < x`, and not infinite: what `SCALE_A` must be (00_scope.md section 3, log 22). -/
def f64Positive : F64 → Bool
  | .fin false e f => decide (e ≠ 0 ∨ f ≠ 0)
  | .fin true _ _ | .inf _ | .nan => false

/-- A field width of 1 to 8 bytes (00_scope.md section 3). -/
def fieldWidth (w : Nat) : Bool := decide (1 ≤ w ∧ w ≤ 8)

/-- `DEINT(·, ·, ·, len)` is a bijection onto the words of the block, puts the two channels of a pair
in different halves, and alternates the gains within a half (30_encoding.md R118, constraints 1 to
3), read from the list of its word indices in the order of (ch, g, i). -/
def deintRowOk (nCh len : Nat) (row : List Nat) : Bool :=
  decide (row.length = nGain * nCh * len) &&
  decide (∀ w < nGain * nCh * len, w ∈ row) &&
  decide (∀ k < nCh / 2, ∀ j < nGain * len, ∀ j' < nGain * len,
    (row[2 * k * (nGain * len) + j]?.getD 0 < nCh * len) ≠
      (row[(2 * k + 1) * (nGain * len) + j']?.getD 0 < nCh * len)) &&
  decide (∀ j < row.length, ∀ j' < row.length,
    row[j']?.getD 0 = row[j]?.getD 0 + 1 → row[j']?.getD 0 ≠ nCh * len →
      j / len % nGain ≠ j' / len % nGain)

/-- What 30_encoding.md R118 asks of DEINT. The default formula meets it for every even `N_CH`. -/
def deintOk (c : Config) : Bool :=
  match c.deint with
  | .standard => true
  | .table rows =>
    decide (rows.length = c.maxCapture) &&
      rows.zipIdx.all fun (row, k) => deintRowOk c.nCh (k + 1) row

/-- What 00_scope.md section 3 asks of the parameters. -/
def configOk (c : Config) : Bool :=
  decide (2 ≤ c.nCh) && decide (c.nCh % 2 = 0) &&
  decide (1 ≤ c.maxCapture) && decide (c.maxCapture ≤ totalCap) &&
  fieldWidth c.wEvA && fieldWidth c.wTrA && fieldWidth c.wPps && fieldWidth c.w10M &&
  fieldWidth c.wEvB && fieldWidth c.wTrB && fieldWidth c.w133 &&
  decide (1 ≤ c.nSc) && decide (2 ≤ c.scW) && decide (c.scW ≤ 8) &&
  decide (c.scMap.length = nGain * c.nCh) && c.scMap.all (· < c.nSc) &&
  decide (c.markerA.length = 16) && decide (c.magicB.length = 2) &&
  f64Positive c.scaleA && deintOk c &&
  decide (1 ≤ c.prefixLen) && decide (c.prefixLen ≤ c.maxCapture)

end Sys2Proof.Machine
end

