-- ==== Sys2Proof/Machine/Ops.lean ====
section
/-! DEFINITION. The operations every meaning is made of: reading the stream, the named updates of
State, ending a command with OK, and raising a status code, which is this block's whole exception
entry (60_exceptions.md R331; there is no return, R332). -/

namespace Sys2Proof.Machine

/-! ### The stream -/

/-- The stream that holds the given bytes from address 0 on (20_memory.md R71). -/
def Memory.ofBytes (bytes : List Byte) : Memory := bytes.zipIdx.map fun (b, a) => (a, b)

/-- The canonical form: the addresses are 0, 1, 2, … in order. -/
def Memory.wf (m : Memory) : Bool := decide (m.map (·.1) = List.range m.length)

/-- The byte at an address, if the stream holds one there (20_memory.md R61). -/
def readByte (m : Memory) (a : Nat) : Option Byte := m.lookup a

/-- `MemRead(a, n)`: defined only when `a + n ≤ STREAM_LEN` (00_scope.md R10). In the canonical form
the cell of address `a` stands at place `a`, and this is `n` reads of one byte (`memRead_eq_some`
in Laws/Ops.lean). -/
def memRead (m : Memory) (a n : Nat) : Option (List Byte) :=
  if a + n ≤ m.length then some (((m.drop a).take n).map (·.2)) else none

/-- `STREAM_LEN` (20_memory.md R61). -/
def State.streamLen (s : State) : Nat := s.stream.length

/-! ### Status codes -/

/-- The status codes (60_exceptions.md R320). -/
inductive Code where
  | ok
  | endOfStream
  | framingError
  | headerFormatError
  | addressRangeError
  | missingCalibrationConstant
  | arithmeticFault
  | sequenceError
  | illegalCommand
deriving DecidableEq, Repr

/-- The number of a status code (60_exceptions.md R320). -/
def codeBits : Code → Byte
  | .ok => 0
  | .endOfStream => 1
  | .framingError => 2
  | .headerFormatError => 3
  | .addressRangeError => 4
  | .missingCalibrationConstant => 5
  | .arithmeticFault => 6
  | .sequenceError => 7
  | .illegalCommand => 8

/-- How a computation inside a command can end early: by raising a code, or in a fault of the
model. -/
inductive Stop where
  | code (c : Code)
  | fault (f : Fault)
deriving DecidableEq, Repr

/-- An element that must be there: a fault of the model where it is not (log 12). -/
def orMissing {α : Type} : Option α → Except Stop α
  | some a => .ok a
  | none => .error (.fault .elementMissing)

/-- `f` on every element in order, ending at the first that stops. -/
def forEach {α β : Type} (f : α → Except Stop β) : List α → Except Stop (List β)
  | [] => .ok []
  | a :: as =>
    match f a with
    | .error e => .error e
    | .ok b =>
      match forEach f as with
      | .error e => .error e
      | .ok bs => .ok (b :: bs)

/-! ### The named updates of State -/

/-- Write STATUS. -/
def State.withStatus (s : State) (b : Byte) : State := { s with status := b }
/-- Write RES. -/
def State.withRes (s : State) (w : Word) : State := { s with res := w }
/-- Write POS. -/
def State.withPos (s : State) (p : Word) : State := { s with pos := p }
/-- Write LAYOUT. -/
def State.withLayout (s : State) (l : Option Layout) : State := { s with layout := l }
/-- Write FATAL. -/
def State.withFatal (s : State) (b : Bool) : State := { s with fatal := b }
/-- Write PREV_FL and set PREV_FL_VALID. -/
def State.withPrevFl (s : State) (w : Word) : State := { s with prevFl := w, prevFlValid := true }
/-- Write FSEQ and put a frame in FB, so that FB_VALID is 1. -/
def State.withFrame (s : State) (f : Frame) : State := { s with fseq := f.seq, fb := some f }
/-- Write TRK. -/
def State.withTrk (s : State) (t : Tracker) : State := { s with trk := t }
/-- Write RB. -/
def State.withRb (s : State) (rb : Runs F64) : State := { s with rb := rb }
/-- Put elapsed times in EB, so that EB_VALID is 1. -/
def State.withElapsed (s : State) (e : Elapsed) : State := { s with eb := some e }
/-- Put a corrected frame in CB, so that CB_VALID is 1. -/
def State.withCorrected (s : State) (f : Frame) : State := { s with cb := some f }
/-- Write STAGE_EN and ACS. -/
def State.withPipeline (s : State) (en : BitVec 4) (acs : CalStore) : State :=
  { s with stageEn := en, acs := acs }
/-- Write CT. -/
def State.withCt (s : State) (ct : CalStore) : State := { s with ct := ct }
/-- Supply the stream, once this session. -/
def State.withStream (s : State) (m : Memory) : State :=
  { s with stream := m, streamFixed := true }
/-- Fix this session's stream if `b`. -/
def State.fixStream (s : State) (b : Bool) : State := { s with streamFixed := s.streamFixed || b }
/-- Write the host's pending interactions. -/
def State.withPort (s : State) (p : List HostEvent) : State := { s with port := p }
/-- Write what the host's last read got. -/
def State.withReply (s : State) (v : HostValue) : State := { s with reply := some v }

/-- Every state element of 10_state.md R20 at its reset value; the configuration, the stream, the
host's pending interactions and its last answer are not state of the block and stay
(70_reset_and_hazards.md R360, R361; log 17). -/
def State.powerOn (s : State) : State := .resetWith s.cfg s.stream s.port s.reply

/-! ### Ending a command -/

/-- A command that completes without raising sets STATUS to OK (00_scope.md R12). -/
def complete (s : State) : Host.Outcome State Fault Refusal := .next (s.withStatus (codeBits .ok))

/-- `raise`: the command ends with the code in STATUS and none of its writes. `s` is the state before
the command, with what `set_sticky` wrote if anything (00_scope.md R12, 60_exceptions.md R331). -/
def raise (c : Code) (s : State) : Host.Outcome State Fault Refusal :=
  .next (s.withStatus (codeBits c))

/-- End a command whose computation stopped early (`s` the state before it) or gave the state it
writes. -/
def finish (s : State) : Except Stop State → Host.Outcome State Fault Refusal
  | .ok t => complete t
  | .error (.code c) => raise c s
  | .error (.fault f) => .fault f

end Sys2Proof.Machine
end

