-- ==== Sys2Proof/Machine/Operands.lean ====
section
/-! DEFINITION. The operands of the commands: zero-extension (30_encoding.md R131), the range checks
of the translator (41_translator.md R204), the stage mask and the header-field and sample readings
of 00_scope.md R11. -/

namespace Sys2Proof.Machine

/-- A 16-bit operand as an integer, zero-extended (30_encoding.md R131). -/
def operand (a : Field) : Nat := a.toNat

/-- SEEK's 48-bit operand as a 64-bit position, zero-extended (30_encoding.md R131). -/
def seekTarget (p : BitVec 48) : Word := p.setWidth 64

/-- A cell, stop cell or sample index in [0, 4096) (41_translator.md R204). -/
def cellOk (n : Nat) : Bool := decide (n < totalCap)

/-- A capture length in [0, 4096] (41_translator.md R204). -/
def lengthOk (n : Nat) : Bool := decide (n ≤ totalCap)

/-- Whether a mask requests or enables stage `k` of 1 to 4: bit `k - 1` (10_state.md R35). -/
def stageBit (m : BitVec 4) (k : Nat) : Bool := m.getLsbD (k - 1)

/-- `BE(b)` (00_scope.md R11). -/
def beNat (b : List Byte) : Nat := b.foldl (fun n x => 256 * n + x.toNat) 0

/-- `LE(b)` (00_scope.md R11). -/
def leNat (b : List Byte) : Nat := beNat b.reverse

/-- `HFIELD(b)`, zero-extended to 64 bits (00_scope.md R11, 30_encoding.md R110). -/
def hfield (c : Config) (b : List Byte) : Word :=
  match c.hdrByteOrder with
  | .big => BitVec.ofNat 64 (beNat b)
  | .little => BitVec.ofNat 64 (leNat b)

/-- `S16(b0, b1)`, the big-endian 16-bit sample (00_scope.md R11); its value is `BitVec.toInt`. -/
def sample16 (b0 b1 : Byte) : Sample := b0 ++ b1

/-- `s[off .. off + n)` (00_scope.md section 4). -/
def slice (b : List Byte) (off n : Nat) : List Byte := (b.drop off).take n

/-- The code of LAYOUT: 0 NONE, 1 Layout A, 2 Layout B (10_state.md R25). -/
def layoutCode : Option Layout → Nat
  | none => 0
  | some .a => 1
  | some .b => 2

end Sys2Proof.Machine
end

