-- ==== Sys2Proof/Machine/Flags.lean ====
section
/-! DEFINITION. The flags of the block: EB_CUR and CB_CUR (10_state.md R33, R34), and the register
map with its FLAGS word (10_state.md R38). -/

namespace Sys2Proof.Machine

/-- `EB_CUR`: the elapsed times belong to the frame in FB (10_state.md R33). -/
def ebCur (s : State) : Bool :=
  match s.eb, s.fb with
  | some e, some f => e.seq == f.seq
  | _, _ => false

/-- `CB_CUR`: the corrected frame belongs to the frame in FB (10_state.md R34). -/
def cbCur (s : State) : Bool :=
  match s.cb, s.fb with
  | some c, some f => c.seq == f.seq
  | _, _ => false

/-- TRK as the bit the host reads: 1 for invalidated-once (10_state.md R29). -/
def trkBit : Tracker → Bool
  | .tracking => false
  | .invalidatedOnce => true

/-- The register FLAGS (10_state.md R38). -/
def flagsWord (s : State) : Word :=
  (0 : BitVec 52) ++ s.stageEn ++ BitVec.ofBool s.prevFlValid ++ BitVec.ofBool (cbCur s) ++
    BitVec.ofBool (ebCur s) ++ BitVec.ofBool s.fb.isSome ++
    BitVec.ofNat 2 (layoutCode s.layout) ++ BitVec.ofBool (trkBit s.trk) ++
    BitVec.ofBool s.fatal

/-- A register by its number; 7 and above are reserved (10_state.md R38). -/
def readRegister (s : State) (n : Nat) : Option Word :=
  match n with
  | 0 => some (s.status.setWidth 64)
  | 1 => some (flagsWord s)
  | 2 => some s.res
  | 3 => some s.pos
  | 4 => some s.fseq
  | 5 => some s.prevFl
  | 6 => some (BitVec.ofNat 64 s.streamLen)
  | _ => none

end Sys2Proof.Machine
end

