-- ==== Sys2Proof/Machine/Float64.lean ====
section
/-! DEFINITION. Binary64 arithmetic, rounded to nearest, ties to even (00_scope.md section 4; the
format and its special cases are 93_implementation_defined.md G1: log 5, PRESUMED). Every finite
binary64 value is a whole number of units of 2^-1074, so each operation computes its exact result
in integers and rounds once. -/

namespace Sys2Proof.Machine

/-- The number of units of 2^-1074 in 1. -/
def unitsPerOne : Nat := 2 ^ 1074

/-- The magnitude of a finite value, in units of 2^-1074: the fraction alone when the biased exponent
is 0, else the fraction with its hidden bit at the exponent's place. -/
def f64Units (exp : Fin 2047) (frac : BitVec 52) : Nat :=
  if exp.val = 0 then frac.toNat else (2 ^ 52 + frac.toNat) * 2 ^ (exp.val - 1)

/-- The quotient of `n` by `d` rounded to nearest, ties to even. -/
def divRne (n d : Nat) : Nat :=
  let q := n / d
  let r := n % d
  if d < 2 * r ∨ (2 * r = d ∧ q % 2 = 1) then q + 1 else q

/-- The binary64 value nearest to `num / den` units, ties to even, with the given sign; infinite when
the rounded value is too large for the format. `k` is how many places the 53 significant bits lie
above the units; `code` holds the biased exponent above the 52 fraction bits, so that a carry out of
the rounded significand moves the exponent up. -/
def f64Round (neg : Bool) (num den : Nat) : F64 :=
  let k := (num / den).log2 - 52
  let code := 2 ^ 52 * k + divRne num (den * 2 ^ k)
  if h : code / 2 ^ 52 < 2047 then .fin neg ⟨code / 2 ^ 52, h⟩ (BitVec.ofNat 52 code)
  else .inf neg

/-- A magnitude with its sign, as an integer. -/
def signedInt (neg : Bool) (n : Nat) : Int := if neg then -(n : Int) else n

/-- `isNaN(x)` (00_scope.md section 4). -/
def isNaN (x : F64) : Bool := decide (x = .nan)

/-- The value with its sign changed. -/
def fneg : F64 → F64
  | .nan => .nan
  | .inf n => .inf (!n)
  | .fin n e f => .fin (!n) e f

/-- `fadd` (00_scope.md section 4): an exact zero sum is +0 unless both terms are negative. -/
def fadd : F64 → F64 → F64
  | .nan, _ => .nan
  | .inf _, .nan => .nan
  | .fin _ _ _, .nan => .nan
  | .inf m, .inf n => if m = n then .inf m else .nan
  | .inf m, .fin _ _ _ => .inf m
  | .fin _ _ _, .inf n => .inf n
  | .fin m e f, .fin n e' f' =>
    let z := signedInt m (f64Units e f) + signedInt n (f64Units e' f')
    if z = 0 then .fin (m && n) 0 0 else f64Round (decide (z < 0)) z.natAbs 1

/-- `fsub` (00_scope.md section 4). -/
def fsub (x y : F64) : F64 := fadd x (fneg y)

/-- `fmul` (00_scope.md section 4): zero times infinity is NaN. -/
def fmul : F64 → F64 → F64
  | .nan, _ => .nan
  | .inf _, .nan => .nan
  | .fin _ _ _, .nan => .nan
  | .inf m, .inf n => .inf (m != n)
  | .inf m, .fin n e f => if f64Units e f = 0 then .nan else .inf (m != n)
  | .fin m e f, .inf n => if f64Units e f = 0 then .nan else .inf (m != n)
  | .fin m e f, .fin n e' f' =>
    f64Round (m != n) (f64Units e f * f64Units e' f') unitsPerOne

/-- `fdiv` (00_scope.md section 4): a finite non-zero value over zero is infinite, zero over zero and
infinity over infinity are NaN. -/
def fdiv : F64 → F64 → F64
  | .nan, _ => .nan
  | .inf _, .nan => .nan
  | .fin _ _ _, .nan => .nan
  | .inf _, .inf _ => .nan
  | .inf m, .fin n _ _ => .inf (m != n)
  | .fin m _ _, .inf n => .fin (m != n) 0 0
  | .fin m e f, .fin n e' f' =>
    if f64Units e' f' = 0 then (if f64Units e f = 0 then .nan else .inf (m != n))
    else f64Round (m != n) (unitsPerOne * f64Units e f) (f64Units e' f')

/-- `toF64(n)`: the binary64 value nearest to an integer, ties to even (00_scope.md section 4). -/
def toF64 (n : Int) : F64 := f64Round (decide (n < 0)) (unitsPerOne * n.natAbs) 1

end Sys2Proof.Machine
end

