-- ==== Sys2Proof/Machine/Translator.lean ====
section
/-! DEFINITION. The capacitor-address translator: its three functions and the commands C2S, S2C and
INWIN (41_translator.md). -/

namespace Sys2Proof.Machine

/-- `cell_to_sample`, the non-negative remainder (41_translator.md R201). -/
def cellToSample (cell stopCell : Nat) : Nat := (((cell : Int) - stopCell) % totalCap).toNat

/-- `sample_to_cell` (41_translator.md R202). -/
def sampleToCell (sampleIndex stopCell : Nat) : Nat := (sampleIndex + stopCell) % totalCap

/-- `cell_in_window` (41_translator.md R203). -/
def cellInWindow (cell stopCell captureLength : Nat) : Bool :=
  decide (cellToSample cell stopCell < captureLength)

/-- The end of a translator command: its result in RES if its operands are in range
(41_translator.md R204). -/
def translated (inRange : Bool) (result : Nat) (s : State) : Host.Outcome State Fault Refusal :=
  if inRange then complete (s.withRes (BitVec.ofNat 64 result)) else raise .addressRangeError s

/-- C2S (41_translator.md R205). -/
def execC2s (cell stopCell : Field) (s : State) : Host.Outcome State Fault Refusal :=
  translated (cellOk (operand cell) && cellOk (operand stopCell))
    (cellToSample (operand cell) (operand stopCell)) s

/-- S2C (41_translator.md R206). -/
def execS2c (sampleIndex stopCell : Field) (s : State) : Host.Outcome State Fault Refusal :=
  translated (cellOk (operand sampleIndex) && cellOk (operand stopCell))
    (sampleToCell (operand sampleIndex) (operand stopCell)) s

/-- INWIN (41_translator.md R207). -/
def execInwin (cell stopCell captureLength : Field) (s : State) :
    Host.Outcome State Fault Refusal :=
  translated
    (cellOk (operand cell) && cellOk (operand stopCell) && lengthOk (operand captureLength))
    (cellInWindow (operand cell) (operand stopCell) (operand captureLength)).toNat s

end Sys2Proof.Machine
end

