-- ==== Sys2Proof/Machine/Tracker.lean ====
section
/-! DEFINITION. The recency tracker: OBSERVE and INVALIDATE (42_tracker.md). -/

namespace Sys2Proof.Machine

/-- The window of one (ch, g) of a frame: where its samples lie in the ring. -/
structure Window where
  ch : Nat
  g : Nat
  stopCell : Nat
deriving DecidableEq, Repr

/-- `FB.stop_cell(ch, g)`, the stop cell of (ch, g) (10_state.md R31, 30_encoding.md R112). -/
def frameStop (c : Config) (f : FrameBody) (ch g : Nat) : Option Nat :=
  match scMapAt c ch g with
  | some k => f.stop[k]?
  | none => none

/-- The window of (ch, g), its stop cell being there. -/
def windowOf (c : Config) (f : FrameBody) (lane : Nat × Nat) : Except Stop Window :=
  match orMissing (frameStop c f lane.1 lane.2) with
  | .ok stopCell => .ok ⟨lane.1, lane.2, stopCell⟩
  | .error e => .error e

/-- The windows of a frame, one per (ch, g). -/
def windowsOf (c : Config) (f : FrameBody) : Except Stop (List Window) :=
  forEach (windowOf c f) (lanes c)

/-- The key in RB, OFF, PA, PB and PC of sample `i` of a window: its own physical cell
(42_tracker.md R221, 43_calibration.md R252). -/
def windowKey (w : Window) (i : Nat) : Nat := cellIndex w.ch w.g (sampleToCell i w.stopCell)

/-- `RB` at a key: NaN where it was never written (10_state.md R30). -/
def rbRead (rb : Runs F64) (k : Nat) : F64 := runsRead .nan rb k

/-- `RB` with the entry at a key set (20_memory.md R65). -/
def rbWrite (rb : Runs F64) (k : Nat) (t : F64) : Runs F64 := runsWrite .nan rb k t

/-- The elapsed time of one sample (42_tracker.md R221, R223). -/
def elapsedOf (trk : Tracker) (rb : Runs F64) (t : F64) (k : Nat) : F64 :=
  if trk = .invalidatedOnce ∨ isNaN (rbRead rb k) then .nan else fsub t (rbRead rb k)

/-- The elapsed times of a frame, one row per window (42_tracker.md R221, R223). -/
def elapsedRows (trk : Tracker) (rb : Runs F64) (t : F64) (len : Nat) (ws : List Window) :
    List (List F64) :=
  ws.map fun w => (List.range len).map fun i => elapsedOf trk rb t (windowKey w i)

/-- The timestamp stored for every cell of one window (42_tracker.md R224). -/
def stampWindow (t : F64) (len : Nat) (rb : Runs F64) (w : Window) : Runs F64 :=
  (List.range len).foldl (fun rb i => rbWrite rb (windowKey w i) t) rb

/-- The timestamp stored for every cell of a frame's windows (42_tracker.md R224). -/
def stampWindows (t : F64) (len : Nat) (ws : List Window) (rb : Runs F64) : Runs F64 :=
  ws.foldl (stampWindow t len) rb

/-- What OBSERVE writes for the frame `f` with the windows `ws` (42_tracker.md R221, R225). Every
read of RB is of the state before the command (R224). -/
def observed (s : State) (f : Frame) (ws : List Window) : State :=
  ((s.withElapsed
      ⟨f.seq, f.body.len, elapsedRows s.trk s.rb f.body.t f.body.len ws⟩).withRb
        (stampWindows f.body.t f.body.len ws s.rb)).withTrk .tracking

/-- OBSERVE (42_tracker.md R221). -/
def execObserve (s : State) : Host.Outcome State Fault Refusal :=
  match s.fb with
  | none => raise .sequenceError s
  | some f =>
    if ebCur s then raise .sequenceError s
    else
      match windowsOf s.cfg f.body with
      | .ok ws => complete (observed s f ws)
      | .error e => finish s (.error e)

/-- INVALIDATE (42_tracker.md R222). -/
def execInvalidate (s : State) : Host.Outcome State Fault Refusal :=
  complete (s.withTrk .invalidatedOnce)

end Sys2Proof.Machine
end

