-- ==== Sys2Proof/Machine/Calibration.lean ====
section
/-! DEFINITION. The calibration-correction pipeline: the constant tables, CALCFG and APPLY
(43_calibration.md). -/

namespace Sys2Proof.Machine

/-! ### The constant tables -/

/-- A table by cell of a store. -/
def cellTable (st : CalStore) : CellTable → Runs (Option F64)
  | .off => st.off
  | .pa => st.pa
  | .pb => st.pb
  | .pc => st.pc

/-- A table by cell and position of a store. -/
def posTable (st : CalStore) : PosTable → Runs (Option F64)
  | .grid => st.grid
  | .pat => st.pat

/-- The number of positions per cell of GRID and of PAT (43_calibration.md R251). -/
def posWidth (c : Config) : PosTable → Nat
  | .grid => c.maxCapture
  | .pat => c.prefixLen

/-- The entry of a table at a key, `none` being absent (20_memory.md R66). -/
def calRead (t : Runs (Option F64)) (k : Nat) : Option F64 := runsRead none t k

/-- A table with the entry at a key written or cleared (20_memory.md R66). -/
def calWrite (t : Runs (Option F64)) (k : Nat) (v : Option F64) : Runs (Option F64) :=
  runsWrite none t k v

/-- Whether (ch, g, cell) is in the key range (43_calibration.md R251). -/
def cellKeyOk (c : Config) (ch g cell : Nat) : Bool :=
  decide (ch < c.nCh) && decide (g < nGain) && cellOk cell

/-- Whether a key is a key of its table (43_calibration.md R251). -/
def calKeyOk (c : Config) : CalKey → Bool
  | .atCell _ ch g cell => cellKeyOk c ch g cell
  | .atPos t ch g cell pos => cellKeyOk c ch g cell && decide (pos < posWidth c t)

/-- The entry of a store at a key. -/
def storeRead (c : Config) (st : CalStore) : CalKey → Option F64
  | .atCell t ch g cell => calRead (cellTable st t) (cellIndex ch g cell)
  | .atPos t ch g cell pos => calRead (posTable st t) (posIndex (posWidth c t) ch g cell pos)

/-- A store with the entry at a key written or cleared (20_memory.md R66, `CTWrite`, `CTClear`). -/
def storeWrite (c : Config) (st : CalStore) (key : CalKey) (v : Option F64) : CalStore :=
  match key with
  | .atCell .off ch g cell => { st with off := calWrite st.off (cellIndex ch g cell) v }
  | .atCell .pa ch g cell => { st with pa := calWrite st.pa (cellIndex ch g cell) v }
  | .atCell .pb ch g cell => { st with pb := calWrite st.pb (cellIndex ch g cell) v }
  | .atCell .pc ch g cell => { st with pc := calWrite st.pc (cellIndex ch g cell) v }
  | .atPos .grid ch g cell pos =>
    { st with grid := calWrite st.grid (posIndex c.maxCapture ch g cell pos) v }
  | .atPos .pat ch g cell pos =>
    { st with pat := calWrite st.pat (posIndex c.prefixLen ch g cell pos) v }

/-! ### CALCFG -/

/-- The tables of a stage with the number of keys of each, `K(s)` (43_calibration.md R251). -/
def stageTables (c : Config) (st : CalStore) : Nat → List (Runs (Option F64) × Nat)
  | 1 => [(st.off, cellCount c)]
  | 2 => [(st.pa, cellCount c), (st.pb, cellCount c), (st.pc, cellCount c)]
  | 3 => [(st.grid, gridCount c)]
  | 4 => [(st.pat, patCount c)]
  | _ => []

/-- No key of a table is present. -/
def tableEmpty (t : Runs (Option F64) × Nat) : Bool := runsAll none Option.isNone 0 t.2 t.1

/-- Every key of a table is present. -/
def tableFull (t : Runs (Option F64) × Nat) : Bool := runsAll none Option.isSome 0 t.2 t.1

/-- No key of `K(s)` is present: the stage was not supplied (43_calibration.md R253). -/
def stageEmpty (c : Config) (st : CalStore) (k : Nat) : Bool :=
  (stageTables c st k).all tableEmpty

/-- Every key of `K(s)` is present (43_calibration.md R253). -/
def stageFull (c : Config) (st : CalStore) (k : Nat) : Bool :=
  (stageTables c st k).all tableFull

/-- The stages of `ks` that a mask requests and CT supplies, in order, or the error of the first that
is supplied in part (43_calibration.md R253). -/
def enabledStages (c : Config) (st : CalStore) (m : BitVec 4) : List Nat → Except Stop (BitVec 4)
  | [] => .ok 0
  | k :: ks =>
    if stageBit m k = false ∨ stageEmpty c st k = true then enabledStages c st m ks
    else if stageFull c st k then
      match enabledStages c st m ks with
      | .ok en => .ok (en ||| BitVec.ofNat 4 (2 ^ (k - 1)))
      | .error e => .error e
    else .error (.code .missingCalibrationConstant)

/-- The tables of the enabled stages, and nothing else (43_calibration.md R253). -/
def restrictStore (st : CalStore) (en : BitVec 4) : CalStore where
  off := if stageBit en 1 then st.off else []
  pa := if stageBit en 2 then st.pa else []
  pb := if stageBit en 2 then st.pb else []
  pc := if stageBit en 2 then st.pc else []
  grid := if stageBit en 3 then st.grid else []
  pat := if stageBit en 4 then st.pat else []

/-- CALCFG (43_calibration.md R253). An operand above 15 is an illegal word (30_encoding.md R133,
log 19). -/
def execCalcfg (mask : Field) (s : State) : Host.Outcome State Fault Refusal :=
  if operand mask < 16 then
    match enabledStages s.cfg s.ct (mask.setWidth 4) [1, 2, 3, 4] with
    | .ok en => complete (s.withPipeline en (restrictStore s.ct en))
    | .error e => finish s (.error e)
  else raise .illegalCommand s

/-! ### APPLY -/

/-- The magnitude of a finite value rounded to an integer (43_calibration.md R256): `q` the whole
units and `r` the rest, of `unitsPerOne`. -/
def roundMagnitude (mode : WbRound) (neg : Bool) (units : Nat) : Nat :=
  let q := units / unitsPerOne
  let r := units % unitsPerOne
  match mode with
  | .trunc => q
  | .rne => divRne units unitsPerOne
  | .floor => if neg = true ∧ r ≠ 0 then q + 1 else q
  | .rhaz => if unitsPerOne ≤ 2 * r then q + 1 else q

/-- A binary64 value rounded to an integer, if it is finite (43_calibration.md R256). -/
def roundWb (mode : WbRound) : F64 → Option Int
  | .fin neg e f => some (signedInt neg (roundMagnitude mode neg (f64Units e f)))
  | .inf _ => none
  | .nan => none

/-- `WB(y)`: an s16, or ARITHMETIC_FAULT (43_calibration.md R256). -/
def writeBack (c : Config) (y : F64) : Except Stop Sample :=
  match roundWb c.wbRound y with
  | none => .error (.code .arithmeticFault)
  | some r =>
    if r < -32768 ∨ 32767 < r then .error (.code .arithmeticFault) else .ok (BitVec.ofInt 16 r)

/-- One stage on one sample: the offset subtracted and the result written back
(43_calibration.md R256, R257, R259, R260). -/
def subtractOffset (c : Config) (x : Sample) (offset : F64) : Except Stop Sample :=
  writeBack c (fsub (toF64 x.toInt) offset)

/-- `off2(dt, ch, g, cell)` with a, b, c the entries of PA, PB, PC (43_calibration.md R258). -/
def powerLaw (c : Config) (dt pa pb pc : F64) : F64 :=
  if isNaN dt then (if isNaN pc then .fin false 0 0 else pc)
  else fadd (fmul pa (powFn c dt pb)) pc

/-- `cellkey(ch, g, i)`, the cell that keys stages 3 and 4 (43_calibration.md R252). -/
def cellKey (c : Config) (w : Window) (i : Nat) : Nat :=
  match c.gpCell with
  | .sample => sampleToCell i w.stopCell
  | .stop => w.stopCell

/-- An element of a row of a buffer. -/
def rowElem {α : Type} (rows : List (List α)) (ch g i : Nat) : Option α :=
  match rows[rowIndex ch g]? with
  | some row => row[i]?
  | none => none

/-- The offset of a sample in one stage: what the stage subtracts, `none` where it leaves the sample
alone (43_calibration.md R255, R257 to R260). -/
def stageOffset (s : State) (dt : List (List F64)) (w : Window) (i : Nat) :
    Nat → Except Stop (Option F64)
  | 1 =>
    match orMissing (calRead s.acs.off (windowKey w i)) with
    | .ok o => .ok (some o)
    | .error e => .error e
  | 2 =>
    match rowElem dt w.ch w.g i, calRead s.acs.pa (windowKey w i),
        calRead s.acs.pb (windowKey w i), calRead s.acs.pc (windowKey w i) with
    | some d, some a, some b, some c => .ok (some (powerLaw s.cfg d a b c))
    | _, _, _, _ => .error (.fault .elementMissing)
  | 3 =>
    match orMissing (calRead s.acs.grid
        (posIndex s.cfg.maxCapture w.ch w.g (cellKey s.cfg w i) i)) with
    | .ok o => .ok (some o)
    | .error e => .error e
  | 4 =>
    if i < s.cfg.prefixLen then
      match orMissing (calRead s.acs.pat
          (posIndex s.cfg.prefixLen w.ch w.g (cellKey s.cfg w i) i)) with
      | .ok o => .ok (some o)
      | .error e => .error e
    else .ok none
  | _ => .ok none

/-- One stage on one sample: a disabled stage passes it through (43_calibration.md R255, R261). -/
def applyStage (s : State) (dt : List (List F64)) (w : Window) (i k : Nat) (x : Sample) :
    Except Stop Sample :=
  if stageBit s.stageEn k then
    match stageOffset s dt w i k with
    | .error e => .error e
    | .ok none => .ok x
    | .ok (some o) => subtractOffset s.cfg x o
  else .ok x

/-- The steps `ks` in order, each on the result of the one before, ending at the first that stops
(43_calibration.md R261). -/
def inOrder {α : Type} (f : Nat → α → Except Stop α) : List Nat → α → Except Stop α
  | [], x => .ok x
  | k :: ks, x =>
    match f k x with
    | .error e => .error e
    | .ok y => inOrder f ks y

/-- The four stages in order on one sample (43_calibration.md R255, R261). -/
def correctSample (s : State) (dt : List (List F64)) (w : Window) (i : Nat) (x : Sample) :
    Except Stop Sample :=
  inOrder (applyStage s dt w i) [1, 2, 3, 4] x

/-- The corrected sample of (ch, g, i) of a frame (43_calibration.md R255). -/
def correctAt (s : State) (f : FrameBody) (dt : List (List F64)) (w : Window) (i : Nat) :
    Except Stop Sample :=
  match rowElem f.samples w.ch w.g i with
  | some x => correctSample s dt w i x
  | none => .error (.fault .elementMissing)

/-- The corrected samples of a frame, one row per (ch, g) (43_calibration.md R255). -/
def correctedRows (s : State) (f : FrameBody) (dt : List (List F64)) :
    Except Stop (List (List Sample)) :=
  match windowsOf s.cfg f with
  | .error e => .error e
  | .ok ws => forEach (fun w => forEach (correctAt s f dt w) (List.range f.len)) ws

/-- The elapsed times APPLY reads: those of EB, which only stage 2 does
(43_calibration.md R255). -/
def elapsedTimes (s : State) : List (List F64) :=
  match s.eb with
  | some e => e.dt
  | none => []

/-- APPLY (43_calibration.md R255, R264). -/
def execApply (s : State) : Host.Outcome State Fault Refusal :=
  match s.fb with
  | none => raise .sequenceError s
  | some f =>
    if stageBit s.stageEn 2 = true ∧ ebCur s = false then raise .sequenceError s
    else
      match correctedRows s f.body (elapsedTimes s) with
      | .ok rows => complete (s.withCorrected ⟨f.seq, { f.body with samples := rows }⟩)
      | .error e => finish s (.error e)

end Sys2Proof.Machine
end

