-- ==== Sys2Proof/Machine/Control.lean ====
section
/-! DEFINITION. The control commands NOP and RESET (44_control.md). -/

namespace Sys2Proof.Machine

/-- NOP: STATUS only (44_control.md R300). -/
def execNop (s : State) : Host.Outcome State Fault Refusal := complete s

/-- RESET: every state element takes its reset value, then STATUS is OK (44_control.md R301). -/
def execReset (s : State) : Host.Outcome State Fault Refusal := complete s.powerOn

end Sys2Proof.Machine
end

