-- ==== Sys2Proof/Machine/Framing.lean ====
section
/-! DEFINITION. The synchronizer and the header decoder as functions of the state: the shared
`find_frame_length` and `parse_frame` (40_framer.md R150 to R158). They read the configuration, the
stream, PREV_FL and PREV_FL_VALID, and write nothing. -/

namespace Sys2Proof.Machine

/-- The least place from `p` on at which the pattern occurs, `p` being the place of the first byte of
`bytes` (40_framer.md R152, `occurs`). -/
def findFrom (pattern : List Byte) : List Byte → Nat → Option Nat
  | [], p => if pattern.isPrefixOf [] then some p else none
  | b :: rest, p =>
    if pattern.isPrefixOf (b :: rest) then some p else findFrom pattern rest (p + 1)

/-- The places of the first two occurrences that do not overlap (40_framer.md R152, `p1`, `p2`). -/
def markerPair (pattern chunk : List Byte) (len : Nat) : Option Nat × Option Nat :=
  match findFrom pattern chunk 0 with
  | none => (none, none)
  | some p1 => (some p1, findFrom pattern (chunk.drop (p1 + len)) (p1 + len))

/-- The branch REUSE_PREV of `find_frame_length` (40_framer.md R152). -/
def reusePrev (s : State) (pos : Nat) : Except Stop Nat :=
  if s.cfg.lastFramePolicy = .reusePrev ∧ s.prevFlValid = true ∧
      pos + s.prevFl.toNat ≤ s.streamLen then .ok s.prevFl.toNat
  else .error (.code .framingError)

/-- `find_frame_length(lay, pos)`, FAIL being FRAMING_ERROR (40_framer.md R151, R152). -/
def findFrameLength (s : State) (lay : Layout) (pos : Nat) : Except Stop Nat :=
  let n := min (lookahead s.cfg lay) (s.streamLen - pos)
  match memRead s.stream pos n with
  | none => .error (.fault .readOutsideStream)
  | some chunk =>
    match markerPair (marker s.cfg lay) chunk (markerLen lay) with
    | (some p1, some p2) => .ok (p2 - p1)
    | (some _, none) => reusePrev s pos
    | (none, _) => .error (.code .framingError)

/-- `timestamp(lay, ticks)` in seconds (40_framer.md R157). -/
def timestamp (c : Config) (lay : Layout) (ticks : Word) : F64 :=
  match lay with
  | .a => fmul (toF64 ticks.toNat) c.scaleA
  | .b => fdiv (toF64 ticks.toNat) (toF64 133000000)

/-- The header fields of a Layout A header (30_encoding.md R102). -/
def headerA (c : Config) (h : List Byte) : Header :=
  .a (hfield c (slice h 0 c.wEvA)) (hfield c (slice h c.wEvA c.wTrA))
    (hfield c (slice h (c.wEvA + c.wTrA) 8))

/-- The header fields of a Layout B header (30_encoding.md R106). -/
def headerB (c : Config) (h : List Byte) : Header :=
  .b (slice h 0 2) (hfield c (slice h 2 c.wPps)) (hfield c (slice h (o10M c) c.w10M))
    (hfield c (slice h (oEvB c) c.wEvB)) (hfield c (slice h (oTrB c) c.wTrB))
    (hfield c (slice h (o133 c) c.w133))

/-- The header fields by layout. -/
def headerOf (c : Config) (lay : Layout) (h : List Byte) : Header :=
  match lay with
  | .a => headerA c h
  | .b => headerB c h

/-- The timestamp counter: `clock` for A, `c133` for B (10_state.md R31, `FB.ticks`). -/
def headerTicks : Header → Word
  | .a _ _ clock => clock
  | .b _ _ _ _ _ c133 => c133

/-- The offset of the stop-cell block in the header (30_encoding.md R102, R106). -/
def stopOffset (c : Config) : Layout → Nat
  | .a => c.wEvA + c.wTrA + 8
  | .b => moffB c + 8

/-- The stop-cell block (30_encoding.md R111). -/
def stopCells (c : Config) (lay : Layout) (h : List Byte) : List Nat :=
  (List.range c.nSc).map fun k =>
    (hfield c (slice h (stopOffset c lay + k * c.scW) c.scW)).toNat

/-- The sample of (ch, g, i) of the frame at `pos` (30_encoding.md R117, R118; 40_framer.md R156). -/
def sampleAt (s : State) (lay : Layout) (pos len : Nat) (ch g i : Nat) : Except Stop Sample :=
  match deintAt s.cfg ch g i len with
  | none => .error (.fault .readOutsideStream)
  | some w =>
    match memRead s.stream (pos + hdrLen s.cfg lay + 2 * w) 2 with
    | some [b0, b1] => .ok (sample16 b0 b1)
    | _ => .error (.fault .readOutsideStream)

/-- The samples of the frame at `pos`, one row per (ch, g) (40_framer.md R156). -/
def frameSamples (s : State) (lay : Layout) (pos len : Nat) : Except Stop (List (List Sample)) :=
  forEach (fun (ch, g) => forEach (sampleAt s lay pos len ch g) (List.range len)) (lanes s.cfg)

/-- Whether the fixed bytes of the header stand where the layout has them: the magic of Layout B and
the marker (40_framer.md R156, 30_encoding.md R103, R107, R108). -/
def fixedBytesOk (c : Config) (lay : Layout) (h : List Byte) : Bool :=
  (match lay with
    | .a => true
    | .b => slice h 0 2 == c.magicB) &&
  slice h (markerOffset c lay) (markerLen lay) == marker c lay

/-- The capture length of a frame of length `fl`, if the division is exact and the result in range
(30_encoding.md R116, 40_framer.md R156). -/
def captureLength (c : Config) (lay : Layout) (fl : Nat) : Option Nat :=
  if fl < hdrLen c lay ∨ (fl - hdrLen c lay) % sampleStride c ≠ 0 then none
  else
    let len := (fl - hdrLen c lay) / sampleStride c
    if len < 1 ∨ c.maxCapture < len then none else some len

/-- The frame record of a header whose checks have passed (40_framer.md R156, R157). -/
def frameRecord (s : State) (lay : Layout) (pos fl len : Nat) (h : List Byte) :
    Except Stop FrameBody :=
  match frameSamples s lay pos len with
  | .error e => .error e
  | .ok samples =>
    let hdr := headerOf s.cfg lay h
    .ok
      { layout := lay
        hdr := hdr
        ticks := headerTicks hdr
        t := timestamp s.cfg lay (headerTicks hdr)
        stop := stopCells s.cfg lay h
        len := len
        fl := BitVec.ofNat 64 fl
        samples := samples }

/-- `parse_frame(lay, pos)`, its checks in the rule's order (40_framer.md R156). -/
def parseFrame (s : State) (lay : Layout) (pos : Nat) : Except Stop FrameBody :=
  if s.streamLen - pos < hdrLen s.cfg lay then .error (.code .endOfStream)
  else
    match findFrameLength s lay pos with
    | .error e => .error e
    | .ok fl =>
      match memRead s.stream pos (hdrLen s.cfg lay) with
      | none => .error (.fault .readOutsideStream)
      | some h =>
        if fixedBytesOk s.cfg lay h then
          match captureLength s.cfg lay fl with
          | none => .error (.code .headerFormatError)
          | some len =>
            if (stopCells s.cfg lay h).all cellOk then frameRecord s lay pos fl len h
            else .error (.code .headerFormatError)
        else .error (.code .headerFormatError)

end Sys2Proof.Machine
end

