-- ==== Sys2Proof/Machine/Framer.lean ====
section
/-! DEFINITION. The framer commands SETLAYOUT, PROBE, SYNC, DECODE and SEEK (40_framer.md). -/

namespace Sys2Proof.Machine

/-- `LAYOUT <- A` (40_framer.md R154). -/
def selectLayout (lay : Layout) (s : State) : Host.Outcome State Fault Refusal :=
  complete (s.withLayout (some lay))

/-- SETLAYOUT with A = 1 (40_framer.md R154). -/
def execSetlayoutA (s : State) : Host.Outcome State Fault Refusal := selectLayout .a s

/-- SETLAYOUT with A = 2 (40_framer.md R154). -/
def execSetlayoutB (s : State) : Host.Outcome State Fault Refusal := selectLayout .b s

/-- A layout PROBE accepts: LAYOUT and RES take its code (40_framer.md R165). -/
def probed (lay : Layout) (s : State) : State :=
  (s.withLayout (some lay)).withRes (BitVec.ofNat 64 (layoutCode (some lay)))

/-- PROBE: Layout A first, then Layout B, whose code is reported when both fail
(40_framer.md R165). -/
def execProbe (s : State) : Host.Outcome State Fault Refusal :=
  if s.fatal then raise .headerFormatError s
  else
    match parseFrame s .a s.pos.toNat with
    | .ok _ => complete (probed .a s)
    | .error (.fault f) => .fault f
    | .error (.code _) =>
      match parseFrame s .b s.pos.toNat with
      | .ok _ => complete (probed .b s)
      | .error e => finish s (.error e)

/-- SYNC (40_framer.md R155). -/
def execSync (s : State) : Host.Outcome State Fault Refusal :=
  match s.layout with
  | none => raise .sequenceError s
  | some lay =>
    if s.fatal then raise .headerFormatError s
    else
      match findFrameLength s lay s.pos.toNat with
      | .ok fl => complete (s.withRes (BitVec.ofNat 64 fl))
      | .error e => finish s (.error e)

/-- The commit of a successful DECODE with frame record `r` (40_framer.md R160). -/
def commitFrame (s : State) (r : FrameBody) : State :=
  ((((s.withFrame ⟨s.fseq + 1, r⟩).withPos (s.pos + r.fl)).withPrevFl r.fl).withRes r.fl)

/-- DECODE (40_framer.md R159); a header error sets FATAL, which the raise keeps. -/
def execDecode (s : State) : Host.Outcome State Fault Refusal :=
  match s.layout with
  | none => raise .sequenceError s
  | some lay =>
    if s.fatal then raise .headerFormatError s
    else
      match parseFrame s lay s.pos.toNat with
      | .ok r => complete (commitFrame s r)
      | .error (.code .headerFormatError) => raise .headerFormatError (s.withFatal true)
      | .error e => finish s (.error e)

/-- SEEK (40_framer.md R170, R171). -/
def execSeek (p : BitVec 48) (s : State) : Host.Outcome State Fault Refusal :=
  if s.streamLen < (seekTarget p).toNat then raise .addressRangeError s
  else if seekTarget p = s.pos then complete s
  else complete ((s.withTrk .invalidatedOnce).withPos (seekTarget p))

end Sys2Proof.Machine
end

