-- ==== Sys2Proof/Machine/Dispatch.lean ====
section
/-! DEFINITION. The meaning of every command, one arm per constructor of Instr. -/

namespace Sys2Proof.Machine

def exec (i : Instr) (s : State) : Host.Outcome State Fault Refusal :=
  match i with
  | .nop => Sys2Proof.Machine.execNop s
  | .reset => Sys2Proof.Machine.execReset s
  | .setlayoutA => Sys2Proof.Machine.execSetlayoutA s
  | .setlayoutB => Sys2Proof.Machine.execSetlayoutB s
  | .probe => Sys2Proof.Machine.execProbe s
  | .sync => Sys2Proof.Machine.execSync s
  | .decode => Sys2Proof.Machine.execDecode s
  | .seek p => Sys2Proof.Machine.execSeek p s
  | .c2s cell stopCell => Sys2Proof.Machine.execC2s cell stopCell s
  | .s2c sampleIndex stopCell => Sys2Proof.Machine.execS2c sampleIndex stopCell s
  | .inwin cell stopCell captureLength => Sys2Proof.Machine.execInwin cell stopCell captureLength s
  | .observe => Sys2Proof.Machine.execObserve s
  | .invalidate => Sys2Proof.Machine.execInvalidate s
  | .calcfg mask => Sys2Proof.Machine.execCalcfg mask s
  | .apply => Sys2Proof.Machine.execApply s

end Sys2Proof.Machine
end

