-- ==== Sys2Proof/Machine/HostPort.lean ====
section
/-! DEFINITION. The host's ports other than the command port (20_memory.md R80): the stream, the
constant tables, the register and buffer read ports, and reset. -/

namespace Sys2Proof.Machine

/-- Supply the stream: once a session, before the first command that reads it, shorter than 2^64
bytes, and not ending before POS (20_memory.md R61, 10_state.md R24, 70_reset_and_hazards.md R368;
log 14). -/
def supplyStream (bytes : List Byte) (s : State) : Host.Outcome State Fault Refusal :=
  if s.streamFixed = false ∧ bytes.length < 2 ^ 64 ∧ s.pos.toNat ≤ bytes.length then
    .next (s.withStream (Memory.ofBytes bytes))
  else .refused .streamFixed

/-- `CTWrite(key, v)` with `some v`, `CTClear(key)` with `none` (20_memory.md R66); a key that is none
of R251 is no entry (log 15). -/
def writeConstant (key : CalKey) (v : Option F64) (s : State) : Host.Outcome State Fault Refusal :=
  if calKeyOk s.cfg key then .next (s.withCt (storeWrite s.cfg s.ct key v))
  else .refused (.noSuchKey key)

/-- Read a register (10_state.md R38). -/
def hostReadRegister (n : Nat) (s : State) : Host.Outcome State Fault Refusal :=
  match readRegister s n with
  | some w => .next (s.withReply (.word w))
  | none => .refused (.reservedRegister n)

/-- A row element as the host sees it: refused out of range (10_state.md R39). -/
def elementValue {α : Type} (wrap : α → HostValue) : Option α → Except Refusal HostValue
  | some x => .ok (wrap x)
  | none => .error .indexOutOfRange

/-- A field of a frame on the buffer read port (10_state.md R31, R34). -/
def frameField (f : Frame) : FrameField → Except Refusal HostValue
  | .seq => .ok (.word f.seq)
  | .layout => .ok (.layout f.body.layout)
  | .hdr => .ok (.header f.body.hdr)
  | .ticks => .ok (.word f.body.ticks)
  | .t => .ok (.real f.body.t)
  | .stop k => elementValue .index f.body.stop[k]?
  | .len => .ok (.index f.body.len)
  | .fl => .ok (.word f.body.fl)
  | .sample ch g i =>
    if g < nGain then elementValue .sample (rowElem f.body.samples ch g i)
    else .error .indexOutOfRange

/-- A buffer that is valid (10_state.md R39). -/
def validBuffer {α : Type} : Option α → Except Refusal α
  | some b => .ok b
  | none => .error .bufferNotValid

/-- What the buffer read port answers (10_state.md R39). -/
def readBuffer (s : State) : BufferRef → Except Refusal HostValue
  | .fb f => (validBuffer s.fb).bind (frameField · f)
  | .cb f => (validBuffer s.cb).bind (frameField · f)
  | .ebSeq => (validBuffer s.eb).bind fun e => .ok (.word e.seq)
  | .ebLen => (validBuffer s.eb).bind fun e => .ok (.index e.len)
  | .ebElem ch g i => (validBuffer s.eb).bind fun e =>
      if g < nGain then elementValue .real (rowElem e.dt ch g i) else .error .indexOutOfRange

/-- Read a buffer (10_state.md R39). -/
def hostReadBuffer (ref : BufferRef) (s : State) : Host.Outcome State Fault Refusal :=
  match readBuffer s ref with
  | .ok v => .next (s.withReply v)
  | .error r => .refused r

/-- Power-on reset (70_reset_and_hazards.md R361). -/
def hostReset (s : State) : Host.Outcome State Fault Refusal := .next s.powerOn

end Sys2Proof.Machine
end

