-- ==== Sys2Proof/Machine/Issue.lean ====
section
/-! DEFINITION. One interaction of the host taken to its end (20_memory.md R69, R80): the command
port, which decodes a word and runs it, and the other ports. -/

namespace Sys2Proof.Machine

/-- Whether a command reads the stream, which fixes it for the session (20_memory.md R61). -/
def readsStream : Instr → Bool
  | .probe | .sync | .decode => true
  | .nop | .reset | .setlayoutA | .setlayoutB | .seek _ => false
  | .c2s _ _ | .s2c _ _ | .inwin _ _ _ => false
  | .observe | .invalidate | .calcfg _ | .apply => false

/-- Issue a legal command: the stream is fixed if the command reads it (log 14), and the command
runs. -/
def issueInstr (i : Instr) (s : State) : Host.Outcome State Fault Refusal :=
  exec i (s.fixStream (readsStream i))

/-- Issue a word: an illegal one raises ILLEGAL_COMMAND with no other effect, before every other
check (30_encoding.md R133, 60_exceptions.md R328, R329). -/
def issueWord (w : Word) (s : State) : Host.Outcome State Fault Refusal :=
  match decode w with
  | .ok i => issueInstr i s
  | .error _ => raise .illegalCommand s

/-- One interaction (20_memory.md R80). -/
def hostEvent (e : HostEvent) (s : State) : Host.Outcome State Fault Refusal :=
  match e with
  | .command w => issueWord w s
  | .commandIfOk w => if s.status = codeBits .ok then issueWord w s else .next s
  | .supply bytes => supplyStream bytes s
  | .ctWrite key v => writeConstant key (some v) s
  | .ctClear key => writeConstant key none s
  | .readReg n => hostReadRegister n s
  | .readBuf ref => hostReadBuffer ref s
  | .reset => hostReset s

/-- The host's next interaction, taken off the port; with none pending the block is idle and keeps
all state (60_exceptions.md R341). -/
def takeEvent (s : State) : Host.Outcome State Fault Refusal :=
  match s.port with
  | [] => .next s
  | e :: rest => hostEvent e (s.withPort rest)

/-- The command word given as its bits, bit 0 the least significant, the bits above `nbits` 0
(30_encoding.md R130: a command is one 64-bit word). -/
def wordOfBits (nbits w : Nat) : Word := BitVec.ofNat 64 (w % 2 ^ nbits)

/-- The state in which the host's next interaction is to issue that word. -/
def State.issueNext (s : State) (w : Word) : State := s.withPort (.command w :: s.port)

end Sys2Proof.Machine
end

