-- ==== Sys2Proof/Machine/Step.lean ====
section
/-! DEFINITION. One step of the machine: one interaction of the host with the block, atomic
(20_memory.md R69). Commands are never fetched from a memory (20_memory.md R60): they arrive on the
command port, the list `port` of State (log 3). -/

namespace Sys2Proof.Machine

/-- One step (00_scope.md R5, 20_memory.md R69, R73). -/
def step (s : State) : Host.Outcome State Fault Refusal := takeEvent s

/-- The state whose next step issues the word: it stands for the host issuing that command (log 3). -/
def State.withFetchWord (s : State) (nbits w : Nat) : State := s.issueNext (wordOfBits nbits w)

end Sys2Proof.Machine
end

