-- ==== Sys2Proof/Machine/Assembler.lean ====
section
/-! DEFINITION. The assembler of 30_encoding.md R140 and R141: one line of text to the host's
interactions it stands for. The host writes such a line; the block never sees it (log 21). -/

namespace Sys2Proof.Machine

/-- Why an assembler refuses a line (30_encoding.md R140). -/
inductive AsmError where
  /-- No command or pseudo-instruction has this mnemonic with this number of operands. -/
  | unknownCommand
  /-- An operand is no decimal or hexadecimal integer. -/
  | notANumber
  /-- An operand does not fit its field, and is refused rather than truncated. -/
  | operandTooWide
deriving DecidableEq, Repr

/-- The line without its comment (30_encoding.md R140). -/
def asmCode (line : List Char) : List Char := line.takeWhile (· ≠ ';')

/-- A blank between the parts of a line. -/
def isBlank (c : Char) : Bool := c == ' ' || c == '\t'

/-- A text without the blanks around it. -/
def trimBlanks (text : List Char) : List Char :=
  ((text.dropWhile isBlank).reverse.dropWhile isBlank).reverse

/-- The parts of a text between its commas (30_encoding.md R140). -/
def splitCommas : List Char → List (List Char)
  | [] => [[]]
  | c :: cs =>
    match splitCommas cs with
    | [] => [[c]]
    | w :: ws => if c = ',' then [] :: w :: ws else (c :: w) :: ws

/-- The mnemonic of a line without comment: its first word. -/
def asmMnemonic (code : List Char) : String :=
  String.ofList ((trimBlanks code).takeWhile fun c => !isBlank c)

/-- The operands of a line without comment: what follows the mnemonic, parted by commas
(30_encoding.md R140). -/
def asmOperands (code : List Char) : List (List Char) :=
  match trimBlanks ((trimBlanks code).dropWhile fun c => !isBlank c) with
  | [] => []
  | rest => (splitCommas rest).map trimBlanks

/-- The value of a digit in a base up to 16. -/
def digitValue (base : Nat) (c : Char) : Option Nat :=
  let v :=
    if '0' ≤ c ∧ c ≤ '9' then c.toNat - '0'.toNat
    else if 'a' ≤ c ∧ c ≤ 'f' then c.toNat - 'a'.toNat + 10
    else if 'A' ≤ c ∧ c ≤ 'F' then c.toNat - 'A'.toNat + 10
    else base
  if v < base then some v else none

/-- The digits of a number, most significant first, after the value `acc`. -/
def digitsValue (base : Nat) : List Char → Nat → Option Nat
  | [], acc => some acc
  | c :: cs, acc =>
    match digitValue base c with
    | some v => digitsValue base cs (acc * base + v)
    | none => none

/-- A decimal or `0x` hexadecimal integer (30_encoding.md R140). -/
def asmNumber : List Char → Except AsmError Nat
  | '0' :: 'x' :: c :: cs =>
    match digitsValue 16 (c :: cs) 0 with
    | some n => .ok n
    | none => .error .notANumber
  | [] => .error .notANumber
  | cs =>
    match digitsValue 10 cs 0 with
    | some n => .ok n
    | none => .error .notANumber

/-- An operand that must fit a field of `width` bits (30_encoding.md R140). -/
def asmOperand (width : Nat) (text : List Char) : Except AsmError (BitVec width) :=
  match asmNumber text with
  | .ok n => if n < 2 ^ width then .ok (BitVec.ofNat width n) else .error .operandTooWide
  | .error e => .error e

/-- The host's interaction that issues a command. -/
def asmIssue (i : Instr) : List HostEvent := [.command (encode i)]

/-- A command with two 16-bit operands. -/
def asmTwo (make : Field → Field → Instr) (x y : List Char) : Except AsmError (List HostEvent) :=
  match asmOperand 16 x, asmOperand 16 y with
  | .ok a, .ok b => .ok (asmIssue (make a b))
  | .error e, _ => .error e
  | _, .error e => .error e

/-- A command or pseudo-instruction without operands (30_encoding.md R140, R141). `next` stops at the
first command that does not report OK. -/
def asmPlain (mnemonic : String) : Except AsmError (List HostEvent) :=
  match mnemonic with
  | "nop" => .ok (asmIssue .nop)
  | "reset" => .ok (asmIssue .reset)
  | "probe" => .ok (asmIssue .probe)
  | "sync" => .ok (asmIssue .sync)
  | "decode" => .ok (asmIssue .decode)
  | "observe" => .ok (asmIssue .observe)
  | "invalidate" => .ok (asmIssue .invalidate)
  | "apply" => .ok (asmIssue .apply)
  | "next" =>
    .ok [.command (encode .decode), .commandIfOk (encode .observe), .commandIfOk (encode .apply)]
  | "rewind" => .ok (asmIssue (.seek 0))
  | _ => .error .unknownCommand

/-- A command with one operand (30_encoding.md R140, R141). -/
def asmOne (mnemonic : String) (x : List Char) : Except AsmError (List HostEvent) :=
  match mnemonic with
  | "setlayout" =>
    match x with
    | ['A'] => .ok (asmIssue .setlayoutA)
    | ['B'] => .ok (asmIssue .setlayoutB)
    | _ => .error .unknownCommand
  | "seek" =>
    match asmOperand 48 x with
    | .ok p => .ok (asmIssue (.seek p))
    | .error e => .error e
  | "calcfg" =>
    match x with
    | ['n', 'o', 'n', 'e'] => .ok (asmIssue (.calcfg 0))
    | ['a', 'l', 'l'] => .ok (asmIssue (.calcfg 15))
    | _ =>
      match asmOperand 16 x with
      | .ok m => .ok (asmIssue (.calcfg m))
      | .error e => .error e
  | _ => .error .unknownCommand

/-- A line as the host's interactions (30_encoding.md R140, R141). An empty line issues nothing. -/
def assembleLine (line : List Char) : Except AsmError (List HostEvent) :=
  let mnemonic := asmMnemonic (asmCode line)
  match asmOperands (asmCode line) with
  | [] => if mnemonic = "" then .ok [] else asmPlain mnemonic
  | [x] => asmOne mnemonic x
  | [x, y] =>
    match mnemonic with
    | "c2s" => asmTwo .c2s x y
    | "s2c" => asmTwo .s2c x y
    | _ => .error .unknownCommand
  | [x, y, z] =>
    match mnemonic with
    | "inwin" =>
      match asmOperand 16 z with
      | .ok c => asmTwo (fun a b => .inwin a b c) x y
      | .error e => .error e
    | _ => .error .unknownCommand
  | _ => .error .unknownCommand

/-- A program, one command a line (30_encoding.md R140). -/
def assemble : List (List Char) → Except AsmError (List HostEvent)
  | [] => .ok []
  | line :: lines =>
    match assembleLine line with
    | .error e => .error e
    | .ok es =>
      match assemble lines with
      | .error e => .error e
      | .ok rest => .ok (es ++ rest)

end Sys2Proof.Machine
end

