-- ==== Sys2Proof/Safety.lean ====
section
/-! DEFINITION. What a good state is (the invariant of the machine), what can be observed of a run
(70_reset_and_hazards.md R373), and which states a run reaches. -/

namespace Sys2Proof.Machine

/-- The stream is in canonical form and shorter than 2^64 bytes, and `POS ≤ STREAM_LEN`
(00_scope.md section 3, 10_state.md R24). -/
def StreamOk (s : State) : Prop :=
  s.stream.wf = true ∧ s.streamLen < 2 ^ 64 ∧ s.pos.toNat ≤ s.streamLen

/-- STATUS holds one of the codes 0 to 8 (60_exceptions.md R320). -/
def StatusOk (s : State) : Prop := s.status.toNat ≤ 8

/-- A frame has the shape 10_state.md R31 gives it: its capture length is in [1, MAX_CAPTURE], its
stop cells are `N_SC` numbers below 4096, its samples one row of `L` per (ch, g), its length in bytes
that of its header and samples (30_encoding.md R116), and its time that of its ticks
(40_framer.md R157). -/
structure FrameOk (c : Config) (f : FrameBody) : Prop where
  len_pos : 1 ≤ f.len
  len_le : f.len ≤ c.maxCapture
  stop_count : f.stop.length = c.nSc
  stop_lt : ∀ x ∈ f.stop, x < totalCap
  row_count : f.samples.length = nGain * c.nCh
  row_length : ∀ row ∈ f.samples, row.length = f.len
  fl_eq : f.fl.toNat = hdrLen c f.layout + sampleStride c * f.len
  ticks_eq : f.ticks = headerTicks f.hdr
  time_eq : f.t = timestamp c f.layout f.ticks

/-- Elapsed times have the shape 10_state.md R33 gives them. -/
structure ElapsedOk (c : Config) (e : Elapsed) : Prop where
  len_pos : 1 ≤ e.len
  len_le : e.len ≤ c.maxCapture
  row_count : e.dt.length = nGain * c.nCh
  row_length : ∀ row ∈ e.dt, row.length = e.len

/-- A table in canonical form with nothing but the base value at keys from `n` on (log 9). -/
def TableOk {V : Type} [DecidableEq V] (d : V) (n : Nat) (t : Runs V) : Prop :=
  runsWf d 0 t = true ∧ ∀ k, n ≤ k → runsRead d t k = d

/-- The six tables of a store are in canonical form and hold only keys of 43_calibration.md R251. -/
structure StoreOk (c : Config) (st : CalStore) : Prop where
  off : TableOk none (cellCount c) st.off
  pa : TableOk none (cellCount c) st.pa
  pb : TableOk none (cellCount c) st.pb
  pc : TableOk none (cellCount c) st.pc
  grid : TableOk none (gridCount c) st.grid
  pat : TableOk none (patCount c) st.pat

/-- An enabled stage has all its constants in ACS, and ACS holds nothing else (10_state.md R36,
43_calibration.md R253). -/
def PipelineOk (s : State) : Prop :=
  (∀ k, 1 ≤ k → k ≤ 4 → stageBit s.stageEn k = true → stageFull s.cfg s.acs k = true) ∧
    restrictStore s.acs s.stageEn = s.acs

/-- FB carries the number of the last DECODE and its length is PREV_FL; EB and CB were made from FB
or an earlier frame (10_state.md R27, R28, R33, R34). -/
structure TagsOk (s : State) : Prop where
  none_fb : s.fb = none → s.fseq = 0 ∧ s.eb = none ∧ s.cb = none
  fb_seq : ∀ f, s.fb = some f → f.seq = s.fseq
  prev_valid : s.prevFlValid = s.fb.isSome
  prev_fl : ∀ f, s.fb = some f → s.prevFl = f.body.fl
  eb_old : ∀ e, s.eb = some e → e.seq.toNat ≤ s.fseq.toNat
  cb_old : ∀ f, s.cb = some f → f.seq.toNat ≤ s.fseq.toNat
  eb_len : ∀ f e, s.fb = some f → s.eb = some e → e.seq = f.seq → e.len = f.body.len
  cb_len : ∀ f g, s.fb = some f → s.cb = some g → g.seq = f.seq →
    g.body = { f.body with samples := g.body.samples }

/-- The invariant of the machine: a legal configuration and, of the block's state, everything the
spec says always holds. FATAL is set only by a DECODE, which runs under a layout, and only RESET takes
the layout away, clearing FATAL with it (10_state.md R25, R26). -/
structure State.Good (s : State) : Prop where
  config : configOk s.cfg = true
  stream : StreamOk s
  status : StatusOk s
  fatal_layout : s.fatal = true → s.layout ≠ none
  ring : TableOk .nan (cellCount s.cfg) s.rb
  constants : StoreOk s.cfg s.ct
  active : StoreOk s.cfg s.acs
  pipeline : PipelineOk s
  frame : ∀ f, s.fb = some f → FrameOk s.cfg f.body
  elapsed : ∀ e, s.eb = some e → ElapsedOk s.cfg e
  corrected : ∀ f, s.cb = some f → FrameOk s.cfg f.body
  tags : TagsOk s

/-- The frame counter is not at its last value, so the next DECODE gives a frame a number no buffer
has (10_state.md R28; log 11). -/
def CounterRoom (s : State) : Prop := s.fseq.toNat + 1 < 2 ^ 64

/-- What the host can observe of the block: the registers of 10_state.md R38 and the buffers of R39.
RB, ACS and CT are not readable. -/
structure Observation where
  registers : List (Option Word)
  fb : Option Frame
  eb : Option Elapsed
  cb : Option Frame
deriving DecidableEq, Repr

/-- The observation of a state at the end of a run (70_reset_and_hazards.md R373). -/
def observation (s : State) : Observation where
  registers := (List.range 7).map (readRegister s)
  fb := s.fb
  eb := s.eb
  cb := s.cb

/-- The states a run from `s` reaches (70_reset_and_hazards.md R373: a finite sequence of
interactions). -/
inductive Reaches (s : State) : State → Prop where
  | start : Reaches s s
  | step {t u : State} (h : Reaches s t) (hs : Sys2Proof.Machine.step t = .next u) : Reaches s u

end Sys2Proof.Machine
end

