-- ==== Sys2Proof/Certificates/Slice0/Obligations.lean ====
section
/-! DEFINITION. The statements for the provers. Where a rule of the spec is a computation, the
statement says it again in terms of single stream bytes (`readByte`), single table entries
(`rbRead`, `storeRead`) and single elements, not through the functions the meanings call. -/

namespace Sys2Proof.Claims

open Sys2Proof.Machine

/-! ### Command words -/

/-- A row of the match and mask table (30_encoding.md R134). `layoutOperand` is the extra constraint
of SETLAYOUT, `A[1:0]` is 1 or 2. -/
structure Row where
  name : String
  pattern : Word
  mask : Word
  layoutOperand : Bool

/-- The table of 30_encoding.md R134, row by row. -/
def rows : List Row :=
  [⟨"NOP", 0x0000000000000000, 0xFFFFFFFFFFFFFFFF, false⟩,
   ⟨"RESET", 0x0100000000000000, 0xFFFFFFFFFFFFFFFF, false⟩,
   ⟨"SETLAYOUT", 0x1000000000000000, 0xFFFFFCFFFFFFFFFF, true⟩,
   ⟨"PROBE", 0x1100000000000000, 0xFFFFFFFFFFFFFFFF, false⟩,
   ⟨"SYNC", 0x1200000000000000, 0xFFFFFFFFFFFFFFFF, false⟩,
   ⟨"DECODE", 0x1300000000000000, 0xFFFFFFFFFFFFFFFF, false⟩,
   ⟨"SEEK", 0x1400000000000000, 0xFF000000000000FF, false⟩,
   ⟨"C2S", 0x2000000000000000, 0xFF00000000FFFFFF, false⟩,
   ⟨"S2C", 0x2100000000000000, 0xFF00000000FFFFFF, false⟩,
   ⟨"INWIN", 0x2200000000000000, 0xFF000000000000FF, false⟩,
   ⟨"OBSERVE", 0x3000000000000000, 0xFFFFFFFFFFFFFFFF, false⟩,
   ⟨"INVALIDATE", 0x3100000000000000, 0xFFFFFFFFFFFFFFFF, false⟩,
   ⟨"CALCFG", 0x4000000000000000, 0xFFFFF0FFFFFFFFFF, false⟩,
   ⟨"APPLY", 0x4100000000000000, 0xFFFFFFFFFFFFFFFF, false⟩]

/-- A word is the command of a row (30_encoding.md R134). -/
def Row.Covers (r : Row) (w : Word) : Prop :=
  w &&& r.mask = r.pattern ∧
    (r.layoutOperand = true → w.toNat / 2 ^ 40 % 4 = 1 ∨ w.toNat / 2 ^ 40 % 4 = 2)

/-- The mnemonic of a command (30_encoding.md R132). -/
def mnemonic : Instr → String
  | .nop => "NOP"
  | .reset => "RESET"
  | .setlayoutA | .setlayoutB => "SETLAYOUT"
  | .probe => "PROBE"
  | .sync => "SYNC"
  | .decode => "DECODE"
  | .seek _ => "SEEK"
  | .c2s _ _ => "C2S"
  | .s2c _ _ => "S2C"
  | .inwin _ _ _ => "INWIN"
  | .observe => "OBSERVE"
  | .invalidate => "INVALIDATE"
  | .calcfg _ => "CALCFG"
  | .apply => "APPLY"

/-- The operands of a command as integers, in the order A, B, C, or P alone (30_encoding.md R131). -/
def operands : Instr → List Nat
  | .setlayoutA => [1]
  | .setlayoutB => [2]
  | .seek p => [p.toNat]
  | .c2s a b => [a.toNat, b.toNat]
  | .s2c a b => [a.toNat, b.toNat]
  | .inwin a b c => [a.toNat, b.toNat, c.toNat]
  | .calcfg m => [m.toNat]
  | .nop | .reset | .probe | .sync | .decode | .observe | .invalidate | .apply => []

/-- The field of a word that starts at bit `lo` and has `n` bits, as an integer (00_scope.md
section 4, bit numbering). -/
def bitsAt (w : Word) (lo n : Nat) : Nat := w.toNat / 2 ^ lo % 2 ^ n

/-- The operands a word carries for a mnemonic: A is [55:40], B is [39:24], C is [23:8], P is [55:8]
(30_encoding.md R130, R132). -/
def operandBits (name : String) (w : Word) : List Nat :=
  match name with
  | "SETLAYOUT" => [bitsAt w 40 16]
  | "SEEK" => [bitsAt w 8 48]
  | "C2S" => [bitsAt w 40 16, bitsAt w 24 16]
  | "S2C" => [bitsAt w 40 16, bitsAt w 24 16]
  | "INWIN" => [bitsAt w 40 16, bitsAt w 24 16, bitsAt w 8 16]
  | "CALCFG" => [bitsAt w 40 16]
  | _ => []

/-- What makes a word illegal, clause by clause (30_encoding.md R133, with the fields each opcode
uses from R132). -/
def Illegal (w : Word) : Prop :=
  bitsAt w 56 8 ∉ [0x00, 0x01, 0x10, 0x11, 0x12, 0x13, 0x14, 0x20, 0x21, 0x22, 0x30, 0x31, 0x40, 0x41] ∨
  bitsAt w 0 8 ≠ 0 ∨
  (bitsAt w 56 8 ∈ [0x00, 0x01, 0x11, 0x12, 0x13, 0x30, 0x31, 0x41] ∧ bitsAt w 40 16 ≠ 0) ∨
  (bitsAt w 56 8 ∈ [0x00, 0x01, 0x10, 0x11, 0x12, 0x13, 0x30, 0x31, 0x40, 0x41] ∧
    bitsAt w 24 16 ≠ 0) ∨
  (bitsAt w 56 8 ∈ [0x00, 0x01, 0x10, 0x11, 0x12, 0x13, 0x20, 0x21, 0x30, 0x31, 0x40, 0x41] ∧
    bitsAt w 8 16 ≠ 0) ∨
  (bitsAt w 56 8 = 0x10 ∧ bitsAt w 40 16 ∉ [1, 2]) ∨
  (bitsAt w 56 8 = 0x40 ∧ bitsAt w 40 16 / 16 ≠ 0)

/-! ### The stream -/

/-- The length `n` of the lookahead chunk at `pos` (40_framer.md R151, 00_scope.md R9). -/
def chunkLen (s : State) (lay : Layout) (pos : Nat) : Nat :=
  min (3 * (hdrLen s.cfg lay + 2 * 2 * s.cfg.nCh * s.cfg.maxCapture) / 2) (s.streamLen - pos)

/-- `occurs(p)` for the chunk at `pos` (40_framer.md R152). -/
abbrev Occurs (s : State) (lay : Layout) (pos p : Nat) : Prop :=
  p + markerLen lay ≤ chunkLen s lay pos ∧
    ∀ j < markerLen lay, readByte s.stream (pos + p + j) = (marker s.cfg lay)[j]?

/-- `p1` of the chunk at `pos` (40_framer.md R152). -/
abbrev FirstMarker (s : State) (lay : Layout) (pos p1 : Nat) : Prop :=
  Occurs s lay pos p1 ∧ ∀ q < p1, ¬ Occurs s lay pos q

/-- `p2` of the chunk at `pos` (40_framer.md R152). -/
abbrev SecondMarker (s : State) (lay : Layout) (pos p1 p2 : Nat) : Prop :=
  p1 + markerLen lay ≤ p2 ∧ Occurs s lay pos p2 ∧
    ∀ q < p2, p1 + markerLen lay ≤ q → ¬ Occurs s lay pos q

/-- `find_frame_length(lay, pos)` returns `fl` (40_framer.md R152). -/
def FrameLengthIs (s : State) (lay : Layout) (pos fl : Nat) : Prop :=
  ∃ p1, FirstMarker s lay pos p1 ∧
    ((∃ p2, SecondMarker s lay pos p1 p2 ∧ fl = p2 - p1) ∨
      ((∀ q, p1 + markerLen lay ≤ q → ¬ Occurs s lay pos q) ∧
        s.cfg.lastFramePolicy = .reusePrev ∧ s.prevFlValid = true ∧
        pos + s.prevFl.toNat ≤ s.streamLen ∧ fl = s.prevFl.toNat))

/-- The stream byte at an address, as an integer. -/
def byteAt (m : Memory) (a : Nat) : Nat := ((readByte m a).getD 0).toNat

/-- `BE` of the `n` bytes from `a` on (00_scope.md R11). -/
def bigAt (m : Memory) (a : Nat) : Nat → Nat
  | 0 => 0
  | n + 1 => bigAt m a n * 256 + byteAt m (a + n)

/-- `LE` of the `n` bytes from `a` on (00_scope.md R11). -/
def littleAt (m : Memory) (a : Nat) : Nat → Nat
  | 0 => 0
  | n + 1 => littleAt m a n + byteAt m (a + n) * 256 ^ n

/-- `HFIELD` of the `n` bytes from `a` on (00_scope.md R11). -/
def fieldAt (c : Config) (m : Memory) (a n : Nat) : Nat :=
  match c.hdrByteOrder with
  | .big => bigAt m a n
  | .little => littleAt m a n

/-- The address of entry `k` of the stop-cell block of the frame at `pos`
(30_encoding.md R102, R106, R111). -/
def stopAddress (c : Config) (lay : Layout) (pos k : Nat) : Nat :=
  match lay with
  | .a => pos + c.wEvA + c.wTrA + 8 + k * c.scW
  | .b => pos + 2 + c.wPps + c.w10M + c.wEvB + c.wTrB + c.w133 + 8 + k * c.scW

/-- The address of the marker of the frame at `pos` (30_encoding.md R103, R108). -/
def markerAddress (c : Config) (lay : Layout) (pos : Nat) : Nat :=
  match lay with
  | .a => pos + c.wEvA + c.wTrA + 8 + c.nSc * c.scW
  | .b => pos + 2 + c.wPps + c.w10M + c.wEvB + c.wTrB + c.w133

/-- A frame of layout `lay`, length `fl` and capture length `len` stands at `pos`: every check of
`parse_frame` passes (40_framer.md R156). -/
structure FrameAt (s : State) (lay : Layout) (pos fl len : Nat) : Prop where
  header_fits : hdrLen s.cfg lay ≤ s.streamLen - pos
  length : FrameLengthIs s lay pos fl
  magic : lay = .b → ∀ j < 2, readByte s.stream (pos + j) = s.cfg.magicB[j]?
  marker_bytes : ∀ j < markerLen lay,
    readByte s.stream (markerAddress s.cfg lay pos + j) = (marker s.cfg lay)[j]?
  divides : fl = hdrLen s.cfg lay + 2 * 2 * s.cfg.nCh * len
  capture_pos : 1 ≤ len
  capture_le : len ≤ s.cfg.maxCapture
  stop_cells : ∀ k < s.cfg.nSc,
    fieldAt s.cfg s.stream (stopAddress s.cfg lay pos k) s.cfg.scW < 4096

/-- A header field as it stands in FB.hdr: zero-extended to 64 bits (10_state.md R31). -/
def counterAt (c : Config) (m : Memory) (a n : Nat) : Word := BitVec.ofNat 64 (fieldAt c m a n)

/-- The header fields of the frame at `pos` (30_encoding.md R102, R106). -/
def headerAt (c : Config) (m : Memory) (lay : Layout) (pos : Nat) : Header :=
  match lay with
  | .a => .a (counterAt c m pos c.wEvA) (counterAt c m (pos + c.wEvA) c.wTrA)
      (counterAt c m (pos + c.wEvA + c.wTrA) 8)
  | .b => .b c.magicB (counterAt c m (pos + 2) c.wPps) (counterAt c m (pos + 2 + c.wPps) c.w10M)
      (counterAt c m (pos + 2 + c.wPps + c.w10M) c.wEvB)
      (counterAt c m (pos + 2 + c.wPps + c.w10M + c.wEvB) c.wTrB)
      (counterAt c m (pos + 2 + c.wPps + c.w10M + c.wEvB + c.wTrB) c.w133)

/-- The timestamp counter of the frame at `pos` (30_encoding.md R105, R109). -/
def ticksAt (c : Config) (m : Memory) (lay : Layout) (pos : Nat) : Word :=
  match lay with
  | .a => counterAt c m (pos + c.wEvA + c.wTrA) 8
  | .b => counterAt c m (pos + 2 + c.wPps + c.w10M + c.wEvB + c.wTrB) c.w133

/-- `timestamp(lay, ticks)` (40_framer.md R157). -/
def secondsOf (c : Config) (lay : Layout) (ticks : Word) : F64 :=
  match lay with
  | .a => fmul (toF64 ticks.toNat) c.scaleA
  | .b => fdiv (toF64 ticks.toNat) (toF64 133000000)

/-- Element (ch, g, i) of a buffer (00_scope.md R13). -/
def element {α : Type} (rows : List (List α)) (ch g i : Nat) : Option α :=
  (rows[ch * 2 + g]?).bind fun row => row[i]?

/-- (ch, g, i) is an element of a frame of capture length `len` (00_scope.md R13). -/
abbrev InFrame (c : Config) (len ch g i : Nat) : Prop := ch < c.nCh ∧ g < 2 ∧ i < len

/-- The record `r` holds what stands in the stream at `pos` (40_framer.md R156, R157;
30_encoding.md R102, R106, R111, R117, R118). -/
structure RecordOf (s : State) (lay : Layout) (pos fl len : Nat) (r : FrameBody) : Prop where
  layout : r.layout = lay
  hdr : r.hdr = headerAt s.cfg s.stream lay pos
  ticks : r.ticks = ticksAt s.cfg s.stream lay pos
  time : r.t = secondsOf s.cfg lay r.ticks
  stop_count : r.stop.length = s.cfg.nSc
  stop : ∀ k < s.cfg.nSc,
    r.stop[k]? = some (fieldAt s.cfg s.stream (stopAddress s.cfg lay pos k) s.cfg.scW)
  capture_len : r.len = len
  frame_len : r.fl = BitVec.ofNat 64 fl
  row_count : r.samples.length = 2 * s.cfg.nCh
  row_length : ∀ row ∈ r.samples, row.length = len
  samples : ∀ ch g i, InFrame s.cfg len ch g i →
    ∃ w, deintAt s.cfg ch g i len = some w ∧ w < 2 * s.cfg.nCh * len ∧
      element r.samples ch g i =
        some (BitVec.ofNat 16 (byteAt s.stream (pos + hdrLen s.cfg lay + 2 * w) * 256 +
          byteAt s.stream (pos + hdrLen s.cfg lay + 2 * w + 1)))

/-- The status code of a `parse_frame` that fails at `pos` (40_framer.md R156). -/
def ParseFails (s : State) (lay : Layout) (pos : Nat) (code : Byte) : Prop :=
  (s.streamLen - pos < hdrLen s.cfg lay ∧ code = 1) ∨
  (hdrLen s.cfg lay ≤ s.streamLen - pos ∧ (∀ fl, ¬ FrameLengthIs s lay pos fl) ∧ code = 2) ∨
  (hdrLen s.cfg lay ≤ s.streamLen - pos ∧
    (∃ fl, FrameLengthIs s lay pos fl ∧ ∀ len, ¬ FrameAt s lay pos fl len) ∧ code = 3)

/-! ### The tracker -/

/-- The stop cell of (ch, g) of a frame (30_encoding.md R112). -/
def stopOf (c : Config) (f : FrameBody) (ch g : Nat) : Nat :=
  f.stop.getD (c.scMap.getD (ch * 2 + g) 0) 0

/-- The physical cell of sample `i` of (ch, g) (41_translator.md R202). -/
def cellOf (c : Config) (f : FrameBody) (ch g i : Nat) : Nat := (i + stopOf c f ch g) % 4096

/-- `RB[ch][g][cell]` (10_state.md R30). -/
def ringAt (rb : Runs F64) (ch g cell : Nat) : F64 := rbRead rb (cellIndex ch g cell)

/-- `EB_CUR` (10_state.md R33). -/
def TimesCurrent (s : State) : Prop := ∃ e f, s.eb = some e ∧ s.fb = some f ∧ e.seq = f.seq

/-- `CB_CUR` (10_state.md R34). -/
def CorrectionCurrent (s : State) : Prop := ∃ g f, s.cb = some g ∧ s.fb = some f ∧ g.seq = f.seq

/-- The elapsed time of (ch, g, i) of the frame `f` (42_tracker.md R221, R223). -/
def elapsedAt (s : State) (f : FrameBody) (ch g i : Nat) : F64 :=
  if s.trk = .invalidatedOnce ∨ ringAt s.rb ch g (cellOf s.cfg f ch g i) = .nan then .nan
  else fsub f.t (ringAt s.rb ch g (cellOf s.cfg f ch g i))

/-- The ring after the frame `f` is observed (42_tracker.md R224). -/
def Stamped (c : Config) (f : FrameBody) (old new : Runs F64) : Prop :=
  (∀ ch g i, InFrame c f.len ch g i → ringAt new ch g (cellOf c f ch g i) = f.t) ∧
  ∀ ch g cell, ch < c.nCh → g < 2 → cell < 4096 →
    (∀ i < f.len, cellOf c f ch g i ≠ cell) → ringAt new ch g cell = ringAt old ch g cell

/-! ### The pipeline -/

/-- The stage whose table a key belongs to (43_calibration.md R251). -/
def stageOf : CalKey → Nat
  | .atCell .off _ _ _ => 1
  | .atCell .pa _ _ _ | .atCell .pb _ _ _ | .atCell .pc _ _ _ => 2
  | .atPos .grid _ _ _ _ => 3
  | .atPos .pat _ _ _ _ => 4

/-- A key of 43_calibration.md R251. -/
def IsKey (c : Config) : CalKey → Prop
  | .atCell _ ch g cell => ch < c.nCh ∧ g < 2 ∧ cell < 4096
  | .atPos .grid ch g cell pos => ch < c.nCh ∧ g < 2 ∧ cell < 4096 ∧ pos < c.maxCapture
  | .atPos .pat ch g cell pos => ch < c.nCh ∧ g < 2 ∧ cell < 4096 ∧ pos < c.prefixLen

/-- Some key of `K(k)` is present in CT (43_calibration.md R253, `P` not empty). -/
def SomePresent (s : State) (k : Nat) : Prop :=
  ∃ key, IsKey s.cfg key ∧ stageOf key = k ∧ storeRead s.cfg s.ct key ≠ none

/-- Every key of `K(k)` is present in CT (43_calibration.md R253, `P = K(k)`). -/
def AllPresent (s : State) (k : Nat) : Prop :=
  ∀ key, IsKey s.cfg key → stageOf key = k → storeRead s.cfg s.ct key ≠ none

/-- A requested stage is supplied in part (43_calibration.md R253). -/
def PartlySupplied (s : State) (m : Field) : Prop :=
  ∃ k, 1 ≤ k ∧ k ≤ 4 ∧ m.getLsbD (k - 1) = true ∧ SomePresent s k ∧ ¬ AllPresent s k

/-- The entry of ACS at a key; an enabled stage has all of its entries. -/
def entry (s : State) (key : CalKey) : F64 := (storeRead s.cfg s.acs key).getD .nan

/-- `off2(dt, ch, g, cell)` (43_calibration.md R258). -/
def off2 (c : Config) (dt pa pb pc : F64) : F64 :=
  if dt = .nan then (if pc = .nan then .fin false 0 0 else pc)
  else fadd (fmul pa (powFn c dt pb)) pc

/-- `cellkey(ch, g, i)` (43_calibration.md R252). -/
def cellKeyOf (c : Config) (f : FrameBody) (ch g i : Nat) : Nat :=
  match c.gpCell with
  | .sample => cellOf c f ch g i
  | .stop => stopOf c f ch g

/-- What stage `k` subtracts from sample (ch, g, i), `dt` being its elapsed time; nothing from
positions outside the prefix of stage 4 (43_calibration.md R255, R257 to R260). -/
def subtrahend (s : State) (f : FrameBody) (dt : F64) (ch g i : Nat) : Nat → Option F64
  | 1 => some (entry s (.atCell .off ch g (cellOf s.cfg f ch g i)))
  | 2 => some (off2 s.cfg dt (entry s (.atCell .pa ch g (cellOf s.cfg f ch g i)))
      (entry s (.atCell .pb ch g (cellOf s.cfg f ch g i)))
      (entry s (.atCell .pc ch g (cellOf s.cfg f ch g i))))
  | 3 => some (entry s (.atPos .grid ch g (cellKeyOf s.cfg f ch g i) i))
  | 4 => if i < s.cfg.prefixLen then some (entry s (.atPos .pat ch g (cellKeyOf s.cfg f ch g i) i))
      else none
  | _ => none

/-- `WB(y)`, with `none` for ARITHMETIC_FAULT (43_calibration.md R256, `WriteBackFollowsR256`). -/
def written (c : Config) (y : F64) : Option Sample :=
  match writeBack c y with
  | .ok x => some x
  | .error _ => none

/-- One stage on a sample that no earlier stage faulted (43_calibration.md R255, R261). -/
def stageStep (s : State) (v : Option F64) (k : Nat) (x : Sample) : Option Sample :=
  if s.stageEn.getLsbD (k - 1) = true then
    match v with
    | some o => written s.cfg (fsub (toF64 x.toInt) o)
    | none => some x
  else some x

/-- The corrected sample (ch, g, i) of the frame `f`, or `none` where a write-back faults: the stages
1, 2, 3, 4 in order, each on the result of the one before (43_calibration.md R255, R261). -/
def correctedSample (s : State) (f : FrameBody) (dt : F64) (ch g i : Nat) (x : Sample) :
    Option Sample :=
  ((((stageStep s (subtrahend s f dt ch g i 1) 1 x).bind
    (stageStep s (subtrahend s f dt ch g i 2) 2)).bind
      (stageStep s (subtrahend s f dt ch g i 3) 3)).bind
        (stageStep s (subtrahend s f dt ch g i 4) 4))

/-- The elapsed time EB holds for (ch, g, i); only stage 2 uses it, and only when EB is current. -/
def timeAt (s : State) (ch g i : Nat) : F64 :=
  match s.eb with
  | some e => (element e.dt ch g i).getD .nan
  | none => .nan

/-- `Y[ch][g][i]` (43_calibration.md R255). -/
def outputAt (s : State) (f : FrameBody) (ch g i : Nat) : Option Sample :=
  (element f.samples ch g i).bind (correctedSample s f (timeAt s ch g i) ch g i)

/-! ### Binary64 -/

/-- A finite value in units of 2^-1074, with its sign. -/
def unitsOf (neg : Bool) (e : Fin 2047) (f : BitVec 52) : Int := signedInt neg (f64Units e f)

/-- The magnitude of a finite value in units of 2^-1074: the fraction, above its hidden bit unless the
biased exponent `e` is 0, times `2^(e - 1)`, and times 1 where `e` is 0 (IEEE 754; log 5). -/
def magnitude (e : Fin 2047) (f : BitVec 52) : Nat :=
  ((if e.val = 0 then 0 else 2 ^ 52) + f.toNat) * 2 ^ (e.val - 1)

/-- A finite value in units of 2^-1074, from its three fields. -/
def exactUnits (neg : Bool) (e : Fin 2047) (f : BitVec 52) : Int :=
  if neg = true then -(magnitude e f : Int) else magnitude e f

/-- `r` is the exact result of sign `neg` and magnitude `num / den` units of 2^-1074, rounded to
nearest, ties to even: of that sign; finite, with no finite value nearer and an even last place where
another is equally near; or infinite, from half a last place above the largest finite value on
(00_scope.md section 4; log 5). -/
def RoundsExact (neg : Bool) (num den : Nat) : F64 → Prop
  | .fin n e f => n = neg ∧ num < (2 ^ 54 - 1) * 2 ^ 2044 * den ∧
      ∀ (e' : Fin 2047) (f' : BitVec 52),
        |(num : Int) - magnitude e f * den| ≤ |(num : Int) - magnitude e' f' * den| ∧
        (|(num : Int) - magnitude e f * den| = |(num : Int) - magnitude e' f' * den| →
          magnitude e f ≠ magnitude e' f' → f.getLsbD 0 = false)
  | .inf n => n = neg ∧ (2 ^ 54 - 1) * 2 ^ 2044 * den ≤ num
  | .nan => False

/-- `r` is the rounding of `z` units of 2^-1074, or the zero of sign `zeroNeg` when `z` is 0. -/
def RoundsUnits (zeroNeg : Bool) (z : Int) (r : F64) : Prop :=
  if z = 0 then r = .fin zeroNeg 0 0 else RoundsExact (decide (z < 0)) z.natAbs 1 r

/-- A binary64 operation gives NaN when an operand is NaN (log 5). -/
def KeepsNaN (op : F64 → F64 → F64) : Prop := ∀ x, op .nan x = .nan ∧ op x .nan = .nan

/-- `fadd` is the exact sum rounded once; an exact zero sum is +0 unless both terms are negative, and
infinities of opposite signs give NaN (00_scope.md section 4; log 5). -/
def AddsExactly (op : F64 → F64 → F64) : Prop :=
  KeepsNaN op ∧
  (∀ m e f n e' f', RoundsUnits (m && n) (exactUnits m e f + exactUnits n e' f')
    (op (.fin m e f) (.fin n e' f'))) ∧
  (∀ m, op (.inf m) (.inf m) = .inf m ∧ op (.inf m) (.inf (!m)) = .nan) ∧
  ∀ m n e f, op (.inf m) (.fin n e f) = .inf m ∧ op (.fin n e f) (.inf m) = .inf m

/-- `fsub` is the exact difference rounded once; an exact zero difference is +0 unless the first term
is negative and the second is not, and infinities of one sign give NaN (00_scope.md section 4;
log 5). -/
def SubtractsExactly (op : F64 → F64 → F64) : Prop :=
  KeepsNaN op ∧
  (∀ m e f n e' f', RoundsUnits (m && !n) (exactUnits m e f - exactUnits n e' f')
    (op (.fin m e f) (.fin n e' f'))) ∧
  (∀ m, op (.inf m) (.inf m) = .nan ∧ op (.inf m) (.inf (!m)) = .inf m) ∧
  ∀ m n e f, op (.inf m) (.fin n e f) = .inf m ∧ op (.fin n e f) (.inf m) = .inf (!m)

/-- `fmul` is the exact product rounded once, negative when one factor is; zero times an infinity is
NaN (00_scope.md section 4; log 5). -/
def MultipliesExactly (op : F64 → F64 → F64) : Prop :=
  KeepsNaN op ∧
  (∀ m e f n e' f', RoundsExact (m != n) (magnitude e f * magnitude e' f') (2 ^ 1074)
    (op (.fin m e f) (.fin n e' f'))) ∧
  (∀ m n, op (.inf m) (.inf n) = .inf (m != n)) ∧
  ∀ m n e f,
    (magnitude e f = 0 → op (.inf m) (.fin n e f) = .nan ∧ op (.fin n e f) (.inf m) = .nan) ∧
    (magnitude e f ≠ 0 → op (.inf m) (.fin n e f) = .inf (m != n) ∧
      op (.fin n e f) (.inf m) = .inf (m != n))

/-- `fdiv` is the exact quotient rounded once, negative when one operand is; a finite value other than
zero over zero is infinite, and zero over zero and infinity over infinity are NaN
(00_scope.md section 4; log 5). -/
def DividesExactly (op : F64 → F64 → F64) : Prop :=
  KeepsNaN op ∧
  (∀ m e f n e' f',
    (magnitude e' f' ≠ 0 → RoundsExact (m != n) (2 ^ 1074 * magnitude e f) (magnitude e' f')
      (op (.fin m e f) (.fin n e' f'))) ∧
    (magnitude e' f' = 0 → magnitude e f ≠ 0 → op (.fin m e f) (.fin n e' f') = .inf (m != n)) ∧
    (magnitude e' f' = 0 → magnitude e f = 0 → op (.fin m e f) (.fin n e' f') = .nan)) ∧
  (∀ m n, op (.inf m) (.inf n) = .nan) ∧
  ∀ m n e f, op (.inf m) (.fin n e f) = .inf (m != n) ∧
    op (.fin n e f) (.inf m) = .fin (m != n) 0 0

/-- `r` is the rounding of `z / 2^1074` to an integer (43_calibration.md R256). -/
def RoundsTo (mode : WbRound) (z r : Int) : Prop :=
  match mode with
  | .trunc => (0 ≤ z → r * 2 ^ 1074 ≤ z ∧ z < (r + 1) * 2 ^ 1074) ∧
      (z < 0 → (r - 1) * 2 ^ 1074 < z ∧ z ≤ r * 2 ^ 1074)
  | .rne => 2 * |z - r * 2 ^ 1074| ≤ 2 ^ 1074 ∧
      (2 * |z - r * 2 ^ 1074| = 2 ^ 1074 → r % 2 = 0)
  | .floor => r * 2 ^ 1074 ≤ z ∧ z < (r + 1) * 2 ^ 1074
  | .rhaz => 2 * |z - r * 2 ^ 1074| ≤ 2 ^ 1074 ∧
      (2 * |z - r * 2 ^ 1074| = 2 ^ 1074 → |z| < |r * 2 ^ 1074|)

/-! ### The machine -/

/-- The codes 60_exceptions.md R330 lists for a command. -/
def codesOf : Instr → List Byte
  | .nop | .reset | .setlayoutA | .setlayoutB | .invalidate => [0, 8]
  | .probe => [0, 1, 2, 3, 8]
  | .sync => [0, 2, 3, 7, 8]
  | .decode => [0, 1, 2, 3, 7, 8]
  | .seek _ => [0, 4, 8]
  | .c2s _ _ | .s2c _ _ | .inwin _ _ _ => [0, 4, 8]
  | .observe => [0, 7, 8]
  | .calcfg _ => [0, 5, 8]
  | .apply => [0, 6, 7, 8]

/-- The host's read of `ref` answers `v` and changes nothing but what the host got
(10_state.md R39). -/
def Answers (s : State) (ref : BufferRef) (v : HostValue) : Prop :=
  hostEvent (.readBuf ref) s = .next { s with reply := some v }

/-- Every field and every element of the frame buffer `buf` on the port that `ref` names: refused while
the buffer is not valid or the index is outside it, and else the field or the element
(10_state.md R31, R34, R39). -/
def FramePortReads (s : State) (ref : FrameField → BufferRef) (buf : Option Frame) : Prop :=
  (buf = none → ∀ field, hostEvent (.readBuf (ref field)) s = .refused .bufferNotValid) ∧
  ∀ f, buf = some f →
    Answers s (ref .seq) (.word f.seq) ∧
    Answers s (ref .layout) (.layout f.body.layout) ∧
    Answers s (ref .hdr) (.header f.body.hdr) ∧
    Answers s (ref .ticks) (.word f.body.ticks) ∧
    Answers s (ref .t) (.real f.body.t) ∧
    Answers s (ref .len) (.index f.body.len) ∧
    Answers s (ref .fl) (.word f.body.fl) ∧
    (∀ k, (k < s.cfg.nSc → ∃ x, f.body.stop[k]? = some x ∧ Answers s (ref (.stop k)) (.index x)) ∧
      (s.cfg.nSc ≤ k → hostEvent (.readBuf (ref (.stop k))) s = .refused .indexOutOfRange)) ∧
    ∀ ch g i,
      (InFrame s.cfg f.body.len ch g i → ∃ x, element f.body.samples ch g i = some x ∧
        Answers s (ref (.sample ch g i)) (.sample x)) ∧
      (¬ InFrame s.cfg f.body.len ch g i →
        hostEvent (.readBuf (ref (.sample ch g i))) s = .refused .indexOutOfRange)

/-- The tag, the length and every element of the elapsed-time buffer on its port
(10_state.md R33, R39). -/
def ElapsedPortReads (s : State) : Prop :=
  (s.eb = none → ∀ ref, (ref = .ebSeq ∨ ref = .ebLen ∨ ∃ ch g i, ref = .ebElem ch g i) →
    hostEvent (.readBuf ref) s = .refused .bufferNotValid) ∧
  ∀ e, s.eb = some e →
    Answers s .ebSeq (.word e.seq) ∧
    Answers s .ebLen (.index e.len) ∧
    ∀ ch g i,
      (InFrame s.cfg e.len ch g i → ∃ x, element e.dt ch g i = some x ∧
        Answers s (.ebElem ch g i) (.real x)) ∧
      (¬ InFrame s.cfg e.len ch g i →
        hostEvent (.readBuf (.ebElem ch g i)) s = .refused .indexOutOfRange)

/-! ### The assembler -/

/-- The lines without operands, and SETLAYOUT's (30_encoding.md R140). -/
def fixedLines : List (String × Instr) :=
  [("nop", .nop), ("reset", .reset), ("probe", .probe), ("setlayout A", .setlayoutA),
   ("setlayout B", .setlayoutB), ("sync", .sync), ("decode", .decode), ("observe", .observe),
   ("invalidate", .invalidate), ("apply", .apply)]

/-- A line is assembled to the one word of a command. -/
def AssemblesTo (line : List Char) (i : Instr) : Prop :=
  assembleLine line = .ok [.command (encode i)]

/-- A line is refused because an operand does not fit its field (30_encoding.md R140). -/
def TooWide (line : List Char) : Prop := assembleLine line = .error .operandTooWide

/-- A line with one operand, which denotes `n`, for a command whose field has `width` bits. -/
def OneOperandLine (mnemonic : String) (width : Nat) (make : BitVec width → Instr) : Prop :=
  ∀ (n : Nat) (x : List Char), asmNumber x = .ok n →
    (n < 2 ^ width → AssemblesTo ((mnemonic ++ " ").toList ++ x) (make (BitVec.ofNat width n))) ∧
    (2 ^ width ≤ n → TooWide ((mnemonic ++ " ").toList ++ x))

/-- A line with two operands, for a command with two 16-bit fields. -/
def TwoOperandLine (mnemonic : String) (make : Field → Field → Instr) : Prop :=
  ∀ (n m : Nat) (x y : List Char), asmNumber x = .ok n → asmNumber y = .ok m →
    (n < 2 ^ 16 → m < 2 ^ 16 → AssemblesTo ((mnemonic ++ " ").toList ++ x ++ ", ".toList ++ y)
      (make (BitVec.ofNat 16 n) (BitVec.ofNat 16 m))) ∧
    (2 ^ 16 ≤ n ∨ 2 ^ 16 ≤ m → TooWide ((mnemonic ++ " ").toList ++ x ++ ", ".toList ++ y))

/-- A line with three operands, for a command with three 16-bit fields. -/
def ThreeOperandLine (mnemonic : String) (make : Field → Field → Field → Instr) : Prop :=
  ∀ (n m k : Nat) (x y z : List Char), asmNumber x = .ok n → asmNumber y = .ok m →
    asmNumber z = .ok k →
    (n < 2 ^ 16 → m < 2 ^ 16 → k < 2 ^ 16 →
      AssemblesTo ((mnemonic ++ " ").toList ++ x ++ ", ".toList ++ y ++ ", ".toList ++ z)
        (make (BitVec.ofNat 16 n) (BitVec.ofNat 16 m) (BitVec.ofNat 16 k))) ∧
    (2 ^ 16 ≤ n ∨ 2 ^ 16 ≤ m ∨ 2 ^ 16 ≤ k →
      TooWide ((mnemonic ++ " ").toList ++ x ++ ", ".toList ++ y ++ ", ".toList ++ z))

/-! ### Reset -/

/-- Every element of 10_state.md R20 has the value of 70_reset_and_hazards.md R360. -/
structure AtReset (t : State) : Prop where
  status : t.status = 0
  res : t.res = 0
  pos : t.pos = 0
  layout : t.layout = none
  fatal : t.fatal = false
  prev_fl : t.prevFl = 0
  prev_fl_valid : t.prevFlValid = false
  fseq : t.fseq = 0
  trk : t.trk = .tracking
  rb : ∀ ch g cell, ringAt t.rb ch g cell = .nan
  fb : t.fb = none
  eb : t.eb = none
  cb : t.cb = none
  stage_en : t.stageEn = 0
  acs : ∀ key, storeRead t.cfg t.acs key = none
  ct : ∀ key, storeRead t.cfg t.ct key = none

end Sys2Proof.Claims

section

open Sys2Proof Sys2Proof.Machine Sys2Proof.Claims

/-! ### Command words -/

/-- Every well-formed command is read back from its word, with every operand at every value the
encoding admits (30_encoding.md R130 to R135). -/
def Obligations.DecodeOfEncodeIsIdentity : Prop :=
  ∀ i : Instr, i.wellFormed = true → decode (encode i) = .ok i

/-- Every word the decoder accepts is well-formed and is the word of the command it is read as: no
second word has the same meaning (30_encoding.md R135). -/
def Obligations.EncodeOfDecodeIsIdentity : Prop :=
  ∀ (w : Word) (i : Instr), decode w = .ok i → i.wellFormed = true ∧ encode i = w

/-- The decoder accepts exactly the words of the table of 30_encoding.md R134, each as the command of
its row; no two rows match one word. -/
def Obligations.DecoderFollowsMatchMaskTable : Prop :=
  (∀ w i, decode w = .ok i → ∃ r ∈ rows, r.Covers w ∧ r.name = mnemonic i) ∧
  (∀ w, (∃ r ∈ rows, r.Covers w) → ∃ i, decode w = .ok i) ∧
  rows.Pairwise fun a b => ∀ w, ¬ (a.Covers w ∧ b.Covers w)

/-- The operands are the fields of the word, zero-extended (30_encoding.md R130, R131). -/
def Obligations.DecoderReadsOperandFields : Prop :=
  ∀ w i, decode w = .ok i → operands i = operandBits (mnemonic i) w

/-- The decoder refuses exactly the words 30_encoding.md R133 calls illegal, and issuing one raises
ILLEGAL_COMMAND with no other effect. -/
def Obligations.IllegalWordsRaiseIllegalCommand : Prop :=
  (∀ w, Illegal w ↔ ∃ e, decode w = .error e) ∧
  ∀ (s : State) (w : Word) (rest : List HostEvent), s.port = .command w :: rest → Illegal w →
    step s = .next { s with port := rest, status := 8 }

/-- The example encodings of 30_encoding.md R142. -/
def Obligations.ExampleWordsDecode : Prop :=
  decode 0x1000020000000000 = .ok .setlayoutB ∧
  decode 0x20000A0005000000 = .ok (.c2s 10 5) ∧
  decode 0x2000050FFA000000 = .ok (.c2s 5 4090) ∧
  decode 0x2200050FFA000C00 = .ok (.inwin 5 4090 12) ∧
  decode 0x1400000000003400 = .ok (.seek 52) ∧
  decode 0x40000F0000000000 = .ok (.calcfg 15)

/-- A step runs the command the host issues: what the step adds around `exec` is that the interaction
leaves the port and that a command which reads the stream fixes it for the session
(00_scope.md R5, 20_memory.md R69; the model's port and flag, log 3 and log 14). The interaction
`commandIfOk`, the model's own for the pseudo-instruction `next` (30_encoding.md R141, log 21), runs
its word only after an OK. -/
def Obligations.StepRunsDecodedInstruction : Prop :=
  ∀ (s : State) (w : Word) (rest : List HostEvent) (i : Instr), decode w = .ok i →
    (s.port = .command w :: rest → step s = exec i
      { s with port := rest, streamFixed := s.streamFixed || readsStream i }) ∧
    (s.port = .commandIfOk w :: rest → s.status = 0 → step s = exec i
      { s with port := rest, streamFixed := s.streamFixed || readsStream i }) ∧
    (s.port = .commandIfOk w :: rest → s.status ≠ 0 → step s = .next { s with port := rest })

/-- Between commands the block is idle and keeps all state (60_exceptions.md R341). -/
def Obligations.IdleBlockKeepsState : Prop :=
  ∀ s : State, s.port = [] → step s = .next s

/-! ### Control -/

/-- NOP writes STATUS only, whatever was raised before; it does not clear FATAL; its word with a
non-zero Z is illegal (44_control.md R300). -/
def Obligations.NopWritesStatusOnly : Prop :=
  (∀ s : State, exec .nop s = .next { s with status := 0 }) ∧ encode .nop = 0 ∧ Illegal 1

/-- RESET and power-on reset give every state element its reset value, and so STATUS is OK
(70_reset_and_hazards.md R360, 44_control.md R301). -/
def Obligations.ResetRestoresEveryElement : Prop :=
  encode .reset = 0x0100000000000000 ∧
  ∀ s : State, ∃ t, exec .reset s = .next t ∧ hostReset s = .next t ∧ AtReset t

/-- Power-on reset and RESET have the same result, and after it the host may supply a new stream
(70_reset_and_hazards.md R361). -/
def Obligations.PowerOnResetEqualsReset : Prop :=
  ∀ s : State, ∃ t, hostReset s = .next t ∧ exec .reset s = .next t ∧
    ∀ bytes : List Byte, bytes.length < 2 ^ 64 →
      ∃ u, hostEvent (.supply bytes) t = .next u ∧ u.streamLen = bytes.length ∧
        ∀ a, readByte u.stream a = bytes[a]?

/-- The machine after power-on is in the reset state of 70_reset_and_hazards.md R360 and meets the
invariant of the model; its configuration, its empty stream and its empty port are the model's
choice (log 2, log 3, log 8). -/
def Obligations.PowerOnStateMeetsInvariant : Prop :=
  AtReset State.reset ∧ State.Good State.reset

/-- Immediately after reset DECODE, SYNC, OBSERVE and APPLY raise SEQUENCE_ERROR; no other command
does (70_reset_and_hazards.md R362). -/
def Obligations.SequenceErrorsAfterReset : Prop :=
  ∀ s : State, AtReset s →
    (∀ i ∈ [Instr.decode, .sync, .observe, .apply], exec i s = .next { s with status := 7 }) ∧
    ∀ i t, i ∉ [Instr.decode, .sync, .observe, .apply] → exec i s = .next t → t.status ≠ 7

/-! ### The framer -/

/-- SETLAYOUT writes LAYOUT and STATUS; an operand outside 1 and 2 is illegal
(40_framer.md R154). -/
def Obligations.SetlayoutSelectsLayout : Prop :=
  encode .setlayoutA = 0x1000010000000000 ∧ encode .setlayoutB = 0x1000020000000000 ∧
  (∀ s : State, exec .setlayoutA s = .next { s with layout := some .a, status := 0 }) ∧
  (∀ s : State, exec .setlayoutB s = .next { s with layout := some .b, status := 0 }) ∧
  ∀ w : Word, bitsAt w 56 8 = 0x10 → bitsAt w 40 16 ∉ [1, 2] → ∃ e, decode w = .error e

/-- `find_frame_length` returns the distance between the first two occurrences of the marker in the
lookahead chunk that do not overlap, or the length of the frame before under REUSE_PREV, and
fails otherwise (40_framer.md R151, R152). The chunk is never padded: `chunkLen` is the shorter
of the lookahead and what is left. -/
def Obligations.FrameLengthFollowsMarkers : Prop :=
  ∀ (s : State) (lay : Layout) (pos : Nat), configOk s.cfg = true → s.stream.wf = true →
    pos ≤ s.streamLen →
      (∀ fl, findFrameLength s lay pos = .ok fl ↔ FrameLengthIs s lay pos fl) ∧
      ((∀ fl, ¬ FrameLengthIs s lay pos fl) →
        findFrameLength s lay pos = .error (.code .framingError))

/-- A measured frame length is at least the marker's length, and the frame lies inside the stream
(40_framer.md R153). -/
def Obligations.FrameLengthIsInStream : Prop :=
  ∀ (s : State) (lay : Layout) (pos fl : Nat), s.Good → pos ≤ s.streamLen →
    findFrameLength s lay pos = .ok fl → markerLen lay ≤ fl ∧ pos + fl ≤ s.streamLen

/-- SYNC, every outcome and everything it writes (40_framer.md R155). -/
def Obligations.SyncMeasuresFrame : Prop :=
  encode .sync = 0x1200000000000000 ∧
  ∀ s : State, s.Good →
    (s.layout = none → exec .sync s = .next { s with status := 7 }) ∧
    ∀ lay, s.layout = some lay →
      (s.fatal = true → exec .sync s = .next { s with status := 3 }) ∧
      (s.fatal = false →
        (∀ fl, FrameLengthIs s lay s.pos.toNat fl →
          exec .sync s = .next { s with res := BitVec.ofNat 64 fl, status := 0 }) ∧
        ((∀ fl, ¬ FrameLengthIs s lay s.pos.toNat fl) →
          exec .sync s = .next { s with status := 2 }))

/-- DECODE of a frame commits it and nothing else (40_framer.md R160); the frame counter being below
its last value, the elapsed times and the corrected frame of the frame before are then no longer
current (log 11). -/
def Obligations.DecodeCommitsFrame : Prop :=
  ∀ (s : State) (lay : Layout) (fl len : Nat), s.Good → s.layout = some lay → s.fatal = false →
    FrameAt s lay s.pos.toNat fl len →
      ∃ r : FrameBody, exec .decode s = .next
        { s with
          fseq := s.fseq + 1
          fb := some ⟨s.fseq + 1, r⟩
          pos := s.pos + BitVec.ofNat 64 fl
          prevFl := BitVec.ofNat 64 fl
          prevFlValid := true
          res := BitVec.ofNat 64 fl
          status := 0 } ∧ r.fl = BitVec.ofNat 64 fl ∧
        (CounterRoom s → ∀ t, exec .decode s = .next t →
          ¬ TimesCurrent t ∧ ¬ CorrectionCurrent t)

/-- The frame DECODE commits holds, field by field and sample by sample, what stands in the stream at
POS (40_framer.md R156, R157; 30_encoding.md R102, R106, R111, R117, R118). -/
def Obligations.DecodedFrameHoldsStreamBytes : Prop :=
  ∀ (s : State) (lay : Layout) (fl len : Nat), s.Good → s.layout = some lay → s.fatal = false →
    FrameAt s lay s.pos.toNat fl len →
      ∃ t f, exec .decode s = .next t ∧ t.fb = some f ∧
        RecordOf s lay s.pos.toNat fl len f.body

/-- DECODE reports the first failure that applies, and a header error alone sets FATAL
(40_framer.md R159, R162). -/
def Obligations.DecodeReportsFirstFailure : Prop :=
  (∀ (s : State) (w : Word) (rest : List HostEvent), s.port = .command w :: rest → Illegal w →
    step s = .next { s with port := rest, status := 8 }) ∧
  ∀ s : State, s.Good →
    (s.layout = none → exec .decode s = .next { s with status := 7 }) ∧
    ∀ lay, s.layout = some lay →
      (s.fatal = true → exec .decode s = .next { s with status := 3 }) ∧
      (s.fatal = false →
        (ParseFails s lay s.pos.toNat 1 → exec .decode s = .next { s with status := 1 }) ∧
        (ParseFails s lay s.pos.toNat 2 → exec .decode s = .next { s with status := 2 }) ∧
        (ParseFails s lay s.pos.toNat 3 →
          exec .decode s = .next { s with status := 3, fatal := true }))

/-- FATAL is set by a DECODE that raises HEADER_FORMAT_ERROR and by nothing else, only RESET clears
it, and while it is set SYNC, DECODE and PROBE raise HEADER_FORMAT_ERROR whatever the stream is
(10_state.md R26). -/
def Obligations.FatalFlagIsSticky : Prop :=
  (∀ (s t : State) (i : Instr), exec i s = .next t → s.fatal = false → t.fatal = true →
    i = .decode ∧ t.status = 3) ∧
  (∀ (s t : State), exec .decode s = .next t → t.status = 3 → t.fatal = true) ∧
  (∀ (s t : State) (i : Instr), exec i s = .next t → s.fatal = true → t.fatal = false →
    i = .reset) ∧
  (∀ s : State, s.Good → s.fatal = true → ∀ i ∈ [Instr.sync, .decode, .probe],
    exec i s = .next { s with status := 3 }) ∧
  State.reset.fatal = false

/-- END_OF_STREAM from DECODE changes no state but STATUS, and repeating the DECODE reports it again
(40_framer.md R163). -/
def Obligations.EndOfStreamRepeats : Prop :=
  ∀ s t : State, exec .decode s = .next t → t.status = 1 →
    t = { s with status := 1 } ∧ exec .decode t = .next t

/-- FRAMING_ERROR is not retried: DECODE and SYNC at the same POS report it again, and FATAL is not
set (40_framer.md R164, 60_exceptions.md R322). -/
def Obligations.FramingErrorRepeats : Prop :=
  ∀ (s t : State) (i : Instr), i = .decode ∨ i = .sync → exec i s = .next t → t.status = 2 →
    t = { s with status := 2 } ∧ exec i t = .next t

/-- PROBE, every outcome and everything it writes (40_framer.md R165). -/
def Obligations.ProbeTriesBothLayouts : Prop :=
  encode .probe = 0x1100000000000000 ∧
  ∀ s : State, s.Good →
    (s.fatal = true → exec .probe s = .next { s with status := 3 }) ∧
    (s.fatal = false →
      ((∃ fl len, FrameAt s .a s.pos.toNat fl len) →
        exec .probe s = .next { s with layout := some .a, res := 1, status := 0 }) ∧
      ((∀ fl len, ¬ FrameAt s .a s.pos.toNat fl len) →
        ((∃ fl len, FrameAt s .b s.pos.toNat fl len) →
          exec .probe s = .next { s with layout := some .b, res := 2, status := 0 }) ∧
        ∀ code, ParseFails s .b s.pos.toNat code →
          exec .probe s = .next { s with status := code }))

/-- A layout PROBE accepts is one DECODE accepts at the same POS and PREV_FL
(40_framer.md R166). -/
def Obligations.ProbedLayoutDecodes : Prop :=
  ∀ s t : State, exec .probe s = .next t → t.status = 0 →
    ∃ u, exec .decode t = .next u ∧ u.status = 0 ∧ u.fseq = s.fseq + 1

/-- SEEK, every outcome and everything it writes (40_framer.md R170). -/
def Obligations.SeekMovesPosition : Prop :=
  encode (.seek 52) = 0x1400000000003400 ∧
  ∀ (s : State) (p : BitVec 48),
    (s.streamLen < p.toNat → exec (.seek p) s = .next { s with status := 4 }) ∧
    (p.toNat ≤ s.streamLen →
      (p.toNat = s.pos.toNat → exec (.seek p) s = .next { s with status := 0 }) ∧
      (p.toNat ≠ s.pos.toNat → exec (.seek p) s = .next
        { s with pos := BitVec.ofNat 64 p.toNat, trk := .invalidatedOnce, status := 0 }))

/-- The default de-interleave is a bijection onto the words of the block, puts the two channels of a
pair in different halves, and alternates the gains within a half (30_encoding.md R118). -/
def Obligations.DefaultDeinterleaveIsLawful : Prop :=
  ∀ nCh len : Nat, 2 ≤ nCh → nCh % 2 = 0 → 1 ≤ len →
    (∀ ch g i, ch < nCh → g < 2 → i < len → deintStandard nCh ch g i len < 2 * nCh * len) ∧
    (∀ w < 2 * nCh * len, ∃ ch g i, ch < nCh ∧ g < 2 ∧ i < len ∧
      deintStandard nCh ch g i len = w) ∧
    (∀ ch g i ch' g' i', ch < nCh → g < 2 → i < len → ch' < nCh → g' < 2 → i' < len →
      deintStandard nCh ch g i len = deintStandard nCh ch' g' i' len →
        ch = ch' ∧ g = g' ∧ i = i') ∧
    (∀ k g i g' i', 2 * k + 1 < nCh → g < 2 → i < len → g' < 2 → i' < len →
      (deintStandard nCh (2 * k) g i len < nCh * len ↔
        nCh * len ≤ deintStandard nCh (2 * k + 1) g' i' len)) ∧
    ∀ ch g i ch' g' i', ch < nCh → g < 2 → i < len → ch' < nCh → g' < 2 → i' < len →
      deintStandard nCh ch' g' i' len = deintStandard nCh ch g i len + 1 →
        deintStandard nCh ch' g' i' len ≠ nCh * len → g ≠ g'

/-! ### The translator -/

/-- C2S, both outcomes and everything it writes (41_translator.md R201, R205). -/
def Obligations.CellToSampleCommand : Prop :=
  encode (.c2s 10 5) = 0x20000A0005000000 ∧
  ∀ (s : State) (cell stop : Field),
    (4096 ≤ cell.toNat ∨ 4096 ≤ stop.toNat →
      exec (.c2s cell stop) s = .next { s with status := 4 }) ∧
    (cell.toNat < 4096 → stop.toNat < 4096 → exec (.c2s cell stop) s = .next
      { s with res := BitVec.ofInt 64 (((cell.toNat : Int) - stop.toNat) % 4096), status := 0 })

/-- S2C, both outcomes and everything it writes (41_translator.md R202, R206). -/
def Obligations.SampleToCellCommand : Prop :=
  encode (.s2c 11 4090) = 0x21000B0FFA000000 ∧
  ∀ (s : State) (index stop : Field),
    (4096 ≤ index.toNat ∨ 4096 ≤ stop.toNat →
      exec (.s2c index stop) s = .next { s with status := 4 }) ∧
    (index.toNat < 4096 → stop.toNat < 4096 → exec (.s2c index stop) s = .next
      { s with res := BitVec.ofNat 64 ((index.toNat + stop.toNat) % 4096), status := 0 })

/-- INWIN, both outcomes and everything it writes (41_translator.md R203, R207). -/
def Obligations.WindowCommand : Prop :=
  encode (.inwin 5 4090 12) = 0x2200050FFA000C00 ∧
  ∀ (s : State) (cell stop len : Field),
    (4096 ≤ cell.toNat ∨ 4096 ≤ stop.toNat ∨ 4096 < len.toNat →
      exec (.inwin cell stop len) s = .next { s with status := 4 }) ∧
    (cell.toNat < 4096 → stop.toNat < 4096 → len.toNat ≤ 4096 →
      exec (.inwin cell stop len) s = .next
        { s with
          res := if ((cell.toNat : Int) - stop.toNat) % 4096 < len.toNat then 1 else 0
          status := 0 })

/-- The two translations are mutual inverses (41_translator.md R208). -/
def Obligations.TranslationsAreInverse : Prop :=
  ∀ n stop : Nat, n < 4096 → stop < 4096 →
    sampleToCell (cellToSample n stop) stop = n ∧ cellToSample (sampleToCell n stop) stop = n

/-- A window holds exactly the cells of its sample indices, and no two indices share a cell
(41_translator.md R209, R210). -/
def Obligations.WindowHoldsItsSamples : Prop :=
  ∀ stop len : Nat, stop < 4096 → len ≤ 4096 →
    (∀ i < len, cellInWindow (sampleToCell i stop) stop len = true) ∧
    (∀ i, len ≤ i → i < 4096 → cellInWindow (sampleToCell i stop) stop len = false) ∧
    ∀ i j, i < len → j < len → sampleToCell i stop = sampleToCell j stop → i = j

/-! ### The tracker -/

/-- OBSERVE, every outcome and everything it writes: the elapsed times, read from the ring as it was
before, the stamped window, every other ring entry unchanged, and the tracker back to tracking
(42_tracker.md R221, R224, R225, R230). -/
def Obligations.ObserveComputesAndStamps : Prop :=
  encode .observe = 0x3000000000000000 ∧
  ∀ s : State, s.Good →
    (s.fb = none → exec .observe s = .next { s with status := 7 }) ∧
    ∀ f, s.fb = some f →
      (TimesCurrent s → exec .observe s = .next { s with status := 7 }) ∧
      (¬ TimesCurrent s → ∃ (dt : List (List F64)) (rb : Runs F64),
        exec .observe s = .next
          { s with
            eb := some ⟨f.seq, f.body.len, dt⟩
            rb := rb
            trk := .tracking
            status := 0 } ∧
        dt.length = 2 * s.cfg.nCh ∧ (∀ row ∈ dt, row.length = f.body.len) ∧
        (∀ ch g i, InFrame s.cfg f.body.len ch g i →
          element dt ch g i = some (elapsedAt s f.body ch g i)) ∧
        Stamped s.cfg f.body s.rb rb)

/-- The first observation of a cell gives NaN, and a second one gives exactly the binary64 difference
of the two timestamps when no frame observed between covered the cell and no invalidation came
between: `t` is the state after an OBSERVE of the frame `f`, and `u` a state in tracking, after any
number of other OBSERVEs, whose ring still holds for that cell what it held in `t`
(42_tracker.md R227). -/
def Obligations.SecondObserveGivesDifference : Prop :=
  ∀ (s t u v : State) (f h : Frame) (e : Elapsed), s.Good → u.Good → u.cfg = s.cfg →
    s.fb = some f → exec .observe s = .next t → t.status = 0 →
    u.trk = .tracking → u.fb = some h → exec .observe u = .next v → v.status = 0 →
    v.eb = some e →
      ∀ ch g i, InFrame s.cfg h.body.len ch g i →
        ringAt u.rb ch g (cellOf s.cfg h.body ch g i) =
          ringAt t.rb ch g (cellOf s.cfg h.body ch g i) →
        ((∀ j < f.body.len, cellOf s.cfg f.body ch g j ≠ cellOf s.cfg h.body ch g i) →
          ringAt s.rb ch g (cellOf s.cfg h.body ch g i) = .nan → element e.dt ch g i = some .nan) ∧
        ((∃ j < f.body.len, cellOf s.cfg f.body ch g j = cellOf s.cfg h.body ch g i) →
          element e.dt ch g i = some (fsub h.body.t f.body.t))

/-- INVALIDATE writes TRK and STATUS only, in either state (42_tracker.md R222). -/
def Obligations.InvalidateWritesTrackerOnly : Prop :=
  encode .invalidate = 0x3100000000000000 ∧
  ∀ s : State, exec .invalidate s = .next { s with trk := .invalidatedOnce, status := 0 }

/-- After an invalidation the next OBSERVE gives NaN for every cell of its window whatever the ring
holds, stamps the window all the same, and leaves the tracker in tracking (42_tracker.md R228,
R224, R225). -/
def Obligations.InvalidatedObserveGivesNaN : Prop :=
  ∀ (s t : State) (f : Frame), s.Good → s.trk = .invalidatedOnce → s.fb = some f →
    exec .observe s = .next t → t.status = 0 →
      (∃ e, t.eb = some e ∧
        ∀ ch g i, InFrame s.cfg f.body.len ch g i → element e.dt ch g i = some .nan) ∧
      t.trk = .tracking ∧ Stamped s.cfg f.body s.rb t.rb

/-- The transitions of the tracker (42_tracker.md R220, R226). -/
def Obligations.TrackerTransitions : Prop :=
  ∀ (s t : State) (i : Instr), exec i s = .next t →
    (i = .invalidate → t.trk = .invalidatedOnce) ∧
    (∀ p, i = .seek p → t.trk = if t.pos = s.pos then s.trk else .invalidatedOnce) ∧
    (i = .observe → t.trk = if t.status = 0 then .tracking else s.trk) ∧
    (i = .reset → t.trk = .tracking) ∧
    (i ≠ .invalidate → (∀ p, i ≠ .seek p) → i ≠ .observe → i ≠ .reset → t.trk = s.trk)

/-! ### The pipeline -/

/-- CALCFG, every outcome and everything it writes (43_calibration.md R253). -/
def Obligations.CalcfgInstallsSuppliedStages : Prop :=
  encode (.calcfg 15) = 0x40000F0000000000 ∧
  ∀ (s : State) (m : Field), s.Good → m.toNat < 16 →
    (PartlySupplied s m → exec (.calcfg m) s = .next { s with status := 5 }) ∧
    (¬ PartlySupplied s m → ∃ (en : BitVec 4) (acs : CalStore),
      exec (.calcfg m) s = .next { s with stageEn := en, acs := acs, status := 0 } ∧
      (∀ k, 1 ≤ k → k ≤ 4 →
        (en.getLsbD (k - 1) = true ↔ m.getLsbD (k - 1) = true ∧ SomePresent s k)) ∧
      ∀ key, IsKey s.cfg key → storeRead s.cfg acs key =
        if en.getLsbD (stageOf key - 1) = true then storeRead s.cfg s.ct key else none)

/-- CTWrite makes one entry of CT present with its value, CTClear makes it absent, and nothing else
changes, no other entry among it (20_memory.md R66). A key that is none of 43_calibration.md R251
is refused (log 15). -/
def Obligations.TableWritePortWritesOneEntry : Prop :=
  ∀ (s : State) (key : CalKey) (v : F64), s.Good →
    (IsKey s.cfg key → ∃ ct ct' : CalStore,
      hostEvent (.ctWrite key v) s = .next { s with ct := ct } ∧
      hostEvent (.ctClear key) s = .next { s with ct := ct' } ∧
      storeRead s.cfg ct key = some v ∧ storeRead s.cfg ct' key = none ∧
      ∀ other, IsKey s.cfg other → other ≠ key →
        storeRead s.cfg ct other = storeRead s.cfg s.ct other ∧
          storeRead s.cfg ct' other = storeRead s.cfg s.ct other) ∧
    (¬ IsKey s.cfg key → hostEvent (.ctWrite key v) s = .refused (.noSuchKey key) ∧
      hostEvent (.ctClear key) s = .refused (.noSuchKey key))

/-- A CTWrite or CTClear changes nothing that APPLY reads: APPLY after it gives what APPLY before it
gives, CT apart (43_calibration.md R254). -/
def Obligations.TableWritesDoNotReachApply : Prop :=
  ∀ (s t u : State) (e : HostEvent), (∃ key v, e = .ctWrite key v) ∨ (∃ key, e = .ctClear key) →
    hostEvent e s = .next t → exec .apply s = .next u →
      exec .apply t = .next { u with ct := t.ct }

/-- APPLY, every outcome and everything it writes: each sample goes through the enabled stages in
order, and one sample that faults leaves CB as it was (43_calibration.md R255, R257 to R261,
R264). -/
def Obligations.ApplyCorrectsEverySample : Prop :=
  encode .apply = 0x4100000000000000 ∧
  ∀ s : State, s.Good →
    (s.fb = none → exec .apply s = .next { s with status := 7 }) ∧
    ∀ f, s.fb = some f →
      (s.stageEn.getLsbD 1 = true → ¬ TimesCurrent s →
        exec .apply s = .next { s with status := 7 }) ∧
      ((s.stageEn.getLsbD 1 = true → TimesCurrent s) →
        ((∃ ch g i, InFrame s.cfg f.body.len ch g i ∧ outputAt s f.body ch g i = none) →
          exec .apply s = .next { s with status := 6 }) ∧
        ((∀ ch g i, InFrame s.cfg f.body.len ch g i → outputAt s f.body ch g i ≠ none) →
          ∃ rows : List (List Sample),
            exec .apply s = .next
              { s with cb := some ⟨f.seq, { f.body with samples := rows }⟩, status := 0 } ∧
            rows.length = 2 * s.cfg.nCh ∧ (∀ row ∈ rows, row.length = f.body.len) ∧
            ∀ ch g i, InFrame s.cfg f.body.len ch g i →
              element rows ch g i = outputAt s f.body ch g i))

/-- With no stage enabled APPLY is the identity (10_state.md R35, 43_calibration.md R255). -/
def Obligations.ApplyWithoutStagesCopies : Prop :=
  ∀ (s : State) (f : Frame), s.Good → s.stageEn = 0 → s.fb = some f →
    exec .apply s = .next { s with cb := some f, status := 0 }

/-- APPLY reads FB, EB, STAGE_EN and ACS and writes CB alone (43_calibration.md R262). -/
def Obligations.ApplyReadsOnlyItsInputs : Prop :=
  (∀ s t u : State, s.cfg = t.cfg → s.fb = t.fb → s.eb = t.eb → s.stageEn = t.stageEn →
    s.acs = t.acs → s.cb = t.cb → exec .apply s = .next u →
      exec .apply t = .next { t with cb := u.cb, status := u.status }) ∧
  ∀ s u : State, exec .apply s = .next u → u = { s with cb := u.cb, status := u.status }

/-- `WB(y)`: a NaN or an infinite value faults, every other is rounded as WB_ROUND says, and the
rounded value is the sample when it fits and faults when it does not; every finite value has such a
rounding (43_calibration.md R256). -/
def Obligations.WriteBackRoundsThenChecks : Prop :=
  ∀ c : Config,
    writeBack c .nan = .error (.code .arithmeticFault) ∧
    (∀ neg, writeBack c (.inf neg) = .error (.code .arithmeticFault)) ∧
    (∀ (neg : Bool) (e : Fin 2047) (f : BitVec 52), ∃ r, RoundsTo c.wbRound (unitsOf neg e f) r) ∧
    ∀ (neg : Bool) (e : Fin 2047) (f : BitVec 52) (r : Int),
      RoundsTo c.wbRound (unitsOf neg e f) r →
        (-32768 ≤ r → r ≤ 32767 → writeBack c (.fin neg e f) = .ok (BitVec.ofInt 16 r)) ∧
        (r < -32768 ∨ 32767 < r →
          writeBack c (.fin neg e f) = .error (.code .arithmeticFault))

/-- The offset of stage 2, and that an unknown elapsed time never makes it NaN
(43_calibration.md R258). -/
def Obligations.PowerLawOffset : Prop :=
  ∀ (c : Config) (dt pa pb pc : F64),
    powerLaw c dt pa pb pc = off2 c dt pa pb pc ∧ powerLaw c .nan pa pb pc ≠ .nan

/-- A sample is an integer that binary64 holds exactly, so writing it back gives the sample in every
rounding mode (00_scope.md section 4, 43_calibration.md R256). -/
def Obligations.SampleSurvivesWriteBack : Prop :=
  ∀ (c : Config) (x : Sample), writeBack c (toF64 x.toInt) = .ok x

/-- Binary64 arithmetic (00_scope.md section 4; the format and the special cases are log 5). The sum,
the difference, the product and the quotient of finite values and the conversion of an integer are
their exact results, in units of 2^-1074, rounded once to nearest, ties to even; the results for
zeros, infinities and NaN are named one by one. The one rounding they share does so for every
quotient, and the values the other statements measure in units are those of the three fields. -/
def Obligations.RoundingIsNearestEven : Prop :=
  (∀ (neg : Bool) (num den : Nat), 0 < den → RoundsExact neg num den (f64Round neg num den)) ∧
  (∀ neg e f, unitsOf neg e f = exactUnits neg e f) ∧
  AddsExactly fadd ∧ SubtractsExactly fsub ∧ MultipliesExactly fmul ∧ DividesExactly fdiv ∧
  ∀ n : Int, RoundsUnits false (2 ^ 1074 * n) (toF64 n)

/-! ### The machine -/

/-- A raise is precise: the state afterwards is the state before the command, plus STATUS and, for a
header error of DECODE, FATAL (60_exceptions.md R331, 00_scope.md R12). -/
def Obligations.RaiseIsPrecise : Prop :=
  ∀ (s t : State) (i : Instr), exec i s = .next t → t.status ≠ 0 →
    t = { s with status := t.status, fatal := t.fatal } ∧
    (t.fatal ≠ s.fatal → i = .decode ∧ t.status = 3 ∧ t.fatal = true)

/-- No command reports a code that 60_exceptions.md R330 does not list for it. -/
def Obligations.CodesPerCommand : Prop :=
  ∀ (s t : State) (i : Instr), exec i s = .next t → t.status ∈ codesOf i

/-- Only PROBE, SYNC, DECODE, C2S, S2C and INWIN write RES, and only when they complete without
raising; RESET sets it to its reset value 0 (10_state.md R23). -/
def Obligations.ResultRegisterWriters : Prop :=
  (∀ (s t : State) (i : Instr), exec i s = .next t → i ≠ .reset →
    t.status ≠ 0 ∨
      mnemonic i ∉ ["PROBE", "SYNC", "DECODE", "C2S", "S2C", "INWIN"] → t.res = s.res) ∧
  State.reset.res = 0

/-- Only DECODE, SEEK and RESET change POS, DECODE by the length of the frame it commits; with POS
inside the stream before, it is inside the stream after (10_state.md R24, 44_control.md R302). -/
def Obligations.PositionMovers : Prop :=
  ∀ (s t : State) (i : Instr), exec i s = .next t →
    (i ≠ .decode → (∀ p, i ≠ .seek p) → i ≠ .reset → t.pos = s.pos) ∧
    (i = .decode → t.pos ≠ s.pos → ∃ f, t.fb = some f ∧ t.pos = s.pos + f.body.fl) ∧
    (s.Good → t.pos.toNat ≤ t.streamLen)

/-- No command changes the configuration, the stream, the host's pending interactions or its last
answer (10_state.md, opening paragraph; that RESET keeps them too is log 17). -/
def Obligations.CommandsKeepHostSide : Prop :=
  ∀ (s t : State) (i : Instr), exec i s = .next t →
    t.cfg = s.cfg ∧ t.stream = s.stream ∧ t.port = s.port ∧ t.reply = s.reply

/-- Each buffer has one writer: FB, FSEQ, PREV_FL and PREV_FL_VALID change only at DECODE, EB and RB
only at OBSERVE, CB only at APPLY, STAGE_EN and ACS only at CALCFG, LAYOUT only at SETLAYOUT and
PROBE, CT at no command, RESET apart (10_state.md R25, R27 to R37). -/
def Obligations.EachElementHasItsWriter : Prop :=
  ∀ (s t : State) (i : Instr), exec i s = .next t → i ≠ .reset →
    (i ≠ .decode → t.fb = s.fb ∧ t.fseq = s.fseq ∧ t.prevFl = s.prevFl ∧
      t.prevFlValid = s.prevFlValid) ∧
    (i ≠ .observe → t.eb = s.eb ∧ t.rb = s.rb) ∧
    (i ≠ .apply → t.cb = s.cb) ∧
    ((∀ m, i ≠ .calcfg m) → t.stageEn = s.stageEn ∧ t.acs = s.acs) ∧
    (i ≠ .setlayoutA → i ≠ .setlayoutB → i ≠ .probe → t.layout = s.layout) ∧
    t.ct = s.ct

/-- The invariant of the machine is kept by every step, whatever the host does, as long as the frame
counter is below its last value (log 11): POS stays in the stream, STATUS stays a code of
60_exceptions.md R320, the buffers keep their shapes, the tables their canonical form and their key
ranges, and an enabled stage keeps all its constants. -/
def Obligations.StepKeepsInvariant : Prop :=
  ∀ s t : State, s.Good → CounterRoom s → step s = .next t → t.Good

/-- From a state that meets the invariant no step faults, whatever the host does: no command reads
past the end of the stream (00_scope.md R10, 40_framer.md R158) and APPLY never meets an absent key
(43_calibration.md R263). -/
def Obligations.InvariantRulesOutFaults : Prop :=
  ∀ (s : State) (r : Fault), s.Good → step s ≠ .fault r

/-- What the host reads from each register number, bit by bit of FLAGS; 7 and above are refused, and
the read changes nothing but what the host got (10_state.md R38). -/
def Obligations.RegisterMapReads : Prop :=
  ∀ (s : State) (n : Nat), ∃ flags : Word,
    hostEvent (.readReg 0) s = .next { s with reply := some (.word (s.status.setWidth 64)) } ∧
    hostEvent (.readReg 1) s = .next { s with reply := some (.word flags) } ∧
    hostEvent (.readReg 2) s = .next { s with reply := some (.word s.res) } ∧
    hostEvent (.readReg 3) s = .next { s with reply := some (.word s.pos) } ∧
    hostEvent (.readReg 4) s = .next { s with reply := some (.word s.fseq) } ∧
    hostEvent (.readReg 5) s = .next { s with reply := some (.word s.prevFl) } ∧
    hostEvent (.readReg 6) s = .next
      { s with reply := some (.word (BitVec.ofNat 64 s.streamLen)) } ∧
    (7 ≤ n → hostEvent (.readReg n) s = .refused (.reservedRegister n)) ∧
    flags.getLsbD 0 = s.fatal ∧
    (flags.getLsbD 1 = true ↔ s.trk = .invalidatedOnce) ∧
    (flags.extractLsb' 2 2 = 0 ↔ s.layout = none) ∧
    (flags.extractLsb' 2 2 = 1 ↔ s.layout = some .a) ∧
    (flags.extractLsb' 2 2 = 2 ↔ s.layout = some .b) ∧
    flags.getLsbD 4 = s.fb.isSome ∧
    (flags.getLsbD 5 = true ↔ TimesCurrent s) ∧
    (flags.getLsbD 6 = true ↔ CorrectionCurrent s) ∧
    flags.getLsbD 7 = s.prevFlValid ∧
    flags.extractLsb' 8 4 = s.stageEn ∧
    flags.extractLsb' 12 52 = 0

/-- Every field and every element of FB, CB and EB on the buffer read port: refused while the buffer is
not valid or the index is outside it; otherwise the answer is the field or the element, and nothing
changes but what the host got (10_state.md R31, R33, R34, R39; that a field other than an element is
refused too while the buffer is not valid is log 10). -/
def Obligations.BufferPortReadsElements : Prop :=
  ∀ s : State, s.Good →
    FramePortReads s .fb s.fb ∧ FramePortReads s .cb s.cb ∧ ElapsedPortReads s

/-- Once a command has read the stream, no step but a reset changes the stream: SYNC, DECODE and PROBE
fix it, and the host has no move that changes it (20_memory.md R61, 70_reset_and_hazards.md R368;
how the model says so is log 14). -/
def Obligations.FixedStreamStays : Prop :=
  (∀ (s t : State) (w : Word) (rest : List HostEvent) (i : Instr), s.port = .command w :: rest →
    decode w = .ok i → i ∈ [Instr.sync, .decode, .probe] → step s = .next t →
      t.streamFixed = true) ∧
  ∀ s t : State, s.streamFixed = true → step s = .next t →
    t.stream = s.stream ∧ (t.streamFixed = true ∨ AtReset t)

/-- Every line of the syntax is assembled to the word of its command; an operand that does not fit its
field, of 48 bits for `seek` and 16 bits for the others, is refused rather than truncated, and one
that fits is assembled unchanged, be it out of range for the command. Operands are decimal or `0x`
hexadecimal integers, and what follows a `;` is a comment (30_encoding.md R140; the assembler, and
the one blank a line has here after its mnemonic and its commas, are log 21). -/
def Obligations.AssemblerRefusesWideOperands : Prop :=
  (∀ p ∈ fixedLines, AssemblesTo p.1.toList p.2) ∧
  OneOperandLine "seek" 48 .seek ∧ OneOperandLine "calcfg" 16 .calcfg ∧
  TwoOperandLine "c2s" .c2s ∧ TwoOperandLine "s2c" .s2c ∧ ThreeOperandLine "inwin" .inwin ∧
  (∀ n : Nat, asmNumber (Nat.toDigits 10 n) = .ok n ∧
    asmNumber ('0' :: 'x' :: Nat.toDigits 16 n) = .ok n) ∧
  ∀ line comment : List Char, assembleLine (line ++ ';' :: comment) = assembleLine line

/-- The pseudo-instructions expand as 30_encoding.md R141 says; `next` goes on only while the last
command reported OK. -/
def Obligations.PseudoInstructionsExpand : Prop :=
  assembleLine "next".toList = .ok [.command (encode .decode), .commandIfOk (encode .observe),
    .commandIfOk (encode .apply)] ∧
  assembleLine "rewind".toList = .ok [.command (encode (.seek 0))] ∧
  assembleLine "calcfg none".toList = .ok [.command (encode (.calcfg 0))] ∧
  assembleLine "calcfg all".toList = .ok [.command (encode (.calcfg 15))]

end
end

