-- ==== Sys2Proof/Laws/State.lean ====
section
/-! SUPPORT. One lemma per field of State and per named update of Ops.lean, true by unfolding, so that
no later proof unfolds a record update. -/

namespace Sys2Proof.Machine

variable (s : State)

/-! ### withStatus -/

@[simp] theorem State.withStatus_cfg (b : Byte) : (s.withStatus b).cfg = s.cfg := rfl
@[simp] theorem State.withStatus_stream (b : Byte) : (s.withStatus b).stream = s.stream := rfl
@[simp] theorem State.withStatus_streamFixed (b : Byte) : (s.withStatus b).streamFixed = s.streamFixed := rfl
@[simp] theorem State.withStatus_port (b : Byte) : (s.withStatus b).port = s.port := rfl
@[simp] theorem State.withStatus_reply (b : Byte) : (s.withStatus b).reply = s.reply := rfl
@[simp] theorem State.withStatus_status (b : Byte) : (s.withStatus b).status = b := rfl
@[simp] theorem State.withStatus_res (b : Byte) : (s.withStatus b).res = s.res := rfl
@[simp] theorem State.withStatus_pos (b : Byte) : (s.withStatus b).pos = s.pos := rfl
@[simp] theorem State.withStatus_layout (b : Byte) : (s.withStatus b).layout = s.layout := rfl
@[simp] theorem State.withStatus_fatal (b : Byte) : (s.withStatus b).fatal = s.fatal := rfl
@[simp] theorem State.withStatus_prevFl (b : Byte) : (s.withStatus b).prevFl = s.prevFl := rfl
@[simp] theorem State.withStatus_prevFlValid (b : Byte) : (s.withStatus b).prevFlValid = s.prevFlValid := rfl
@[simp] theorem State.withStatus_fseq (b : Byte) : (s.withStatus b).fseq = s.fseq := rfl
@[simp] theorem State.withStatus_trk (b : Byte) : (s.withStatus b).trk = s.trk := rfl
@[simp] theorem State.withStatus_rb (b : Byte) : (s.withStatus b).rb = s.rb := rfl
@[simp] theorem State.withStatus_fb (b : Byte) : (s.withStatus b).fb = s.fb := rfl
@[simp] theorem State.withStatus_eb (b : Byte) : (s.withStatus b).eb = s.eb := rfl
@[simp] theorem State.withStatus_cb (b : Byte) : (s.withStatus b).cb = s.cb := rfl
@[simp] theorem State.withStatus_stageEn (b : Byte) : (s.withStatus b).stageEn = s.stageEn := rfl
@[simp] theorem State.withStatus_acs (b : Byte) : (s.withStatus b).acs = s.acs := rfl
@[simp] theorem State.withStatus_ct (b : Byte) : (s.withStatus b).ct = s.ct := rfl

/-! ### withRes -/

@[simp] theorem State.withRes_cfg (w : Word) : (s.withRes w).cfg = s.cfg := rfl
@[simp] theorem State.withRes_stream (w : Word) : (s.withRes w).stream = s.stream := rfl
@[simp] theorem State.withRes_streamFixed (w : Word) : (s.withRes w).streamFixed = s.streamFixed := rfl
@[simp] theorem State.withRes_port (w : Word) : (s.withRes w).port = s.port := rfl
@[simp] theorem State.withRes_reply (w : Word) : (s.withRes w).reply = s.reply := rfl
@[simp] theorem State.withRes_status (w : Word) : (s.withRes w).status = s.status := rfl
@[simp] theorem State.withRes_res (w : Word) : (s.withRes w).res = w := rfl
@[simp] theorem State.withRes_pos (w : Word) : (s.withRes w).pos = s.pos := rfl
@[simp] theorem State.withRes_layout (w : Word) : (s.withRes w).layout = s.layout := rfl
@[simp] theorem State.withRes_fatal (w : Word) : (s.withRes w).fatal = s.fatal := rfl
@[simp] theorem State.withRes_prevFl (w : Word) : (s.withRes w).prevFl = s.prevFl := rfl
@[simp] theorem State.withRes_prevFlValid (w : Word) : (s.withRes w).prevFlValid = s.prevFlValid := rfl
@[simp] theorem State.withRes_fseq (w : Word) : (s.withRes w).fseq = s.fseq := rfl
@[simp] theorem State.withRes_trk (w : Word) : (s.withRes w).trk = s.trk := rfl
@[simp] theorem State.withRes_rb (w : Word) : (s.withRes w).rb = s.rb := rfl
@[simp] theorem State.withRes_fb (w : Word) : (s.withRes w).fb = s.fb := rfl
@[simp] theorem State.withRes_eb (w : Word) : (s.withRes w).eb = s.eb := rfl
@[simp] theorem State.withRes_cb (w : Word) : (s.withRes w).cb = s.cb := rfl
@[simp] theorem State.withRes_stageEn (w : Word) : (s.withRes w).stageEn = s.stageEn := rfl
@[simp] theorem State.withRes_acs (w : Word) : (s.withRes w).acs = s.acs := rfl
@[simp] theorem State.withRes_ct (w : Word) : (s.withRes w).ct = s.ct := rfl

/-! ### withPos -/

@[simp] theorem State.withPos_cfg (p : Word) : (s.withPos p).cfg = s.cfg := rfl
@[simp] theorem State.withPos_stream (p : Word) : (s.withPos p).stream = s.stream := rfl
@[simp] theorem State.withPos_streamFixed (p : Word) : (s.withPos p).streamFixed = s.streamFixed := rfl
@[simp] theorem State.withPos_port (p : Word) : (s.withPos p).port = s.port := rfl
@[simp] theorem State.withPos_reply (p : Word) : (s.withPos p).reply = s.reply := rfl
@[simp] theorem State.withPos_status (p : Word) : (s.withPos p).status = s.status := rfl
@[simp] theorem State.withPos_res (p : Word) : (s.withPos p).res = s.res := rfl
@[simp] theorem State.withPos_pos (p : Word) : (s.withPos p).pos = p := rfl
@[simp] theorem State.withPos_layout (p : Word) : (s.withPos p).layout = s.layout := rfl
@[simp] theorem State.withPos_fatal (p : Word) : (s.withPos p).fatal = s.fatal := rfl
@[simp] theorem State.withPos_prevFl (p : Word) : (s.withPos p).prevFl = s.prevFl := rfl
@[simp] theorem State.withPos_prevFlValid (p : Word) : (s.withPos p).prevFlValid = s.prevFlValid := rfl
@[simp] theorem State.withPos_fseq (p : Word) : (s.withPos p).fseq = s.fseq := rfl
@[simp] theorem State.withPos_trk (p : Word) : (s.withPos p).trk = s.trk := rfl
@[simp] theorem State.withPos_rb (p : Word) : (s.withPos p).rb = s.rb := rfl
@[simp] theorem State.withPos_fb (p : Word) : (s.withPos p).fb = s.fb := rfl
@[simp] theorem State.withPos_eb (p : Word) : (s.withPos p).eb = s.eb := rfl
@[simp] theorem State.withPos_cb (p : Word) : (s.withPos p).cb = s.cb := rfl
@[simp] theorem State.withPos_stageEn (p : Word) : (s.withPos p).stageEn = s.stageEn := rfl
@[simp] theorem State.withPos_acs (p : Word) : (s.withPos p).acs = s.acs := rfl
@[simp] theorem State.withPos_ct (p : Word) : (s.withPos p).ct = s.ct := rfl

/-! ### withLayout -/

@[simp] theorem State.withLayout_cfg (l : Option Layout) : (s.withLayout l).cfg = s.cfg := rfl
@[simp] theorem State.withLayout_stream (l : Option Layout) : (s.withLayout l).stream = s.stream := rfl
@[simp] theorem State.withLayout_streamFixed (l : Option Layout) : (s.withLayout l).streamFixed = s.streamFixed := rfl
@[simp] theorem State.withLayout_port (l : Option Layout) : (s.withLayout l).port = s.port := rfl
@[simp] theorem State.withLayout_reply (l : Option Layout) : (s.withLayout l).reply = s.reply := rfl
@[simp] theorem State.withLayout_status (l : Option Layout) : (s.withLayout l).status = s.status := rfl
@[simp] theorem State.withLayout_res (l : Option Layout) : (s.withLayout l).res = s.res := rfl
@[simp] theorem State.withLayout_pos (l : Option Layout) : (s.withLayout l).pos = s.pos := rfl
@[simp] theorem State.withLayout_layout (l : Option Layout) : (s.withLayout l).layout = l := rfl
@[simp] theorem State.withLayout_fatal (l : Option Layout) : (s.withLayout l).fatal = s.fatal := rfl
@[simp] theorem State.withLayout_prevFl (l : Option Layout) : (s.withLayout l).prevFl = s.prevFl := rfl
@[simp] theorem State.withLayout_prevFlValid (l : Option Layout) : (s.withLayout l).prevFlValid = s.prevFlValid := rfl
@[simp] theorem State.withLayout_fseq (l : Option Layout) : (s.withLayout l).fseq = s.fseq := rfl
@[simp] theorem State.withLayout_trk (l : Option Layout) : (s.withLayout l).trk = s.trk := rfl
@[simp] theorem State.withLayout_rb (l : Option Layout) : (s.withLayout l).rb = s.rb := rfl
@[simp] theorem State.withLayout_fb (l : Option Layout) : (s.withLayout l).fb = s.fb := rfl
@[simp] theorem State.withLayout_eb (l : Option Layout) : (s.withLayout l).eb = s.eb := rfl
@[simp] theorem State.withLayout_cb (l : Option Layout) : (s.withLayout l).cb = s.cb := rfl
@[simp] theorem State.withLayout_stageEn (l : Option Layout) : (s.withLayout l).stageEn = s.stageEn := rfl
@[simp] theorem State.withLayout_acs (l : Option Layout) : (s.withLayout l).acs = s.acs := rfl
@[simp] theorem State.withLayout_ct (l : Option Layout) : (s.withLayout l).ct = s.ct := rfl

/-! ### withFatal -/

@[simp] theorem State.withFatal_cfg (b : Bool) : (s.withFatal b).cfg = s.cfg := rfl
@[simp] theorem State.withFatal_stream (b : Bool) : (s.withFatal b).stream = s.stream := rfl
@[simp] theorem State.withFatal_streamFixed (b : Bool) : (s.withFatal b).streamFixed = s.streamFixed := rfl
@[simp] theorem State.withFatal_port (b : Bool) : (s.withFatal b).port = s.port := rfl
@[simp] theorem State.withFatal_reply (b : Bool) : (s.withFatal b).reply = s.reply := rfl
@[simp] theorem State.withFatal_status (b : Bool) : (s.withFatal b).status = s.status := rfl
@[simp] theorem State.withFatal_res (b : Bool) : (s.withFatal b).res = s.res := rfl
@[simp] theorem State.withFatal_pos (b : Bool) : (s.withFatal b).pos = s.pos := rfl
@[simp] theorem State.withFatal_layout (b : Bool) : (s.withFatal b).layout = s.layout := rfl
@[simp] theorem State.withFatal_fatal (b : Bool) : (s.withFatal b).fatal = b := rfl
@[simp] theorem State.withFatal_prevFl (b : Bool) : (s.withFatal b).prevFl = s.prevFl := rfl
@[simp] theorem State.withFatal_prevFlValid (b : Bool) : (s.withFatal b).prevFlValid = s.prevFlValid := rfl
@[simp] theorem State.withFatal_fseq (b : Bool) : (s.withFatal b).fseq = s.fseq := rfl
@[simp] theorem State.withFatal_trk (b : Bool) : (s.withFatal b).trk = s.trk := rfl
@[simp] theorem State.withFatal_rb (b : Bool) : (s.withFatal b).rb = s.rb := rfl
@[simp] theorem State.withFatal_fb (b : Bool) : (s.withFatal b).fb = s.fb := rfl
@[simp] theorem State.withFatal_eb (b : Bool) : (s.withFatal b).eb = s.eb := rfl
@[simp] theorem State.withFatal_cb (b : Bool) : (s.withFatal b).cb = s.cb := rfl
@[simp] theorem State.withFatal_stageEn (b : Bool) : (s.withFatal b).stageEn = s.stageEn := rfl
@[simp] theorem State.withFatal_acs (b : Bool) : (s.withFatal b).acs = s.acs := rfl
@[simp] theorem State.withFatal_ct (b : Bool) : (s.withFatal b).ct = s.ct := rfl

/-! ### withPrevFl -/

@[simp] theorem State.withPrevFl_cfg (w : Word) : (s.withPrevFl w).cfg = s.cfg := rfl
@[simp] theorem State.withPrevFl_stream (w : Word) : (s.withPrevFl w).stream = s.stream := rfl
@[simp] theorem State.withPrevFl_streamFixed (w : Word) : (s.withPrevFl w).streamFixed = s.streamFixed := rfl
@[simp] theorem State.withPrevFl_port (w : Word) : (s.withPrevFl w).port = s.port := rfl
@[simp] theorem State.withPrevFl_reply (w : Word) : (s.withPrevFl w).reply = s.reply := rfl
@[simp] theorem State.withPrevFl_status (w : Word) : (s.withPrevFl w).status = s.status := rfl
@[simp] theorem State.withPrevFl_res (w : Word) : (s.withPrevFl w).res = s.res := rfl
@[simp] theorem State.withPrevFl_pos (w : Word) : (s.withPrevFl w).pos = s.pos := rfl
@[simp] theorem State.withPrevFl_layout (w : Word) : (s.withPrevFl w).layout = s.layout := rfl
@[simp] theorem State.withPrevFl_fatal (w : Word) : (s.withPrevFl w).fatal = s.fatal := rfl
@[simp] theorem State.withPrevFl_prevFl (w : Word) : (s.withPrevFl w).prevFl = w := rfl
@[simp] theorem State.withPrevFl_prevFlValid (w : Word) : (s.withPrevFl w).prevFlValid = true := rfl
@[simp] theorem State.withPrevFl_fseq (w : Word) : (s.withPrevFl w).fseq = s.fseq := rfl
@[simp] theorem State.withPrevFl_trk (w : Word) : (s.withPrevFl w).trk = s.trk := rfl
@[simp] theorem State.withPrevFl_rb (w : Word) : (s.withPrevFl w).rb = s.rb := rfl
@[simp] theorem State.withPrevFl_fb (w : Word) : (s.withPrevFl w).fb = s.fb := rfl
@[simp] theorem State.withPrevFl_eb (w : Word) : (s.withPrevFl w).eb = s.eb := rfl
@[simp] theorem State.withPrevFl_cb (w : Word) : (s.withPrevFl w).cb = s.cb := rfl
@[simp] theorem State.withPrevFl_stageEn (w : Word) : (s.withPrevFl w).stageEn = s.stageEn := rfl
@[simp] theorem State.withPrevFl_acs (w : Word) : (s.withPrevFl w).acs = s.acs := rfl
@[simp] theorem State.withPrevFl_ct (w : Word) : (s.withPrevFl w).ct = s.ct := rfl

/-! ### withFrame -/

@[simp] theorem State.withFrame_cfg (f : Frame) : (s.withFrame f).cfg = s.cfg := rfl
@[simp] theorem State.withFrame_stream (f : Frame) : (s.withFrame f).stream = s.stream := rfl
@[simp] theorem State.withFrame_streamFixed (f : Frame) : (s.withFrame f).streamFixed = s.streamFixed := rfl
@[simp] theorem State.withFrame_port (f : Frame) : (s.withFrame f).port = s.port := rfl
@[simp] theorem State.withFrame_reply (f : Frame) : (s.withFrame f).reply = s.reply := rfl
@[simp] theorem State.withFrame_status (f : Frame) : (s.withFrame f).status = s.status := rfl
@[simp] theorem State.withFrame_res (f : Frame) : (s.withFrame f).res = s.res := rfl
@[simp] theorem State.withFrame_pos (f : Frame) : (s.withFrame f).pos = s.pos := rfl
@[simp] theorem State.withFrame_layout (f : Frame) : (s.withFrame f).layout = s.layout := rfl
@[simp] theorem State.withFrame_fatal (f : Frame) : (s.withFrame f).fatal = s.fatal := rfl
@[simp] theorem State.withFrame_prevFl (f : Frame) : (s.withFrame f).prevFl = s.prevFl := rfl
@[simp] theorem State.withFrame_prevFlValid (f : Frame) : (s.withFrame f).prevFlValid = s.prevFlValid := rfl
@[simp] theorem State.withFrame_fseq (f : Frame) : (s.withFrame f).fseq = f.seq := rfl
@[simp] theorem State.withFrame_trk (f : Frame) : (s.withFrame f).trk = s.trk := rfl
@[simp] theorem State.withFrame_rb (f : Frame) : (s.withFrame f).rb = s.rb := rfl
@[simp] theorem State.withFrame_fb (f : Frame) : (s.withFrame f).fb = some f := rfl
@[simp] theorem State.withFrame_eb (f : Frame) : (s.withFrame f).eb = s.eb := rfl
@[simp] theorem State.withFrame_cb (f : Frame) : (s.withFrame f).cb = s.cb := rfl
@[simp] theorem State.withFrame_stageEn (f : Frame) : (s.withFrame f).stageEn = s.stageEn := rfl
@[simp] theorem State.withFrame_acs (f : Frame) : (s.withFrame f).acs = s.acs := rfl
@[simp] theorem State.withFrame_ct (f : Frame) : (s.withFrame f).ct = s.ct := rfl

/-! ### withTrk -/

@[simp] theorem State.withTrk_cfg (t : Tracker) : (s.withTrk t).cfg = s.cfg := rfl
@[simp] theorem State.withTrk_stream (t : Tracker) : (s.withTrk t).stream = s.stream := rfl
@[simp] theorem State.withTrk_streamFixed (t : Tracker) : (s.withTrk t).streamFixed = s.streamFixed := rfl
@[simp] theorem State.withTrk_port (t : Tracker) : (s.withTrk t).port = s.port := rfl
@[simp] theorem State.withTrk_reply (t : Tracker) : (s.withTrk t).reply = s.reply := rfl
@[simp] theorem State.withTrk_status (t : Tracker) : (s.withTrk t).status = s.status := rfl
@[simp] theorem State.withTrk_res (t : Tracker) : (s.withTrk t).res = s.res := rfl
@[simp] theorem State.withTrk_pos (t : Tracker) : (s.withTrk t).pos = s.pos := rfl
@[simp] theorem State.withTrk_layout (t : Tracker) : (s.withTrk t).layout = s.layout := rfl
@[simp] theorem State.withTrk_fatal (t : Tracker) : (s.withTrk t).fatal = s.fatal := rfl
@[simp] theorem State.withTrk_prevFl (t : Tracker) : (s.withTrk t).prevFl = s.prevFl := rfl
@[simp] theorem State.withTrk_prevFlValid (t : Tracker) : (s.withTrk t).prevFlValid = s.prevFlValid := rfl
@[simp] theorem State.withTrk_fseq (t : Tracker) : (s.withTrk t).fseq = s.fseq := rfl
@[simp] theorem State.withTrk_trk (t : Tracker) : (s.withTrk t).trk = t := rfl
@[simp] theorem State.withTrk_rb (t : Tracker) : (s.withTrk t).rb = s.rb := rfl
@[simp] theorem State.withTrk_fb (t : Tracker) : (s.withTrk t).fb = s.fb := rfl
@[simp] theorem State.withTrk_eb (t : Tracker) : (s.withTrk t).eb = s.eb := rfl
@[simp] theorem State.withTrk_cb (t : Tracker) : (s.withTrk t).cb = s.cb := rfl
@[simp] theorem State.withTrk_stageEn (t : Tracker) : (s.withTrk t).stageEn = s.stageEn := rfl
@[simp] theorem State.withTrk_acs (t : Tracker) : (s.withTrk t).acs = s.acs := rfl
@[simp] theorem State.withTrk_ct (t : Tracker) : (s.withTrk t).ct = s.ct := rfl

/-! ### withRb -/

@[simp] theorem State.withRb_cfg (r : Runs F64) : (s.withRb r).cfg = s.cfg := rfl
@[simp] theorem State.withRb_stream (r : Runs F64) : (s.withRb r).stream = s.stream := rfl
@[simp] theorem State.withRb_streamFixed (r : Runs F64) : (s.withRb r).streamFixed = s.streamFixed := rfl
@[simp] theorem State.withRb_port (r : Runs F64) : (s.withRb r).port = s.port := rfl
@[simp] theorem State.withRb_reply (r : Runs F64) : (s.withRb r).reply = s.reply := rfl
@[simp] theorem State.withRb_status (r : Runs F64) : (s.withRb r).status = s.status := rfl
@[simp] theorem State.withRb_res (r : Runs F64) : (s.withRb r).res = s.res := rfl
@[simp] theorem State.withRb_pos (r : Runs F64) : (s.withRb r).pos = s.pos := rfl
@[simp] theorem State.withRb_layout (r : Runs F64) : (s.withRb r).layout = s.layout := rfl
@[simp] theorem State.withRb_fatal (r : Runs F64) : (s.withRb r).fatal = s.fatal := rfl
@[simp] theorem State.withRb_prevFl (r : Runs F64) : (s.withRb r).prevFl = s.prevFl := rfl
@[simp] theorem State.withRb_prevFlValid (r : Runs F64) : (s.withRb r).prevFlValid = s.prevFlValid := rfl
@[simp] theorem State.withRb_fseq (r : Runs F64) : (s.withRb r).fseq = s.fseq := rfl
@[simp] theorem State.withRb_trk (r : Runs F64) : (s.withRb r).trk = s.trk := rfl
@[simp] theorem State.withRb_rb (r : Runs F64) : (s.withRb r).rb = r := rfl
@[simp] theorem State.withRb_fb (r : Runs F64) : (s.withRb r).fb = s.fb := rfl
@[simp] theorem State.withRb_eb (r : Runs F64) : (s.withRb r).eb = s.eb := rfl
@[simp] theorem State.withRb_cb (r : Runs F64) : (s.withRb r).cb = s.cb := rfl
@[simp] theorem State.withRb_stageEn (r : Runs F64) : (s.withRb r).stageEn = s.stageEn := rfl
@[simp] theorem State.withRb_acs (r : Runs F64) : (s.withRb r).acs = s.acs := rfl
@[simp] theorem State.withRb_ct (r : Runs F64) : (s.withRb r).ct = s.ct := rfl

/-! ### withElapsed -/

@[simp] theorem State.withElapsed_cfg (e : Elapsed) : (s.withElapsed e).cfg = s.cfg := rfl
@[simp] theorem State.withElapsed_stream (e : Elapsed) : (s.withElapsed e).stream = s.stream := rfl
@[simp] theorem State.withElapsed_streamFixed (e : Elapsed) : (s.withElapsed e).streamFixed = s.streamFixed := rfl
@[simp] theorem State.withElapsed_port (e : Elapsed) : (s.withElapsed e).port = s.port := rfl
@[simp] theorem State.withElapsed_reply (e : Elapsed) : (s.withElapsed e).reply = s.reply := rfl
@[simp] theorem State.withElapsed_status (e : Elapsed) : (s.withElapsed e).status = s.status := rfl
@[simp] theorem State.withElapsed_res (e : Elapsed) : (s.withElapsed e).res = s.res := rfl
@[simp] theorem State.withElapsed_pos (e : Elapsed) : (s.withElapsed e).pos = s.pos := rfl
@[simp] theorem State.withElapsed_layout (e : Elapsed) : (s.withElapsed e).layout = s.layout := rfl
@[simp] theorem State.withElapsed_fatal (e : Elapsed) : (s.withElapsed e).fatal = s.fatal := rfl
@[simp] theorem State.withElapsed_prevFl (e : Elapsed) : (s.withElapsed e).prevFl = s.prevFl := rfl
@[simp] theorem State.withElapsed_prevFlValid (e : Elapsed) : (s.withElapsed e).prevFlValid = s.prevFlValid := rfl
@[simp] theorem State.withElapsed_fseq (e : Elapsed) : (s.withElapsed e).fseq = s.fseq := rfl
@[simp] theorem State.withElapsed_trk (e : Elapsed) : (s.withElapsed e).trk = s.trk := rfl
@[simp] theorem State.withElapsed_rb (e : Elapsed) : (s.withElapsed e).rb = s.rb := rfl
@[simp] theorem State.withElapsed_fb (e : Elapsed) : (s.withElapsed e).fb = s.fb := rfl
@[simp] theorem State.withElapsed_eb (e : Elapsed) : (s.withElapsed e).eb = some e := rfl
@[simp] theorem State.withElapsed_cb (e : Elapsed) : (s.withElapsed e).cb = s.cb := rfl
@[simp] theorem State.withElapsed_stageEn (e : Elapsed) : (s.withElapsed e).stageEn = s.stageEn := rfl
@[simp] theorem State.withElapsed_acs (e : Elapsed) : (s.withElapsed e).acs = s.acs := rfl
@[simp] theorem State.withElapsed_ct (e : Elapsed) : (s.withElapsed e).ct = s.ct := rfl

/-! ### withCorrected -/

@[simp] theorem State.withCorrected_cfg (f : Frame) : (s.withCorrected f).cfg = s.cfg := rfl
@[simp] theorem State.withCorrected_stream (f : Frame) : (s.withCorrected f).stream = s.stream := rfl
@[simp] theorem State.withCorrected_streamFixed (f : Frame) : (s.withCorrected f).streamFixed = s.streamFixed := rfl
@[simp] theorem State.withCorrected_port (f : Frame) : (s.withCorrected f).port = s.port := rfl
@[simp] theorem State.withCorrected_reply (f : Frame) : (s.withCorrected f).reply = s.reply := rfl
@[simp] theorem State.withCorrected_status (f : Frame) : (s.withCorrected f).status = s.status := rfl
@[simp] theorem State.withCorrected_res (f : Frame) : (s.withCorrected f).res = s.res := rfl
@[simp] theorem State.withCorrected_pos (f : Frame) : (s.withCorrected f).pos = s.pos := rfl
@[simp] theorem State.withCorrected_layout (f : Frame) : (s.withCorrected f).layout = s.layout := rfl
@[simp] theorem State.withCorrected_fatal (f : Frame) : (s.withCorrected f).fatal = s.fatal := rfl
@[simp] theorem State.withCorrected_prevFl (f : Frame) : (s.withCorrected f).prevFl = s.prevFl := rfl
@[simp] theorem State.withCorrected_prevFlValid (f : Frame) : (s.withCorrected f).prevFlValid = s.prevFlValid := rfl
@[simp] theorem State.withCorrected_fseq (f : Frame) : (s.withCorrected f).fseq = s.fseq := rfl
@[simp] theorem State.withCorrected_trk (f : Frame) : (s.withCorrected f).trk = s.trk := rfl
@[simp] theorem State.withCorrected_rb (f : Frame) : (s.withCorrected f).rb = s.rb := rfl
@[simp] theorem State.withCorrected_fb (f : Frame) : (s.withCorrected f).fb = s.fb := rfl
@[simp] theorem State.withCorrected_eb (f : Frame) : (s.withCorrected f).eb = s.eb := rfl
@[simp] theorem State.withCorrected_cb (f : Frame) : (s.withCorrected f).cb = some f := rfl
@[simp] theorem State.withCorrected_stageEn (f : Frame) : (s.withCorrected f).stageEn = s.stageEn := rfl
@[simp] theorem State.withCorrected_acs (f : Frame) : (s.withCorrected f).acs = s.acs := rfl
@[simp] theorem State.withCorrected_ct (f : Frame) : (s.withCorrected f).ct = s.ct := rfl

/-! ### withPipeline -/

@[simp] theorem State.withPipeline_cfg (en : BitVec 4) (a : CalStore) : (s.withPipeline en a).cfg = s.cfg := rfl
@[simp] theorem State.withPipeline_stream (en : BitVec 4) (a : CalStore) : (s.withPipeline en a).stream = s.stream := rfl
@[simp] theorem State.withPipeline_streamFixed (en : BitVec 4) (a : CalStore) : (s.withPipeline en a).streamFixed = s.streamFixed := rfl
@[simp] theorem State.withPipeline_port (en : BitVec 4) (a : CalStore) : (s.withPipeline en a).port = s.port := rfl
@[simp] theorem State.withPipeline_reply (en : BitVec 4) (a : CalStore) : (s.withPipeline en a).reply = s.reply := rfl
@[simp] theorem State.withPipeline_status (en : BitVec 4) (a : CalStore) : (s.withPipeline en a).status = s.status := rfl
@[simp] theorem State.withPipeline_res (en : BitVec 4) (a : CalStore) : (s.withPipeline en a).res = s.res := rfl
@[simp] theorem State.withPipeline_pos (en : BitVec 4) (a : CalStore) : (s.withPipeline en a).pos = s.pos := rfl
@[simp] theorem State.withPipeline_layout (en : BitVec 4) (a : CalStore) : (s.withPipeline en a).layout = s.layout := rfl
@[simp] theorem State.withPipeline_fatal (en : BitVec 4) (a : CalStore) : (s.withPipeline en a).fatal = s.fatal := rfl
@[simp] theorem State.withPipeline_prevFl (en : BitVec 4) (a : CalStore) : (s.withPipeline en a).prevFl = s.prevFl := rfl
@[simp] theorem State.withPipeline_prevFlValid (en : BitVec 4) (a : CalStore) : (s.withPipeline en a).prevFlValid = s.prevFlValid := rfl
@[simp] theorem State.withPipeline_fseq (en : BitVec 4) (a : CalStore) : (s.withPipeline en a).fseq = s.fseq := rfl
@[simp] theorem State.withPipeline_trk (en : BitVec 4) (a : CalStore) : (s.withPipeline en a).trk = s.trk := rfl
@[simp] theorem State.withPipeline_rb (en : BitVec 4) (a : CalStore) : (s.withPipeline en a).rb = s.rb := rfl
@[simp] theorem State.withPipeline_fb (en : BitVec 4) (a : CalStore) : (s.withPipeline en a).fb = s.fb := rfl
@[simp] theorem State.withPipeline_eb (en : BitVec 4) (a : CalStore) : (s.withPipeline en a).eb = s.eb := rfl
@[simp] theorem State.withPipeline_cb (en : BitVec 4) (a : CalStore) : (s.withPipeline en a).cb = s.cb := rfl
@[simp] theorem State.withPipeline_stageEn (en : BitVec 4) (a : CalStore) : (s.withPipeline en a).stageEn = en := rfl
@[simp] theorem State.withPipeline_acs (en : BitVec 4) (a : CalStore) : (s.withPipeline en a).acs = a := rfl
@[simp] theorem State.withPipeline_ct (en : BitVec 4) (a : CalStore) : (s.withPipeline en a).ct = s.ct := rfl

/-! ### withCt -/

@[simp] theorem State.withCt_cfg (c : CalStore) : (s.withCt c).cfg = s.cfg := rfl
@[simp] theorem State.withCt_stream (c : CalStore) : (s.withCt c).stream = s.stream := rfl
@[simp] theorem State.withCt_streamFixed (c : CalStore) : (s.withCt c).streamFixed = s.streamFixed := rfl
@[simp] theorem State.withCt_port (c : CalStore) : (s.withCt c).port = s.port := rfl
@[simp] theorem State.withCt_reply (c : CalStore) : (s.withCt c).reply = s.reply := rfl
@[simp] theorem State.withCt_status (c : CalStore) : (s.withCt c).status = s.status := rfl
@[simp] theorem State.withCt_res (c : CalStore) : (s.withCt c).res = s.res := rfl
@[simp] theorem State.withCt_pos (c : CalStore) : (s.withCt c).pos = s.pos := rfl
@[simp] theorem State.withCt_layout (c : CalStore) : (s.withCt c).layout = s.layout := rfl
@[simp] theorem State.withCt_fatal (c : CalStore) : (s.withCt c).fatal = s.fatal := rfl
@[simp] theorem State.withCt_prevFl (c : CalStore) : (s.withCt c).prevFl = s.prevFl := rfl
@[simp] theorem State.withCt_prevFlValid (c : CalStore) : (s.withCt c).prevFlValid = s.prevFlValid := rfl
@[simp] theorem State.withCt_fseq (c : CalStore) : (s.withCt c).fseq = s.fseq := rfl
@[simp] theorem State.withCt_trk (c : CalStore) : (s.withCt c).trk = s.trk := rfl
@[simp] theorem State.withCt_rb (c : CalStore) : (s.withCt c).rb = s.rb := rfl
@[simp] theorem State.withCt_fb (c : CalStore) : (s.withCt c).fb = s.fb := rfl
@[simp] theorem State.withCt_eb (c : CalStore) : (s.withCt c).eb = s.eb := rfl
@[simp] theorem State.withCt_cb (c : CalStore) : (s.withCt c).cb = s.cb := rfl
@[simp] theorem State.withCt_stageEn (c : CalStore) : (s.withCt c).stageEn = s.stageEn := rfl
@[simp] theorem State.withCt_acs (c : CalStore) : (s.withCt c).acs = s.acs := rfl
@[simp] theorem State.withCt_ct (c : CalStore) : (s.withCt c).ct = c := rfl

/-! ### withStream -/

@[simp] theorem State.withStream_cfg (m : Memory) : (s.withStream m).cfg = s.cfg := rfl
@[simp] theorem State.withStream_stream (m : Memory) : (s.withStream m).stream = m := rfl
@[simp] theorem State.withStream_streamFixed (m : Memory) : (s.withStream m).streamFixed = true := rfl
@[simp] theorem State.withStream_port (m : Memory) : (s.withStream m).port = s.port := rfl
@[simp] theorem State.withStream_reply (m : Memory) : (s.withStream m).reply = s.reply := rfl
@[simp] theorem State.withStream_status (m : Memory) : (s.withStream m).status = s.status := rfl
@[simp] theorem State.withStream_res (m : Memory) : (s.withStream m).res = s.res := rfl
@[simp] theorem State.withStream_pos (m : Memory) : (s.withStream m).pos = s.pos := rfl
@[simp] theorem State.withStream_layout (m : Memory) : (s.withStream m).layout = s.layout := rfl
@[simp] theorem State.withStream_fatal (m : Memory) : (s.withStream m).fatal = s.fatal := rfl
@[simp] theorem State.withStream_prevFl (m : Memory) : (s.withStream m).prevFl = s.prevFl := rfl
@[simp] theorem State.withStream_prevFlValid (m : Memory) : (s.withStream m).prevFlValid = s.prevFlValid := rfl
@[simp] theorem State.withStream_fseq (m : Memory) : (s.withStream m).fseq = s.fseq := rfl
@[simp] theorem State.withStream_trk (m : Memory) : (s.withStream m).trk = s.trk := rfl
@[simp] theorem State.withStream_rb (m : Memory) : (s.withStream m).rb = s.rb := rfl
@[simp] theorem State.withStream_fb (m : Memory) : (s.withStream m).fb = s.fb := rfl
@[simp] theorem State.withStream_eb (m : Memory) : (s.withStream m).eb = s.eb := rfl
@[simp] theorem State.withStream_cb (m : Memory) : (s.withStream m).cb = s.cb := rfl
@[simp] theorem State.withStream_stageEn (m : Memory) : (s.withStream m).stageEn = s.stageEn := rfl
@[simp] theorem State.withStream_acs (m : Memory) : (s.withStream m).acs = s.acs := rfl
@[simp] theorem State.withStream_ct (m : Memory) : (s.withStream m).ct = s.ct := rfl

/-! ### fixStream -/

@[simp] theorem State.fixStream_cfg (b : Bool) : (s.fixStream b).cfg = s.cfg := rfl
@[simp] theorem State.fixStream_stream (b : Bool) : (s.fixStream b).stream = s.stream := rfl
@[simp] theorem State.fixStream_streamFixed (b : Bool) : (s.fixStream b).streamFixed = (s.streamFixed || b) := rfl
@[simp] theorem State.fixStream_port (b : Bool) : (s.fixStream b).port = s.port := rfl
@[simp] theorem State.fixStream_reply (b : Bool) : (s.fixStream b).reply = s.reply := rfl
@[simp] theorem State.fixStream_status (b : Bool) : (s.fixStream b).status = s.status := rfl
@[simp] theorem State.fixStream_res (b : Bool) : (s.fixStream b).res = s.res := rfl
@[simp] theorem State.fixStream_pos (b : Bool) : (s.fixStream b).pos = s.pos := rfl
@[simp] theorem State.fixStream_layout (b : Bool) : (s.fixStream b).layout = s.layout := rfl
@[simp] theorem State.fixStream_fatal (b : Bool) : (s.fixStream b).fatal = s.fatal := rfl
@[simp] theorem State.fixStream_prevFl (b : Bool) : (s.fixStream b).prevFl = s.prevFl := rfl
@[simp] theorem State.fixStream_prevFlValid (b : Bool) : (s.fixStream b).prevFlValid = s.prevFlValid := rfl
@[simp] theorem State.fixStream_fseq (b : Bool) : (s.fixStream b).fseq = s.fseq := rfl
@[simp] theorem State.fixStream_trk (b : Bool) : (s.fixStream b).trk = s.trk := rfl
@[simp] theorem State.fixStream_rb (b : Bool) : (s.fixStream b).rb = s.rb := rfl
@[simp] theorem State.fixStream_fb (b : Bool) : (s.fixStream b).fb = s.fb := rfl
@[simp] theorem State.fixStream_eb (b : Bool) : (s.fixStream b).eb = s.eb := rfl
@[simp] theorem State.fixStream_cb (b : Bool) : (s.fixStream b).cb = s.cb := rfl
@[simp] theorem State.fixStream_stageEn (b : Bool) : (s.fixStream b).stageEn = s.stageEn := rfl
@[simp] theorem State.fixStream_acs (b : Bool) : (s.fixStream b).acs = s.acs := rfl
@[simp] theorem State.fixStream_ct (b : Bool) : (s.fixStream b).ct = s.ct := rfl

/-! ### withPort -/

@[simp] theorem State.withPort_cfg (p : List HostEvent) : (s.withPort p).cfg = s.cfg := rfl
@[simp] theorem State.withPort_stream (p : List HostEvent) : (s.withPort p).stream = s.stream := rfl
@[simp] theorem State.withPort_streamFixed (p : List HostEvent) : (s.withPort p).streamFixed = s.streamFixed := rfl
@[simp] theorem State.withPort_port (p : List HostEvent) : (s.withPort p).port = p := rfl
@[simp] theorem State.withPort_reply (p : List HostEvent) : (s.withPort p).reply = s.reply := rfl
@[simp] theorem State.withPort_status (p : List HostEvent) : (s.withPort p).status = s.status := rfl
@[simp] theorem State.withPort_res (p : List HostEvent) : (s.withPort p).res = s.res := rfl
@[simp] theorem State.withPort_pos (p : List HostEvent) : (s.withPort p).pos = s.pos := rfl
@[simp] theorem State.withPort_layout (p : List HostEvent) : (s.withPort p).layout = s.layout := rfl
@[simp] theorem State.withPort_fatal (p : List HostEvent) : (s.withPort p).fatal = s.fatal := rfl
@[simp] theorem State.withPort_prevFl (p : List HostEvent) : (s.withPort p).prevFl = s.prevFl := rfl
@[simp] theorem State.withPort_prevFlValid (p : List HostEvent) : (s.withPort p).prevFlValid = s.prevFlValid := rfl
@[simp] theorem State.withPort_fseq (p : List HostEvent) : (s.withPort p).fseq = s.fseq := rfl
@[simp] theorem State.withPort_trk (p : List HostEvent) : (s.withPort p).trk = s.trk := rfl
@[simp] theorem State.withPort_rb (p : List HostEvent) : (s.withPort p).rb = s.rb := rfl
@[simp] theorem State.withPort_fb (p : List HostEvent) : (s.withPort p).fb = s.fb := rfl
@[simp] theorem State.withPort_eb (p : List HostEvent) : (s.withPort p).eb = s.eb := rfl
@[simp] theorem State.withPort_cb (p : List HostEvent) : (s.withPort p).cb = s.cb := rfl
@[simp] theorem State.withPort_stageEn (p : List HostEvent) : (s.withPort p).stageEn = s.stageEn := rfl
@[simp] theorem State.withPort_acs (p : List HostEvent) : (s.withPort p).acs = s.acs := rfl
@[simp] theorem State.withPort_ct (p : List HostEvent) : (s.withPort p).ct = s.ct := rfl

/-! ### withReply -/

@[simp] theorem State.withReply_cfg (v : HostValue) : (s.withReply v).cfg = s.cfg := rfl
@[simp] theorem State.withReply_stream (v : HostValue) : (s.withReply v).stream = s.stream := rfl
@[simp] theorem State.withReply_streamFixed (v : HostValue) : (s.withReply v).streamFixed = s.streamFixed := rfl
@[simp] theorem State.withReply_port (v : HostValue) : (s.withReply v).port = s.port := rfl
@[simp] theorem State.withReply_reply (v : HostValue) : (s.withReply v).reply = some v := rfl
@[simp] theorem State.withReply_status (v : HostValue) : (s.withReply v).status = s.status := rfl
@[simp] theorem State.withReply_res (v : HostValue) : (s.withReply v).res = s.res := rfl
@[simp] theorem State.withReply_pos (v : HostValue) : (s.withReply v).pos = s.pos := rfl
@[simp] theorem State.withReply_layout (v : HostValue) : (s.withReply v).layout = s.layout := rfl
@[simp] theorem State.withReply_fatal (v : HostValue) : (s.withReply v).fatal = s.fatal := rfl
@[simp] theorem State.withReply_prevFl (v : HostValue) : (s.withReply v).prevFl = s.prevFl := rfl
@[simp] theorem State.withReply_prevFlValid (v : HostValue) : (s.withReply v).prevFlValid = s.prevFlValid := rfl
@[simp] theorem State.withReply_fseq (v : HostValue) : (s.withReply v).fseq = s.fseq := rfl
@[simp] theorem State.withReply_trk (v : HostValue) : (s.withReply v).trk = s.trk := rfl
@[simp] theorem State.withReply_rb (v : HostValue) : (s.withReply v).rb = s.rb := rfl
@[simp] theorem State.withReply_fb (v : HostValue) : (s.withReply v).fb = s.fb := rfl
@[simp] theorem State.withReply_eb (v : HostValue) : (s.withReply v).eb = s.eb := rfl
@[simp] theorem State.withReply_cb (v : HostValue) : (s.withReply v).cb = s.cb := rfl
@[simp] theorem State.withReply_stageEn (v : HostValue) : (s.withReply v).stageEn = s.stageEn := rfl
@[simp] theorem State.withReply_acs (v : HostValue) : (s.withReply v).acs = s.acs := rfl
@[simp] theorem State.withReply_ct (v : HostValue) : (s.withReply v).ct = s.ct := rfl

/-! ### powerOn -/

@[simp] theorem State.powerOn_cfg : s.powerOn.cfg = s.cfg := rfl
@[simp] theorem State.powerOn_stream : s.powerOn.stream = s.stream := rfl
@[simp] theorem State.powerOn_streamFixed : s.powerOn.streamFixed = false := rfl
@[simp] theorem State.powerOn_port : s.powerOn.port = s.port := rfl
@[simp] theorem State.powerOn_reply : s.powerOn.reply = s.reply := rfl
@[simp] theorem State.powerOn_status : s.powerOn.status = 0 := rfl
@[simp] theorem State.powerOn_res : s.powerOn.res = 0 := rfl
@[simp] theorem State.powerOn_pos : s.powerOn.pos = 0 := rfl
@[simp] theorem State.powerOn_layout : s.powerOn.layout = none := rfl
@[simp] theorem State.powerOn_fatal : s.powerOn.fatal = false := rfl
@[simp] theorem State.powerOn_prevFl : s.powerOn.prevFl = 0 := rfl
@[simp] theorem State.powerOn_prevFlValid : s.powerOn.prevFlValid = false := rfl
@[simp] theorem State.powerOn_fseq : s.powerOn.fseq = 0 := rfl
@[simp] theorem State.powerOn_trk : s.powerOn.trk = .tracking := rfl
@[simp] theorem State.powerOn_rb : s.powerOn.rb = [] := rfl
@[simp] theorem State.powerOn_fb : s.powerOn.fb = none := rfl
@[simp] theorem State.powerOn_eb : s.powerOn.eb = none := rfl
@[simp] theorem State.powerOn_cb : s.powerOn.cb = none := rfl
@[simp] theorem State.powerOn_stageEn : s.powerOn.stageEn = 0 := rfl
@[simp] theorem State.powerOn_acs : s.powerOn.acs = .empty := rfl
@[simp] theorem State.powerOn_ct : s.powerOn.ct = .empty := rfl

end Sys2Proof.Machine
end

