-- ==== Sys2Proof/Laws/Ops.lean ====
section
/-! SUPPORT. What each shared operation of Ops.lean can do, said once: ending a command, raising,
working through a list, and reading the stream. -/

namespace Sys2Proof.Machine

/-! ### Ending a command -/

@[simp] theorem complete_next (s t : State) :
    complete s = .next t ↔ t = s.withStatus (codeBits .ok) := by
  unfold complete
  exact ⟨fun h => by injection h with h; exact h.symm, fun h => by rw [h]⟩

@[simp] theorem raise_next (c : Code) (s t : State) :
    raise c s = .next t ↔ t = s.withStatus (codeBits c) := by
  unfold raise
  exact ⟨fun h => by injection h with h; exact h.symm, fun h => by rw [h]⟩

@[simp] theorem complete_ne_fault (s : State) (f : Fault) : complete s ≠ .fault f := by
  intro h; cases h

@[simp] theorem complete_ne_refused (s : State) (r : Refusal) : complete s ≠ .refused r := by
  intro h; cases h

@[simp] theorem raise_ne_fault (c : Code) (s : State) (f : Fault) : raise c s ≠ .fault f := by
  intro h; cases h

@[simp] theorem raise_ne_refused (c : Code) (s : State) (r : Refusal) :
    raise c s ≠ .refused r := by
  intro h; cases h

@[simp] theorem finish_ok (s t : State) : finish s (.ok t) = complete t := rfl

@[simp] theorem finish_code (s : State) (c : Code) : finish s (.error (.code c)) = raise c s := rfl

@[simp] theorem finish_fault (s : State) (f : Fault) :
    finish s (.error (.fault f)) = .fault f := rfl

/-- A stopped computation that answers a next state raised a code. -/
theorem finish_error_next {s t : State} {e : Stop} (h : finish s (.error e) = .next t) :
    ∃ c, e = .code c ∧ t = s.withStatus (codeBits c) := by
  cases e with
  | code c => exact ⟨c, rfl, (raise_next c s t).mp h⟩
  | fault f => cases h

@[simp] theorem codeBits_ok : codeBits .ok = 0 := rfl

theorem codeBits_le (c : Code) : (codeBits c).toNat ≤ 8 := by cases c <;> decide

theorem codeBits_injective {c d : Code} (h : codeBits c = codeBits d) : c = d := by
  revert h
  cases c <;> cases d <;> decide

/-! ### Lists -/

theorem orMissing_ok {α : Type} {o : Option α} {a : α} : orMissing o = .ok a ↔ o = some a := by
  cases o with
  | none => exact ⟨fun h => (by cases h), fun h => (by cases h)⟩
  | some b => exact ⟨fun h => (by cases h; rfl), fun h => (by cases h; rfl)⟩

theorem orMissing_error {α : Type} {o : Option α} {e : Stop} (h : orMissing o = .error e) :
    o = none ∧ e = .fault .elementMissing := by
  cases o with
  | none => cases h; exact ⟨rfl, rfl⟩
  | some b => cases h

/-- `forEach` succeeds exactly when `f` does on every element, with the results in order. -/
theorem forEach_ok {α β : Type} {f : α → Except Stop β} :
    ∀ {as : List α} {bs : List β},
      forEach f as = .ok bs ↔ List.Forall₂ (fun a b => f a = .ok b) as bs := by
  intro as
  induction as with
  | nil =>
    intro bs
    simp only [forEach, List.forall₂_nil_left_iff]
    exact ⟨fun h => by cases h; rfl, fun h => by rw [h]⟩
  | cons a as ih =>
    intro bs
    simp only [forEach, List.forall₂_cons_left_iff]
    constructor
    · intro h
      split at h
      · cases h
      · next b hb =>
        split at h
        · cases h
        · next bs' hbs =>
          cases h
          exact ⟨b, bs', hb, ih.mp hbs, rfl⟩
    · rintro ⟨b, bs', hb, hbs, rfl⟩
      rw [hb, ih.mpr hbs]

/-- `forEach` stops as `f` does on some element. -/
theorem forEach_error {α β : Type} {f : α → Except Stop β} {e : Stop} :
    ∀ {as : List α}, forEach f as = .error e → ∃ a ∈ as, f a = .error e := by
  intro as
  induction as with
  | nil => intro h; cases h
  | cons a as ih =>
    intro h
    simp only [forEach] at h
    split at h
    · next e' he => cases h; exact ⟨a, List.mem_cons_self, he⟩
    · split at h
      · next e' he =>
        cases h
        obtain ⟨b, hb, hf⟩ := ih he
        exact ⟨b, List.mem_cons_of_mem _ hb, hf⟩
      · cases h

/-- `forEach` succeeds when `f` does on every element. -/
theorem forEach_exists {α β : Type} {f : α → Except Stop β} :
    ∀ {as : List α}, (∀ a ∈ as, ∃ b, f a = .ok b) → ∃ bs, forEach f as = .ok bs := by
  intro as
  induction as with
  | nil => exact fun _ => ⟨[], rfl⟩
  | cons a as ih =>
    intro h
    obtain ⟨b, hb⟩ := h a List.mem_cons_self
    obtain ⟨bs, hbs⟩ := ih fun a' ha' => h a' (List.mem_cons_of_mem _ ha')
    refine ⟨b :: bs, ?_⟩
    simp only [forEach, hb, hbs]

/-- The element at a place of the result is `f` of the element at that place. -/
theorem forEach_getElem? {α β : Type} {f : α → Except Stop β} {as : List α} {bs : List β}
    (h : forEach f as = .ok bs) (n : Nat) (a : α) (ha : as[n]? = some a) :
    ∃ b, bs[n]? = some b ∧ f a = .ok b := by
  have h2 := forEach_ok.mp h
  clear h
  induction h2 generalizing n with
  | nil => simp at ha
  | @cons a' b' as' bs' hab _ ih =>
    cases n with
    | zero =>
      simp only [List.getElem?_cons_zero, Option.some.injEq] at ha ⊢
      subst ha
      exact ⟨b', rfl, hab⟩
    | succ n =>
      simp only [List.getElem?_cons_succ] at ha ⊢
      exact ih n ha

theorem forEach_length {α β : Type} {f : α → Except Stop β} {as : List α} {bs : List β}
    (h : forEach f as = .ok bs) : bs.length = as.length :=
  (forEach_ok.mp h).length_eq.symm

/-! ### The stream -/

theorem Memory.ofBytes_length (bytes : List Byte) : (Memory.ofBytes bytes).length = bytes.length := by
  simp [Memory.ofBytes]

/-- Supplying a stream, the one operation that writes the stream space, gives the canonical form. -/
theorem Memory.wf_ofBytes (bytes : List Byte) : (Memory.ofBytes bytes).wf = true := by
  simp only [Memory.wf, decide_eq_true_eq, Memory.ofBytes_length]
  apply List.ext_getElem
  · simp [Memory.ofBytes]
  · intro i h1 h2
    simp [Memory.ofBytes]

theorem Memory.wf_nil : Memory.wf [] = true := rfl

/-- In the canonical form the byte of address `a` stands at place `a`. -/
theorem readByte_eq {m : Memory} (h : m.wf = true) (a : Nat) :
    readByte m a = m[a]?.map (·.2) := by
  simp only [Memory.wf, decide_eq_true_eq] at h
  have key : ∀ (l : Memory) (k n : Nat), l.map (·.1) = List.range' k n →
      ∀ a, k ≤ a → l.lookup a = l[a - k]?.map (·.2) := by
    intro l
    induction l with
    | nil => intro k n _ a _; simp
    | cons c l ih =>
      intro k n hl a ha
      obtain ⟨p, b⟩ := c
      cases n with
      | zero => simp at hl
      | succ n =>
        simp only [List.map_cons, List.range'_succ, List.cons.injEq] at hl
        obtain ⟨hp, hl⟩ := hl
        subst hp
        simp only [List.lookup]
        by_cases hap : a = p
        · subst hap
          simp
        · have hb : (a == p) = false := by simpa using hap
          rw [hb]
          rw [show a - p = (a - (p + 1)) + 1 by omega, List.getElem?_cons_succ]
          exact ih (p + 1) n hl a (by omega)
  have := key m 0 m.length (by rw [h, List.range_eq_range']) a (Nat.zero_le _)
  simpa [readByte] using this

/-- `MemRead` gives the `n` bytes from `a` on when they are in the stream, and nothing otherwise. -/
theorem memRead_eq_some {m : Memory} (h : m.wf = true) {a n : Nat} {bs : List Byte} :
    memRead m a n = some bs ↔
      a + n ≤ m.length ∧ bs.length = n ∧ ∀ j < n, bs[j]? = readByte m (a + j) := by
  unfold memRead
  constructor
  · intro hm
    split at hm
    · next hle =>
      cases hm
      refine ⟨hle, by simp; omega, ?_⟩
      intro j hj
      rw [readByte_eq h]
      simp only [List.getElem?_map, List.getElem?_take, List.getElem?_drop]
      rw [if_pos hj]
    · cases hm
  · rintro ⟨hle, hlen, hj⟩
    rw [if_pos hle]
    congr 1
    apply List.ext_getElem?
    intro j
    by_cases hjn : j < n
    · rw [hj j hjn, readByte_eq h]
      simp only [List.getElem?_map, List.getElem?_take, List.getElem?_drop]
      rw [if_pos hjn]
    · rw [List.getElem?_eq_none (by simp; omega), List.getElem?_eq_none (by omega)]

/-- `MemRead` inside the stream answers. -/
theorem memRead_isSome {m : Memory} {a n : Nat} (h : a + n ≤ m.length) :
    ∃ bs, memRead m a n = some bs ∧ bs.length = n := by
  refine ⟨((m.drop a).take n).map (·.2), ?_, ?_⟩
  · unfold memRead
    rw [if_pos h]
  · simp
    omega

theorem memRead_none {m : Memory} {a n : Nat} : memRead m a n = none ↔ m.length < a + n := by
  unfold memRead
  split <;> simp <;> omega

end Sys2Proof.Machine
end

