-- ==== Sys2Proof/Laws/Framing.lean ====
section
/-! SUPPORT. What the synchronizer and the header decoder can do, said once: the marker search, the
frame length, the capture length, the samples and the frame record. -/

namespace Sys2Proof.Machine

/-! ### The marker search -/

/-- The search finds the first place at which the pattern is a prefix of the rest. -/
theorem findFrom_eq_some {pat : List Byte} :
    ∀ {l : List Byte} {p q : Nat}, findFrom pat l p = some q ↔
      p ≤ q ∧ q - p ≤ l.length ∧ pat <+: l.drop (q - p) ∧
        ∀ r, p ≤ r → r < q → ¬ pat <+: l.drop (r - p) := by
  intro l
  induction l with
  | nil =>
    intro p q
    simp only [findFrom]
    constructor
    · intro h
      split at h
      · next hp =>
        cases h
        exact ⟨Nat.le_refl _, by simp, by simpa using hp, fun r h1 h2 => by omega⟩
      · cases h
    · rintro ⟨h1, h2, h3, h4⟩
      have : q = p := by simp at h2; omega
      subst this
      rw [if_pos (by simpa using h3)]
  | cons b l ih =>
    intro p q
    simp only [findFrom]
    constructor
    · intro h
      split at h
      · next hp =>
        cases h
        exact ⟨Nat.le_refl _, by simp, by simpa using hp, fun r h1 h2 => by omega⟩
      · next hp =>
        obtain ⟨h1, h2, h3, h4⟩ := ih.mp h
        refine ⟨by omega, by simp; omega, ?_, ?_⟩
        · rw [show q - p = (q - (p + 1)) + 1 by omega]
          simpa using h3
        · intro r hr1 hr2
          by_cases hrp : r = p
          · subst hrp
            simpa using hp
          · have := h4 r (by omega) hr2
            rw [show r - p = (r - (p + 1)) + 1 by omega]
            simpa using this
    · rintro ⟨h1, h2, h3, h4⟩
      by_cases hpq : q = p
      · subst hpq
        rw [if_pos (by simpa using h3)]
      · have hp := h4 p (Nat.le_refl _) (by omega)
        rw [if_neg (by simpa using hp)]
        refine ih.mpr ⟨by omega, by simp at h2; omega, ?_, ?_⟩
        · rw [show q - p = (q - (p + 1)) + 1 by omega] at h3
          simpa using h3
        · intro r hr1 hr2
          have := h4 r (by omega) hr2
          rw [show r - p = (r - (p + 1)) + 1 by omega] at this
          simpa using this

/-- The search fails exactly when the pattern is a prefix of no rest. -/
theorem findFrom_eq_none {pat : List Byte} :
    ∀ {l : List Byte} {p : Nat}, findFrom pat l p = none ↔
      ∀ r, p ≤ r → r - p ≤ l.length → ¬ pat <+: l.drop (r - p) := by
  intro l
  induction l with
  | nil =>
    intro p
    simp only [findFrom]
    constructor
    · intro h r _ hr
      split at h
      · cases h
      · next hp => simpa using hp
    · intro h
      rw [if_neg]
      simpa using h p (Nat.le_refl _) (by simp)
  | cons b l ih =>
    intro p
    simp only [findFrom]
    constructor
    · intro h r hr1 hr2
      split at h
      · cases h
      · next hp =>
        by_cases hrp : r = p
        · subst hrp
          simpa using hp
        · have := ih.mp h r (by omega) (by simp at hr2; omega)
          rw [show r - p = (r - (p + 1)) + 1 by omega]
          simpa using this
    · intro h
      have hp := h p (Nat.le_refl _) (by simp)
      rw [if_neg (by simpa using hp)]
      refine ih.mpr fun r hr1 hr2 => ?_
      have := h r (by omega) (by simp; omega)
      rw [show r - p = (r - (p + 1)) + 1 by omega] at this
      simpa using this

/-! ### The frame length -/

/-- How `find_frame_length` can succeed: two markers in the chunk, or the length of the frame before
under REUSE_PREV. -/
theorem findFrameLength_ok {s : State} {lay : Layout} {pos fl : Nat}
    (h : findFrameLength s lay pos = .ok fl) :
    ∃ chunk p1, memRead s.stream pos (min (lookahead s.cfg lay) (s.streamLen - pos)) = some chunk ∧
      findFrom (marker s.cfg lay) chunk 0 = some p1 ∧
      ((∃ p2, findFrom (marker s.cfg lay) (chunk.drop (p1 + markerLen lay)) (p1 + markerLen lay)
            = some p2 ∧ fl = p2 - p1) ∨
        (findFrom (marker s.cfg lay) (chunk.drop (p1 + markerLen lay)) (p1 + markerLen lay) = none ∧
          s.cfg.lastFramePolicy = .reusePrev ∧ s.prevFlValid = true ∧
          pos + s.prevFl.toNat ≤ s.streamLen ∧ fl = s.prevFl.toNat)) := by
  simp only [findFrameLength] at h
  split at h
  · cases h
  · next chunk hc =>
    simp only [markerPair] at h
    split at h
    · next p1 p2 hm =>
      split at hm
      · cases hm
      · next q1 hq =>
        simp only [Prod.mk.injEq, Option.some.injEq] at hm
        obtain ⟨rfl, h2⟩ := hm
        cases h
        exact ⟨chunk, q1, hc, hq, .inl ⟨p2, h2, rfl⟩⟩
    · next p1 hm =>
      split at hm
      · cases hm
      · next q1 hq =>
        simp only [Prod.mk.injEq, Option.some.injEq] at hm
        obtain ⟨rfl, h2⟩ := hm
        simp only [reusePrev] at h
        split at h
        · next hr =>
          cases h
          exact ⟨chunk, q1, hc, hq, .inr ⟨h2, hr.1, hr.2.1, hr.2.2, rfl⟩⟩
        · cases h
    · cases h

/-- How `find_frame_length` can stop: FRAMING_ERROR, or a position beyond the stream. -/
theorem findFrameLength_error {s : State} {lay : Layout} {pos : Nat} {e : Stop}
    (h : findFrameLength s lay pos = .error e) :
    e = .code .framingError ∨ (e = .fault .readOutsideStream ∧ s.streamLen < pos) := by
  simp only [findFrameLength] at h
  split at h
  · next hm =>
    cases h
    have := memRead_none.mp hm
    have hl : s.streamLen = s.stream.length := rfl
    rw [← hl] at this
    exact .inr ⟨rfl, by omega⟩
  · split at h
    · cases h
    · simp only [reusePrev] at h
      split at h
      · cases h
      · cases h; exact .inl rfl
    · cases h; exact .inl rfl

/-- `find_frame_length` reads the configuration, the stream, PREV_FL and PREV_FL_VALID, nothing else
(40_framer.md R150). -/
theorem findFrameLength_congr {s t : State} (hc : t.cfg = s.cfg) (hm : t.stream = s.stream)
    (hp : t.prevFl = s.prevFl) (hv : t.prevFlValid = s.prevFlValid) (lay : Layout) (pos : Nat) :
    findFrameLength t lay pos = findFrameLength s lay pos := by
  simp only [findFrameLength, reusePrev, State.streamLen, hc, hm, hp, hv]
  rfl

/-! ### The frame record -/

/-- The capture length is the exact quotient, in range. -/
theorem captureLength_eq_some {c : Config} {lay : Layout} {fl len : Nat} :
    captureLength c lay fl = some len ↔
      hdrLen c lay ≤ fl ∧ (fl - hdrLen c lay) % sampleStride c = 0 ∧
        len = (fl - hdrLen c lay) / sampleStride c ∧ 1 ≤ len ∧ len ≤ c.maxCapture := by
  simp only [captureLength]
  constructor
  · intro h
    split at h
    · cases h
    · next h1 =>
      split at h
      · cases h
      · next h2 =>
        cases h
        refine ⟨by omega, by omega, rfl, by omega, by omega⟩
  · rintro ⟨h1, h2, rfl, h3, h4⟩
    rw [if_neg (by omega), if_neg (by omega)]

theorem lanes_length (c : Config) : (lanes c).length = nGain * c.nCh := by
  simp [lanes, nGain, List.length_flatMap]
  omega

/-- Row `ch * 2 + g` of a buffer is that of (ch, g). -/
theorem lanes_getElem? {c : Config} {ch g : Nat} (hc : ch < c.nCh) (hg : g < nGain) :
    (lanes c)[rowIndex ch g]? = some (ch, g) := by
  have key : ∀ n k, ch < n →
      ((List.range' k n).flatMap fun ch => (List.range nGain).map fun g => (ch, g))[rowIndex ch g]?
        = some (k + ch, g) := by
    clear hc
    induction ch with
    | zero =>
      intro n k hn
      cases n with
      | zero => omega
      | succ n =>
        simp only [List.range'_succ, List.flatMap_cons, rowIndex, nGain] at *
        rw [List.getElem?_append_left (by simp; omega)]
        have : g = 0 ∨ g = 1 := by omega
        rcases this with rfl | rfl <;> simp [List.range_succ]
    | succ ch ih =>
      intro n k hn
      cases n with
      | zero => omega
      | succ n =>
        have h2 := ih n (k + 1) (by omega)
        simp only [List.range'_succ, List.flatMap_cons, rowIndex, nGain] at *
        rw [List.getElem?_append_right (by simp; omega)]
        simp only [List.length_map, List.length_range]
        rw [show (ch + 1) * 2 + g - 2 = ch * 2 + g by omega, h2]
        simp; omega
  have := key c.nCh 0 hc
  simpa [lanes, List.range_eq_range'] using this

/-- The samples of a frame: one row per (ch, g), and each sample is read where DEINT says
(40_framer.md R156). -/
theorem frameSamples_ok {s : State} {lay : Layout} {pos len : Nat} {rows : List (List Sample)}
    (h : frameSamples s lay pos len = .ok rows) :
    rows.length = nGain * s.cfg.nCh ∧ (∀ row ∈ rows, row.length = len) ∧
      ∀ ch g i, ch < s.cfg.nCh → g < nGain → i < len →
        ∃ row x, rows[rowIndex ch g]? = some row ∧ row[i]? = some x ∧
          sampleAt s lay pos len ch g i = .ok x := by
  refine ⟨?_, ?_, ?_⟩
  · rw [forEach_length h, lanes_length]
  · intro row hrow
    obtain ⟨n, hn, hget⟩ := List.getElem_of_mem hrow
    have hlen := forEach_length h
    obtain ⟨b, hb, hf⟩ := forEach_getElem? h n ((lanes s.cfg)[n]'(by omega))
      (List.getElem?_eq_getElem _)
    rw [List.getElem?_eq_getElem hn] at hb
    cases hb
    rw [← hget, forEach_length hf, List.length_range]
  · intro ch g i hc hg hi
    obtain ⟨row, hrow, hf⟩ := forEach_getElem? h _ _ (lanes_getElem? hc hg)
    obtain ⟨x, hx, hs⟩ := forEach_getElem? hf i i (by simp [hi])
    exact ⟨row, x, hrow, hx, hs⟩

/-- What a successful `parse_frame` has checked, and the record it gives (40_framer.md R156). -/
theorem parseFrame_ok {s : State} {lay : Layout} {pos : Nat} {r : FrameBody}
    (h : parseFrame s lay pos = .ok r) :
    ∃ fl len hdr rows, hdrLen s.cfg lay ≤ s.streamLen - pos ∧
      findFrameLength s lay pos = .ok fl ∧ memRead s.stream pos (hdrLen s.cfg lay) = some hdr ∧
      fixedBytesOk s.cfg lay hdr = true ∧ captureLength s.cfg lay fl = some len ∧
      (stopCells s.cfg lay hdr).all cellOk = true ∧ frameSamples s lay pos len = .ok rows ∧
      r = { layout := lay
            hdr := headerOf s.cfg lay hdr
            ticks := headerTicks (headerOf s.cfg lay hdr)
            t := timestamp s.cfg lay (headerTicks (headerOf s.cfg lay hdr))
            stop := stopCells s.cfg lay hdr
            len := len
            fl := BitVec.ofNat 64 fl
            samples := rows } := by
  simp only [parseFrame] at h
  split at h
  · cases h
  · next h0 =>
    split at h
    · cases h
    · next fl hfl =>
      split at h
      · cases h
      · next hdr hh =>
        split at h
        · next hfix =>
          split at h
          · cases h
          · next len hcap =>
            split at h
            · next hstop =>
              simp only [frameRecord] at h
              split at h
              · cases h
              · next rows hrows =>
                cases h
                exact ⟨fl, len, hdr, rows, by omega, hfl, hh, hfix, hcap, hstop, hrows, rfl⟩
            · cases h
        · cases h

/-- `parse_frame` stops with END_OF_STREAM, FRAMING_ERROR, HEADER_FORMAT_ERROR, or outside the
stream. -/
theorem parseFrame_error {s : State} {lay : Layout} {pos : Nat} {e : Stop}
    (h : parseFrame s lay pos = .error e) :
    e = .code .endOfStream ∨ e = .code .framingError ∨ e = .code .headerFormatError ∨
      e = .fault .readOutsideStream := by
  simp only [parseFrame] at h
  split at h
  · cases h; exact .inl rfl
  · split at h
    · next e' he =>
      cases h
      rcases findFrameLength_error he with h | ⟨h, _⟩
      · exact .inr (.inl h)
      · exact .inr (.inr (.inr h))
    · split at h
      · cases h; exact .inr (.inr (.inr rfl))
      · split at h
        · split at h
          · cases h; exact .inr (.inr (.inl rfl))
          · split at h
            · simp only [frameRecord] at h
              split at h
              · next e' he =>
                cases h
                obtain ⟨lane, _, hl⟩ := forEach_error he
                obtain ⟨i, _, hi⟩ := forEach_error hl
                simp only [sampleAt] at hi
                split at hi
                · cases hi; exact .inr (.inr (.inr rfl))
                · split at hi
                  · cases hi
                  · cases hi; exact .inr (.inr (.inr rfl))
              · cases h
            · cases h; exact .inr (.inr (.inl rfl))
        · cases h; exact .inr (.inr (.inl rfl))

/-- `parse_frame` reads the configuration, the stream, PREV_FL and PREV_FL_VALID, nothing else. -/
theorem parseFrame_congr {s t : State} (hc : t.cfg = s.cfg) (hm : t.stream = s.stream)
    (hp : t.prevFl = s.prevFl) (hv : t.prevFlValid = s.prevFlValid) (lay : Layout) (pos : Nat) :
    parseFrame t lay pos = parseFrame s lay pos := by
  have hs : ∀ len ch g i, sampleAt t lay pos len ch g i = sampleAt s lay pos len ch g i := by
    intro len ch g i
    simp only [sampleAt, hc, hm]
  have hf : ∀ len, frameSamples t lay pos len = frameSamples s lay pos len := by
    intro len
    simp only [frameSamples, hc]
    congr 1
    funext x
    congr 1
    funext i
    exact hs _ _ _ _
  simp only [parseFrame, frameRecord, findFrameLength_congr hc hm hp hv, State.streamLen, hc, hm, hf]
  rfl

end Sys2Proof.Machine
end

