-- ==== Sys2Proof/Laws/Runs.lean ====
section
/-! SUPPORT. The laws of the tables (Runs.lean): a read after a write to the same key gives what was
written, a write leaves every other key alone, a write keeps the canonical form, equal contents in
canonical form are equal data, and a scan of a range is a statement about each of its keys. -/

namespace Sys2Proof.Machine

variable {V : Type}

@[simp] theorem runsRead_nil (d : V) (k : Nat) : runsRead d [] k = d := rfl

/-- Below the first listed key a table holds the value in force before it. -/
theorem runsRead_of_below [DecidableEq V] {d : V} {lo : Nat} {t : Runs V} {k : Nat}
    (h : runsWf d lo t = true) (hk : k < lo) : runsRead d t k = d := by
  cases t with
  | nil => rfl
  | cons a rest =>
    obtain ⟨p, v⟩ := a
    simp only [runsWf, Bool.and_eq_true, decide_eq_true_eq] at h
    simp only [runsRead]
    rw [if_pos (by omega)]

/-- What `runsPut` lists reads as `v` from `p` on until `rest` says otherwise. -/
theorem runsRead_put [DecidableEq V] (d v : V) (p : Nat) (rest : Runs V) (k : Nat)
    (hr : k < p → runsRead v rest k = v) :
    runsRead d (runsPut d p v rest) k = if k < p then d else runsRead v rest k := by
  unfold runsPut
  split
  · next h =>
    subst h
    split
    · next hk => exact hr hk
    · rfl
  · rfl

theorem runsWf_put [DecidableEq V] {d v : V} {p lo : Nat} {rest : Runs V} (hp : lo ≤ p)
    (h : runsWf v (p + 1) rest = true) : runsWf d lo (runsPut d p v rest) = true := by
  unfold runsPut
  split
  · next e =>
    subst e
    cases rest with
    | nil => rfl
    | cons a rest =>
      obtain ⟨q, w⟩ := a
      simp only [runsWf, Bool.and_eq_true, decide_eq_true_eq] at h ⊢
      exact ⟨⟨by omega, h.1.2⟩, h.2⟩
  · next e =>
    simp only [runsWf, Bool.and_eq_true, decide_eq_true_eq]
    exact ⟨⟨hp, e⟩, h⟩

theorem runsWf_mono [DecidableEq V] {d : V} {lo lo' : Nat} {t : Runs V}
    (h : runsWf d lo t = true) (hl : lo' ≤ lo) : runsWf d lo' t = true := by
  cases t with
  | nil => rfl
  | cons a rest =>
    obtain ⟨p, v⟩ := a
    simp only [runsWf, Bool.and_eq_true, decide_eq_true_eq] at h ⊢
    exact ⟨⟨by omega, h.1.2⟩, h.2⟩

/-- What `runsResume` lists, at keys from `p` on. -/
theorem runsRead_resume [DecidableEq V] (v cur : V) (p k : Nat) (rest : Runs V)
    (h : runsWf cur p rest = true) :
    runsRead v (runsResume v cur p rest) k = if k < p then v else runsRead cur rest k := by
  cases rest with
  | nil =>
    simp only [runsResume]
    rw [runsRead_put _ _ _ _ _ (fun _ => rfl)]
  | cons a rest =>
    obtain ⟨q, w⟩ := a
    simp only [runsWf, Bool.and_eq_true, decide_eq_true_eq] at h
    simp only [runsResume]
    split
    · next e =>
      subst e
      rw [runsRead_put _ _ _ _ _ (fun hk => runsRead_of_below h.2 (by omega))]
      simp only [runsRead]
      split <;> rfl
    · next e =>
      rw [runsRead_put _ _ _ _ _ (fun hk => by simp only [runsRead]; rw [if_pos (by omega)])]

theorem runsWf_resume [DecidableEq V] {v cur : V} {p : Nat} {rest : Runs V}
    (h : runsWf cur p rest = true) : runsWf v p (runsResume v cur p rest) = true := by
  cases rest with
  | nil => exact runsWf_put (Nat.le_refl _) rfl
  | cons a rest =>
    obtain ⟨q, w⟩ := a
    simp only [runsWf, Bool.and_eq_true, decide_eq_true_eq] at h
    simp only [runsResume]
    split
    · next e =>
      subst e
      exact runsWf_put (Nat.le_refl _) h.2
    · next e =>
      refine runsWf_put (Nat.le_refl _) ?_
      simp only [runsWf, Bool.and_eq_true, decide_eq_true_eq]
      exact ⟨⟨by omega, h.1.2⟩, h.2⟩

/-- Writing one entry: that key reads as what was written, every other key as before. -/
theorem runsRead_write [DecidableEq V] (v : V) (k j : Nat) :
    ∀ (t : Runs V) (d : V) (lo : Nat), runsWf d lo t = true →
      runsRead d (runsWrite d t k v) j = if j = k then v else runsRead d t j := by
  intro t
  induction t with
  | nil =>
    intro d lo _
    simp only [runsWrite]
    rw [runsRead_put _ _ _ _ _ (fun hj => by
      rw [runsRead_resume _ _ _ _ _ (by rfl), if_pos (by omega)]),
      runsRead_resume _ _ _ _ _ (by rfl)]
    simp only [runsRead]
    split <;> split <;> first | rfl | (split <;> first | rfl | omega) | omega
  | cons a rest ih =>
    obtain ⟨p, w⟩ := a
    intro d lo h
    simp only [runsWf, Bool.and_eq_true, decide_eq_true_eq] at h
    simp only [runsWrite]
    split
    · next hp =>
      simp only [runsRead]
      rw [ih w (p + 1) h.2]
      split <;> split <;> first | rfl | omega
    · split
      · next hpk hp =>
        subst hp
        have hw : runsWf w (p + 1) rest = true := h.2
        rw [runsRead_put _ _ _ _ _ (fun hj => by
          rw [runsRead_resume _ _ _ _ _ hw, if_pos (by omega)]),
          runsRead_resume _ _ _ _ _ hw]
        simp only [runsRead]
        split
        · rw [if_neg (by omega)]
        · split
          · rw [if_pos (by omega)]
          · rw [if_neg (by omega)]
      · next hpk hp =>
        have hw : runsWf d (k + 1) ((p, w) :: rest) = true := by
          simp only [runsWf, Bool.and_eq_true, decide_eq_true_eq]
          exact ⟨⟨by omega, h.1.2⟩, h.2⟩
        rw [runsRead_put _ _ _ _ _ (fun hj => by
          rw [runsRead_resume _ _ _ _ _ hw, if_pos (by omega)]),
          runsRead_resume _ _ _ _ _ hw]
        by_cases hj : j < k
        · rw [if_pos hj, if_neg (by omega)]
          simp only [runsRead]
          rw [if_pos (by omega)]
        · rw [if_neg hj]
          by_cases hjk : j = k
          · rw [if_pos (by omega), if_pos hjk]
          · rw [if_neg (by omega), if_neg hjk]

/-- Writing one entry keeps the canonical form. -/
theorem runsWf_write [DecidableEq V] (v : V) (k : Nat) :
    ∀ (t : Runs V) (d : V) (lo : Nat), runsWf d lo t = true → lo ≤ k →
      runsWf d lo (runsWrite d t k v) = true := by
  intro t
  induction t with
  | nil => exact fun d lo _ hk => runsWf_put hk (runsWf_resume rfl)
  | cons a rest ih =>
    obtain ⟨p, w⟩ := a
    intro d lo h hk
    simp only [runsWf, Bool.and_eq_true, decide_eq_true_eq] at h
    simp only [runsWrite]
    split
    · next hp =>
      simp only [runsWf, Bool.and_eq_true, decide_eq_true_eq]
      exact ⟨h.1, ih w (p + 1) h.2 hp⟩
    · split
      · next hp =>
        subst hp
        exact runsWf_put hk (runsWf_resume h.2)
      · next hp hne =>
        refine runsWf_put hk (runsWf_resume ?_)
        simp only [runsWf, Bool.and_eq_true, decide_eq_true_eq]
        exact ⟨⟨by omega, h.1.2⟩, h.2⟩

/-- In canonical form, equal contents are equal data. -/
theorem runs_ext [DecidableEq V] :
    ∀ (t u : Runs V) (d : V) (lo : Nat), runsWf d lo t = true → runsWf d lo u = true →
      (∀ k, runsRead d t k = runsRead d u k) → t = u := by
  intro t
  induction t with
  | nil =>
    intro u d lo _ hu h
    cases u with
    | nil => rfl
    | cons b u =>
      obtain ⟨q, w⟩ := b
      have hq := h q
      simp only [runsWf, Bool.and_eq_true, decide_eq_true_eq] at hu
      simp only [runsRead, Nat.lt_irrefl, if_false] at hq
      rw [runsRead_of_below hu.2 (by omega)] at hq
      exact absurd hq.symm hu.1.2
  | cons a t ih =>
    obtain ⟨p, v⟩ := a
    intro u d lo ht hu h
    simp only [runsWf, Bool.and_eq_true, decide_eq_true_eq] at ht
    have hp := h p
    simp only [runsRead, Nat.lt_irrefl, if_false] at hp
    rw [runsRead_of_below ht.2 (by omega)] at hp
    cases u with
    | nil => exact absurd hp ht.1.2
    | cons b u =>
      obtain ⟨q, w⟩ := b
      simp only [runsWf, Bool.and_eq_true, decide_eq_true_eq] at hu
      have hq := h q
      simp only [runsRead, Nat.lt_irrefl, if_false] at hp hq
      rw [runsRead_of_below hu.2 (by omega)] at hq
      have hpq : p = q := by
        rcases Nat.lt_trichotomy p q with hlt | heq | hgt
        · rw [if_pos hlt] at hp
          exact absurd hp ht.1.2
        · exact heq
        · rw [if_pos hgt] at hq
          exact absurd hq.symm hu.1.2
      subst hpq
      simp only [Nat.lt_irrefl, if_false] at hq
      rw [runsRead_of_below ht.2 (by omega)] at hq
      subst hq
      rw [ih u v (p + 1) ht.2 hu.2]
      intro k
      have hk := h k
      simp only [runsRead] at hk
      by_cases hlt : k < p
      · rw [runsRead_of_below ht.2 (by omega), runsRead_of_below hu.2 (by omega)]
      · rwa [if_neg hlt, if_neg hlt] at hk

/-- A scan of a range is a statement about each of its keys. -/
theorem runsAll_iff (f : V → Bool) (hi : Nat) :
    ∀ (t : Runs V) (d : V) (lo : Nat),
      runsAll d f lo hi t = true ↔ ∀ k, lo ≤ k → k < hi → f (runsRead d t k) = true := by
  intro t
  induction t with
  | nil =>
    intro d lo
    simp only [runsAll, Bool.or_eq_true, decide_eq_true_eq, runsRead]
    constructor
    · rintro (h | h) k hk hk'
      · omega
      · exact h
    · intro h
      by_cases hl : hi ≤ lo
      · exact .inl hl
      · exact .inr (h lo (Nat.le_refl _) (by omega))
  | cons a t ih =>
    obtain ⟨p, v⟩ := a
    intro d lo
    simp only [runsAll, Bool.and_eq_true, Bool.or_eq_true, decide_eq_true_eq, ih, runsRead]
    constructor
    · rintro ⟨h1, h2⟩ k hk hk'
      split
      · next hkp => exact h1.resolve_left (by omega)
      · exact h2 k (by omega) hk'
    · intro h
      refine ⟨?_, ?_⟩
      · by_cases hl : min p hi ≤ lo
        · exact .inl hl
        · refine .inr ?_
          have := h lo (Nat.le_refl _) (by omega)
          rwa [if_pos (by omega)] at this
      · intro k hk hk'
        have := h k (by omega) hk'
        rwa [if_neg (by omega)] at this

end Sys2Proof.Machine
end

