-- ==== Sys2Proof/Laws/Tables.lean ====
section
/-! SUPPORT. The laws of the constant tables and of the ring: keys and their places, reading a store
after a write, and what a scan of a stage's tables says (43_calibration.md R251, R253). -/

namespace Sys2Proof.Machine

/-! ### Keys -/

theorem cellIndex_lt {c : Config} {ch g cell : Nat} (hc : ch < c.nCh) (hg : g < nGain)
    (hx : cell < totalCap) : cellIndex ch g cell < cellCount c := by
  simp only [cellIndex, rowIndex, cellCount, nGain, totalCap] at *
  omega

theorem cellIndex_inj {ch g cell ch' g' cell' : Nat} (hg : g < nGain) (hx : cell < totalCap)
    (hg' : g' < nGain) (hx' : cell' < totalCap) (h : cellIndex ch g cell = cellIndex ch' g' cell') :
    ch = ch' ∧ g = g' ∧ cell = cell' := by
  simp only [cellIndex, rowIndex, nGain, totalCap] at *
  omega

/-- Every place of a table by cell is the place of a key. -/
theorem cellIndex_surj {c : Config} {k : Nat} (h : k < cellCount c) :
    ∃ ch g cell, ch < c.nCh ∧ g < nGain ∧ cell < totalCap ∧ cellIndex ch g cell = k := by
  refine ⟨k / 8192, k / 4096 % 2, k % 4096, ?_⟩
  simp only [cellIndex, rowIndex, cellCount, nGain, totalCap] at *
  omega

theorem posIndex_lt {c : Config} {w ch g cell pos : Nat} (hc : ch < c.nCh) (hg : g < nGain)
    (hx : cell < totalCap) (hp : pos < w) : posIndex w ch g cell pos < cellCount c * w := by
  have h := cellIndex_lt hc hg hx
  have : (cellIndex ch g cell + 1) * w ≤ cellCount c * w := Nat.mul_le_mul_right w h
  rw [Nat.add_mul] at this
  simp only [posIndex]
  omega

theorem posIndex_inj {w ch g cell pos ch' g' cell' pos' : Nat} (hg : g < nGain)
    (hx : cell < totalCap) (hp : pos < w) (hg' : g' < nGain) (hx' : cell' < totalCap)
    (hp' : pos' < w) (h : posIndex w ch g cell pos = posIndex w ch' g' cell' pos') :
    ch = ch' ∧ g = g' ∧ cell = cell' ∧ pos = pos' := by
  simp only [posIndex] at h
  have hw : 0 < w := by omega
  have h1 : cellIndex ch g cell = cellIndex ch' g' cell' := by
    have a := congrArg (· / w) h
    simp only [Nat.mul_comm _ w] at a
    rw [Nat.mul_add_div hw, Nat.mul_add_div hw, Nat.div_eq_of_lt hp, Nat.div_eq_of_lt hp'] at a
    simpa using a
  obtain ⟨rfl, rfl, rfl⟩ := cellIndex_inj hg hx hg' hx' h1
  exact ⟨rfl, rfl, rfl, by omega⟩

/-- Every place of a table by cell and position is the place of a key. -/
theorem posIndex_surj {c : Config} {w k : Nat} (h : k < cellCount c * w) :
    ∃ ch g cell pos, ch < c.nCh ∧ g < nGain ∧ cell < totalCap ∧ pos < w ∧
      posIndex w ch g cell pos = k := by
  have hw : 0 < w := by
    rcases Nat.eq_zero_or_pos w with rfl | hw
    · simp at h
    · exact hw
  obtain ⟨ch, g, cell, h1, h2, h3, h4⟩ := cellIndex_surj (c := c) (k := k / w)
    (Nat.div_lt_of_lt_mul (by rwa [Nat.mul_comm]))
  refine ⟨ch, g, cell, k % w, h1, h2, h3, Nat.mod_lt _ hw, ?_⟩
  simp only [posIndex, h4]
  rw [Nat.mul_comm]
  exact Nat.div_add_mod k w

/-! ### One entry -/

/-- A table after one entry of it is written. -/
theorem TableOk.write {V : Type} [DecidableEq V] {d : V} {n : Nat} {t : Runs V}
    (h : TableOk d n t) {k : Nat} (hk : k < n) (v : V) : TableOk d n (runsWrite d t k v) := by
  refine ⟨runsWf_write v k t d 0 h.1 (Nat.zero_le _), fun j hj => ?_⟩
  rw [runsRead_write v k j t d 0 h.1, if_neg (by omega)]
  exact h.2 j hj

theorem TableOk.nil {V : Type} [DecidableEq V] (d : V) (n : Nat) : TableOk d n [] :=
  ⟨rfl, fun _ _ => rfl⟩

theorem StoreOk.empty (c : Config) : StoreOk c .empty :=
  ⟨.nil _ _, .nil _ _, .nil _ _, .nil _ _, .nil _ _, .nil _ _⟩

theorem cellKeyOk_iff {c : Config} {ch g cell : Nat} :
    cellKeyOk c ch g cell = true ↔ ch < c.nCh ∧ g < nGain ∧ cell < totalCap := by
  simp only [cellKeyOk, cellOk, Bool.and_eq_true, decide_eq_true_eq]
  exact ⟨fun h => ⟨h.1.1, h.1.2, h.2⟩, fun h => ⟨⟨h.1, h.2.1⟩, h.2.2⟩⟩

/-- A write of one entry keeps a store in its form. -/
theorem StoreOk.write {c : Config} {st : CalStore} (h : StoreOk c st) {key : CalKey}
    (hk : calKeyOk c key = true) (v : Option F64) : StoreOk c (storeWrite c st key v) := by
  cases key with
  | atCell t ch g cell =>
    obtain ⟨h1, h2, h3⟩ := cellKeyOk_iff.mp hk
    have hb := cellIndex_lt h1 h2 h3
    cases t
    · exact ⟨h.off.write hb v, h.pa, h.pb, h.pc, h.grid, h.pat⟩
    · exact ⟨h.off, h.pa.write hb v, h.pb, h.pc, h.grid, h.pat⟩
    · exact ⟨h.off, h.pa, h.pb.write hb v, h.pc, h.grid, h.pat⟩
    · exact ⟨h.off, h.pa, h.pb, h.pc.write hb v, h.grid, h.pat⟩
  | atPos t ch g cell pos =>
    simp only [calKeyOk, Bool.and_eq_true, decide_eq_true_eq, cellKeyOk_iff] at hk
    obtain ⟨⟨h1, h2, h3⟩, h4⟩ := hk
    cases t
    · exact ⟨h.off, h.pa, h.pb, h.pc, h.grid.write (posIndex_lt h1 h2 h3 h4) v, h.pat⟩
    · exact ⟨h.off, h.pa, h.pb, h.pc, h.grid, h.pat.write (posIndex_lt h1 h2 h3 h4) v⟩

/-- Reading a store after one entry of it is written: that key reads as what was written, every other
key as before. -/
theorem storeRead_write {c : Config} {st : CalStore} (h : StoreOk c st) {key other : CalKey}
    (hk : calKeyOk c key = true) (ho : calKeyOk c other = true) (v : Option F64) :
    storeRead c (storeWrite c st key v) other =
      if other = key then v else storeRead c st other := by
  have hr : ∀ (t : Runs (Option F64)) (n : Nat), TableOk none n t → ∀ j k,
      calRead (calWrite t k v) j = if j = k then v else calRead t j :=
    fun t n ht j k => runsRead_write v k j t none 0 ht.1
  cases key with
  | atCell t ch g cell =>
    obtain ⟨h1, h2, h3⟩ := cellKeyOk_iff.mp hk
    cases other with
    | atCell t' ch' g' cell' =>
      obtain ⟨h1', h2', h3'⟩ := cellKeyOk_iff.mp ho
      have key : cellIndex ch' g' cell' = cellIndex ch g cell ↔ ch' = ch ∧ g' = g ∧ cell' = cell :=
        ⟨cellIndex_inj h2' h3' h2 h3, fun ⟨a, b, d⟩ => by rw [a, b, d]⟩
      cases t <;> cases t' <;>
        simp only [storeWrite, storeRead, cellTable, CalKey.atCell.injEq, reduceCtorEq, false_and,
          true_and, if_false]
      · rw [hr _ _ h.off]; simp only [key]
      · rw [hr _ _ h.pa]; simp only [key]
      · rw [hr _ _ h.pb]; simp only [key]
      · rw [hr _ _ h.pc]; simp only [key]
    | atPos t' ch' g' cell' pos' =>
      rw [if_neg (by simp)]
      cases t <;> cases t' <;> rfl
  | atPos t ch g cell pos =>
    simp only [calKeyOk, Bool.and_eq_true, decide_eq_true_eq, cellKeyOk_iff] at hk
    obtain ⟨⟨h1, h2, h3⟩, h4⟩ := hk
    cases other with
    | atCell t' ch' g' cell' =>
      rw [if_neg (by simp)]
      cases t <;> cases t' <;> rfl
    | atPos t' ch' g' cell' pos' =>
      simp only [calKeyOk, Bool.and_eq_true, decide_eq_true_eq, cellKeyOk_iff] at ho
      obtain ⟨⟨h1', h2', h3'⟩, h4'⟩ := ho
      cases t <;> cases t' <;>
        simp only [storeWrite, storeRead, posTable, posWidth, CalKey.atPos.injEq, reduceCtorEq,
          false_and, true_and, if_false] at h4 h4' ⊢
      · rw [hr _ _ h.grid]
        have key : posIndex c.maxCapture ch' g' cell' pos' = posIndex c.maxCapture ch g cell pos ↔
            ch' = ch ∧ g' = g ∧ cell' = cell ∧ pos' = pos :=
          ⟨posIndex_inj h2' h3' h4' h2 h3 h4, fun ⟨a, b, d, e⟩ => by rw [a, b, d, e]⟩
        simp only [key]
      · rw [hr _ _ h.pat]
        have key : posIndex c.prefixLen ch' g' cell' pos' = posIndex c.prefixLen ch g cell pos ↔
            ch' = ch ∧ g' = g ∧ cell' = cell ∧ pos' = pos :=
          ⟨posIndex_inj h2' h3' h4' h2 h3 h4, fun ⟨a, b, d, e⟩ => by rw [a, b, d, e]⟩
        simp only [key]

/-! ### Scans of a stage -/

theorem tableFull_iff {t : Runs (Option F64)} {n : Nat} :
    tableFull (t, n) = true ↔ ∀ k < n, calRead t k ≠ none := by
  simp only [tableFull, runsAll_iff, calRead]
  exact ⟨fun h k hk => by simpa using Option.isSome_iff_ne_none.mp (h k (Nat.zero_le _) hk),
    fun h k _ hk => Option.isSome_iff_ne_none.mpr (h k hk)⟩

theorem tableEmpty_iff {t : Runs (Option F64)} {n : Nat} :
    tableEmpty (t, n) = true ↔ ∀ k < n, calRead t k = none := by
  simp only [tableEmpty, runsAll_iff, calRead, Option.isNone_iff_eq_none]
  exact ⟨fun h k hk => h k (Nat.zero_le _) hk, fun h k _ hk => h k hk⟩

theorem stageBit_zero (k : Nat) : stageBit 0#4 k = false := by simp [stageBit]

/-- The bit that CALCFG sets for stage `k`. -/
theorem stageBit_or {en : BitVec 4} {k j : Nat} (hk1 : 1 ≤ k) (hk4 : k ≤ 4) (hj : 1 ≤ j) :
    stageBit (en ||| BitVec.ofNat 4 (2 ^ (k - 1))) j = (stageBit en j || decide (j = k)) := by
  simp only [stageBit, BitVec.getLsbD_or, BitVec.getLsbD_ofNat, Nat.testBit_two_pow]
  congr 1
  rw [Bool.eq_iff_iff]
  simp only [Bool.and_eq_true, decide_eq_true_eq]
  omega

/-- The stages CALCFG enables, of `ks`: those requested with some key present, when each of them has
every key present. -/
theorem enabledStages_ok {c : Config} {st : CalStore} {m : BitVec 4} :
    ∀ {ks : List Nat} {en : BitVec 4}, (∀ k ∈ ks, 1 ≤ k ∧ k ≤ 4) →
      enabledStages c st m ks = .ok en →
        (∀ k ∈ ks, stageBit m k = true → stageEmpty c st k = false → stageFull c st k = true) ∧
        ∀ j, 1 ≤ j → (stageBit en j = true ↔
          j ∈ ks ∧ stageBit m j = true ∧ stageEmpty c st j = false) := by
  intro ks
  induction ks with
  | nil =>
    intro en _ h
    cases h
    exact ⟨by simp, fun j _ => by simp [stageBit_zero]⟩
  | cons k ks ih =>
    intro en hks h
    have hk := hks k List.mem_cons_self
    have hks' : ∀ k ∈ ks, 1 ≤ k ∧ k ≤ 4 := fun j hj => hks j (List.mem_cons_of_mem _ hj)
    simp only [enabledStages] at h
    split at h
    · next hskip =>
      obtain ⟨h1, h2⟩ := ih hks' h
      constructor
      · intro j hj hm he
        rcases List.mem_cons.mp hj with rfl | hj
        · rcases hskip with hs | hs
          · rw [hs] at hm; cases hm
          · rw [hs] at he; cases he
        · exact h1 j hj hm he
      · intro j hj
        rw [h2 j hj, List.mem_cons]
        constructor
        · rintro ⟨a, b⟩; exact ⟨.inr a, b⟩
        · rintro ⟨a | a, b, d⟩
          · subst a
            rcases hskip with hs | hs
            · rw [hs] at b; cases b
            · rw [hs] at d; cases d
          · exact ⟨a, b, d⟩
    · next hskip =>
      simp only [not_or, Bool.not_eq_false, Bool.not_eq_true] at hskip
      split at h
      · next hfull =>
        split at h
        · next en' hen =>
          cases h
          obtain ⟨h1, h2⟩ := ih hks' hen
          constructor
          · intro j hj hm he
            rcases List.mem_cons.mp hj with rfl | hj
            · exact hfull
            · exact h1 j hj hm he
          · intro j hj
            rw [stageBit_or hk.1 hk.2 hj, Bool.or_eq_true, decide_eq_true_eq, h2 j hj,
              List.mem_cons]
            constructor
            · rintro (⟨a, b⟩ | rfl)
              · exact ⟨.inr a, b⟩
              · exact ⟨.inl rfl, hskip⟩
            · rintro ⟨a | a, b⟩
              · exact .inr a
              · exact .inl ⟨a, b⟩
        · cases h
      · cases h

/-- CALCFG stops with MISSING_CALIBRATION_CONSTANT, when a requested stage is supplied in part. -/
theorem enabledStages_error {c : Config} {st : CalStore} {m : BitVec 4} {e : Stop} :
    ∀ {ks : List Nat}, enabledStages c st m ks = .error e →
      e = .code .missingCalibrationConstant ∧ ∃ k ∈ ks, stageBit m k = true ∧
        stageEmpty c st k = false ∧ stageFull c st k = false := by
  intro ks
  induction ks with
  | nil => intro h; cases h
  | cons k ks ih =>
    intro h
    simp only [enabledStages] at h
    split at h
    · obtain ⟨h1, j, hj, h2⟩ := ih h
      exact ⟨h1, j, List.mem_cons_of_mem _ hj, h2⟩
    · next hskip =>
      simp only [not_or, Bool.not_eq_false, Bool.not_eq_true] at hskip
      split at h
      · split at h
        · cases h
        · next e' he =>
          cases h
          obtain ⟨h1, j, hj, h2⟩ := ih he
          exact ⟨h1, j, List.mem_cons_of_mem _ hj, h2⟩
      · next hfull =>
        cases h
        exact ⟨rfl, k, List.mem_cons_self, hskip.1, hskip.2, by simpa using hfull⟩

/-- The tables of a stage that the mask enables are those of the store they are taken from. -/
theorem stageTables_restrict {c : Config} {st : CalStore} {en : BitVec 4} {k : Nat}
    (h : stageBit en k = true) : stageTables c (restrictStore st en) k = stageTables c st k := by
  match k with
  | 1 => simp only [stageTables, restrictStore, h, if_true]
  | 2 => simp only [stageTables, restrictStore, h, if_true]
  | 3 => simp only [stageTables, restrictStore, h, if_true]
  | 4 => simp only [stageTables, restrictStore, h, if_true]
  | 0 => rfl
  | k + 5 => rfl

theorem restrictStore_idem (st : CalStore) (en : BitVec 4) :
    restrictStore (restrictStore st en) en = restrictStore st en := by
  simp only [restrictStore]
  congr 1 <;> split <;> rfl

theorem StoreOk.restrict {c : Config} {st : CalStore} (h : StoreOk c st) (en : BitVec 4) :
    StoreOk c (restrictStore st en) := by
  have key : ∀ (b : Bool) (n : Nat) (t : Runs (Option F64)), TableOk none n t →
      TableOk none n (if b = true then t else []) := by
    intro b n t ht
    cases b
    · exact .nil _ _
    · exact ht
  exact ⟨key _ _ _ h.off, key _ _ _ h.pa, key _ _ _ h.pb, key _ _ _ h.pc, key _ _ _ h.grid,
    key _ _ _ h.pat⟩

end Sys2Proof.Machine
end

