-- ==== Sys2Proof/Laws/Tracker.lean ====
section
/-! SUPPORT. What the tracker's operations can do, said once: the windows of a frame, the elapsed
times, and the ring after a frame is stamped. -/

namespace Sys2Proof.Machine

/-! ### Windows -/

theorem sampleToCell_lt (i stop : Nat) : sampleToCell i stop < totalCap :=
  Nat.mod_lt _ (by decide)

theorem windowOf_ok {c : Config} {f : FrameBody} {lane : Nat × Nat} {w : Window} :
    windowOf c f lane = .ok w ↔ frameStop c f lane.1 lane.2 = some w.stopCell ∧
      w.ch = lane.1 ∧ w.g = lane.2 := by
  simp only [windowOf]
  constructor
  · intro h
    split at h
    · next stop hs =>
      cases h
      exact ⟨orMissing_ok.mp hs, rfl, rfl⟩
    · cases h
  · rintro ⟨hs, hc, hg⟩
    rw [hs]
    obtain ⟨ch, g, stop⟩ := w
    simp only at hc hg
    subst hc hg
    rfl

theorem windowOf_error {c : Config} {f : FrameBody} {lane : Nat × Nat} {e : Stop}
    (h : windowOf c f lane = .error e) :
    frameStop c f lane.1 lane.2 = none ∧ e = .fault .elementMissing := by
  simp only [windowOf] at h
  split at h
  · cases h
  · next e' he =>
    cases h
    exact orMissing_error he

/-- The windows of a frame stop in a fault only where a stop cell is missing. -/
theorem windowsOf_error {c : Config} {f : FrameBody} {e : Stop} (h : windowsOf c f = .error e) :
    e = .fault .elementMissing ∧ ∃ lane ∈ lanes c, frameStop c f lane.1 lane.2 = none := by
  obtain ⟨lane, hl, he⟩ := forEach_error h
  obtain ⟨h1, h2⟩ := windowOf_error he
  exact ⟨h2, lane, hl, h1⟩

theorem mem_lanes {c : Config} {lane : Nat × Nat} :
    lane ∈ lanes c ↔ lane.1 < c.nCh ∧ lane.2 < nGain := by
  obtain ⟨ch, g⟩ := lane
  simp [lanes]

/-- Row `ch * 2 + g` of the windows of a frame is the window of (ch, g). -/
theorem windowsOf_getElem? {c : Config} {f : FrameBody} {ws : List Window}
    (h : windowsOf c f = .ok ws) {ch g : Nat} (hc : ch < c.nCh) (hg : g < nGain) :
    ∃ stop, frameStop c f ch g = some stop ∧ ws[rowIndex ch g]? = some ⟨ch, g, stop⟩ := by
  obtain ⟨w, hw, hf⟩ := forEach_getElem? h _ _ (lanes_getElem? hc hg)
  obtain ⟨hs, h1, h2⟩ := windowOf_ok.mp hf
  obtain ⟨ch', g', stop⟩ := w
  simp only at h1 h2 hs
  subst h1 h2
  exact ⟨stop, hs, hw⟩

theorem windowsOf_length {c : Config} {f : FrameBody} {ws : List Window}
    (h : windowsOf c f = .ok ws) : ws.length = nGain * c.nCh := by
  rw [forEach_length h, lanes_length]

/-- Every window of a frame is that of some (ch, g). -/
theorem windowsOf_mem {c : Config} {f : FrameBody} {ws : List Window}
    (h : windowsOf c f = .ok ws) {w : Window} (hw : w ∈ ws) :
    w.ch < c.nCh ∧ w.g < nGain ∧ frameStop c f w.ch w.g = some w.stopCell := by
  obtain ⟨n, hn, hget⟩ := List.getElem_of_mem hw
  have hlen := forEach_length h
  obtain ⟨b, hb, hf⟩ := forEach_getElem? h n ((lanes c)[n]'(by omega))
    (List.getElem?_eq_getElem _)
  rw [List.getElem?_eq_getElem hn, hget] at hb
  cases hb
  obtain ⟨hs, h1, h2⟩ := windowOf_ok.mp hf
  have := mem_lanes.mp (List.getElem_mem (l := lanes c) (n := n) (by omega))
  rw [h1, h2]
  exact ⟨this.1, this.2, hs⟩

/-- In a frame of the right shape every (ch, g) has a stop cell below 4096. -/
theorem frameStop_of_ok {c : Config} (hc : configOk c = true) {f : FrameBody} (hf : FrameOk c f)
    {ch g : Nat} (h1 : ch < c.nCh) (h2 : g < nGain) :
    ∃ stop, frameStop c f ch g = some stop ∧ stop < totalCap := by
  simp only [configOk, Bool.and_eq_true, decide_eq_true_eq, List.all_eq_true] at hc
  have hlen : c.scMap.length = nGain * c.nCh := by tauto
  have hall : ∀ x ∈ c.scMap, x < c.nSc := by tauto
  have hi : ch * nGain + g < c.scMap.length := by
    rw [hlen]
    simp only [nGain] at *
    omega
  have hk := hall _ (List.getElem_mem hi)
  have hk' : c.scMap[ch * nGain + g] < f.stop.length := by rw [hf.stop_count]; exact hk
  refine ⟨f.stop[c.scMap[ch * nGain + g]], ?_, hf.stop_lt _ (List.getElem_mem hk')⟩
  simp only [frameStop, scMapAt, List.getElem?_eq_getElem hi, List.getElem?_eq_getElem hk']

/-- The windows of a frame of the right shape are there. -/
theorem windowsOf_exists {c : Config} (hc : configOk c = true) {f : FrameBody}
    (hf : FrameOk c f) : ∃ ws, windowsOf c f = .ok ws := by
  apply forEach_exists
  intro lane hl
  obtain ⟨h1, h2⟩ := mem_lanes.mp hl
  obtain ⟨stop, hs, _⟩ := frameStop_of_ok hc hf h1 h2
  exact ⟨⟨lane.1, lane.2, stop⟩, windowOf_ok.mpr ⟨hs, rfl, rfl⟩⟩

theorem windowKey_lt {c : Config} {w : Window} (hc : w.ch < c.nCh) (hg : w.g < nGain) (i : Nat) :
    windowKey w i < cellCount c := cellIndex_lt hc hg (sampleToCell_lt i w.stopCell)

/-! ### The ring -/

theorem rbRead_write {rb : Runs F64} (h : runsWf .nan 0 rb = true) (k j : Nat) (t : F64) :
    rbRead (rbWrite rb k t) j = if j = k then t else rbRead rb j :=
  runsRead_write t k j rb .nan 0 h

/-- The ring after one window is stamped: its cells hold the timestamp, every other entry is
unchanged, and the form is kept. -/
theorem stampWindow_spec (t : F64) (w : Window) (n : Nat) :
    ∀ (len : Nat) (rb : Runs F64), TableOk .nan n rb → (∀ i < len, windowKey w i < n) →
      TableOk .nan n (stampWindow t len rb w) ∧
        (∀ i < len, rbRead (stampWindow t len rb w) (windowKey w i) = t) ∧
        ∀ k, (∀ i < len, windowKey w i ≠ k) →
          rbRead (stampWindow t len rb w) k = rbRead rb k := by
  intro len
  induction len with
  | zero => exact fun rb h _ => ⟨h, by simp, fun _ _ => rfl⟩
  | succ len ih =>
    intro rb h hk
    obtain ⟨h1, h2, h3⟩ := ih rb h fun i hi => hk i (by omega)
    have hs : stampWindow t (len + 1) rb w = rbWrite (stampWindow t len rb w) (windowKey w len) t := by
      simp only [stampWindow, List.range_succ, List.foldl_append, List.foldl_cons, List.foldl_nil]
    rw [hs]
    refine ⟨h1.write (hk len (by omega)) t, ?_, ?_⟩
    · intro i hi
      rw [rbRead_write h1.1]
      split
      · rfl
      · next hne =>
        refine h2 i ?_
        rcases Nat.lt_succ_iff_lt_or_eq.mp hi with h | rfl
        · exact h
        · exact absurd rfl hne
    · intro k hkn
      rw [rbRead_write h1.1, if_neg (Ne.symm (hkn len (by omega)))]
      exact h3 k fun i hi => hkn i (by omega)

/-- The ring after a frame's windows are stamped. -/
theorem stampWindows_spec (t : F64) (len n : Nat) :
    ∀ (ws : List Window) (rb : Runs F64), TableOk .nan n rb →
      (∀ w ∈ ws, ∀ i < len, windowKey w i < n) →
        TableOk .nan n (stampWindows t len ws rb) ∧
          (∀ w ∈ ws, ∀ i < len, rbRead (stampWindows t len ws rb) (windowKey w i) = t) ∧
          ∀ k, (∀ w ∈ ws, ∀ i < len, windowKey w i ≠ k) →
            rbRead (stampWindows t len ws rb) k = rbRead rb k := by
  intro ws
  induction ws with
  | nil => exact fun rb h _ => ⟨h, by simp, fun _ _ => rfl⟩
  | cons w ws ih =>
    intro rb h hk
    obtain ⟨a1, a2, a3⟩ := stampWindow_spec t w n len rb h (hk w List.mem_cons_self)
    obtain ⟨b1, b2, b3⟩ := ih _ a1 fun v hv => hk v (List.mem_cons_of_mem _ hv)
    have hs : stampWindows t len (w :: ws) rb = stampWindows t len ws (stampWindow t len rb w) := rfl
    rw [hs]
    refine ⟨b1, ?_, ?_⟩
    · intro v hv i hi
      by_cases hin : ∃ u ∈ ws, ∃ j < len, windowKey u j = windowKey v i
      · obtain ⟨u, hu, j, hj, he⟩ := hin
        rw [← he]
        exact b2 u hu j hj
      · rcases List.mem_cons.mp hv with rfl | hv
        · rw [b3 _ fun u hu j hj he => hin ⟨u, hu, j, hj, he⟩]
          exact a2 i hi
        · exact absurd ⟨v, hv, i, hi, rfl⟩ hin
    · intro k hkn
      rw [b3 k fun v hv => hkn v (List.mem_cons_of_mem _ hv), a3 k (hkn w List.mem_cons_self)]

/-! ### The elapsed times -/

theorem elapsedRows_length (trk : Tracker) (rb : Runs F64) (t : F64) (len : Nat)
    (ws : List Window) : (elapsedRows trk rb t len ws).length = ws.length := List.length_map _

theorem elapsedRows_row (trk : Tracker) (rb : Runs F64) (t : F64) (len : Nat) (ws : List Window) :
    ∀ row ∈ elapsedRows trk rb t len ws, row.length = len := by
  intro row hrow
  obtain ⟨w, _, rfl⟩ := List.mem_map.mp hrow
  simp

/-- The elapsed time at a place of a row. -/
theorem elapsedRows_getElem? (trk : Tracker) (rb : Runs F64) (t : F64) (len : Nat)
    {ws : List Window} {n : Nat} {w : Window} (hw : ws[n]? = some w) {i : Nat} (hi : i < len) :
    ∃ row, (elapsedRows trk rb t len ws)[n]? = some row ∧
      row[i]? = some (elapsedOf trk rb t (windowKey w i)) := by
  refine ⟨(List.range len).map fun i => elapsedOf trk rb t (windowKey w i), ?_, ?_⟩
  · simp [elapsedRows, hw]
  · simp [hi]

end Sys2Proof.Machine
end

