-- ==== Sys2Proof/Laws/Pipeline.lean ====
section
/-! SUPPORT. What the pipeline's operations can do, said once: the write-back, the correction of one
sample, and the corrected rows of a frame. -/

namespace Sys2Proof.Machine

/-! ### The write-back -/

/-- The write-back answers with a rounded value in range, or raises ARITHMETIC_FAULT. -/
theorem writeBack_ok {c : Config} {y : F64} {x : Sample} (h : writeBack c y = .ok x) :
    ∃ r, roundWb c.wbRound y = some r ∧ -32768 ≤ r ∧ r ≤ 32767 ∧ x = BitVec.ofInt 16 r := by
  simp only [writeBack] at h
  split at h
  · cases h
  · next r hr =>
    split at h
    · cases h
    · next hb =>
      cases h
      exact ⟨r, hr, by omega, by omega, rfl⟩

theorem writeBack_error {c : Config} {y : F64} {e : Stop} (h : writeBack c y = .error e) :
    e = .code .arithmeticFault := by
  simp only [writeBack] at h
  split at h
  · cases h; rfl
  · split at h
    · cases h; rfl
    · cases h

/-! ### One sample -/

/-- A stage's offset is missing only where a table, the elapsed times or a window is. -/
theorem stageOffset_error {s : State} {dt : List (List F64)} {w : Window} {i k : Nat} {e : Stop}
    (h : stageOffset s dt w i k = .error e) : e = .fault .elementMissing := by
  have key : ∀ (o : Option F64) (f : Except Stop (Option F64)),
      f = (match orMissing o with | .ok v => .ok (some v) | .error e => .error e) →
        f = .error e → e = .fault .elementMissing := by
    intro o f hf he
    rw [hf] at he
    split at he
    · cases he
    · next e' hm =>
      cases he
      exact (orMissing_error hm).2
  match k with
  | 0 => cases h
  | 1 => exact key _ _ rfl h
  | 2 =>
    simp only [stageOffset] at h
    split at h
    · cases h
    · cases h; rfl
  | 3 => exact key _ _ rfl h
  | 4 =>
    simp only [stageOffset] at h
    split at h
    · exact key _ _ rfl h
    · cases h
  | k + 5 => cases h

/-- A sequence of steps stops as one of them does. -/
theorem inOrder_error {α : Type} {f : Nat → α → Except Stop α} {e : Stop} :
    ∀ {ks : List Nat} {x : α}, inOrder f ks x = .error e → ∃ k ∈ ks, ∃ y, f k y = .error e := by
  intro ks
  induction ks with
  | nil => intro x h; cases h
  | cons k ks ih =>
    intro x h
    simp only [inOrder] at h
    split at h
    · next e' he => cases h; exact ⟨k, List.mem_cons_self, x, he⟩
    · obtain ⟨j, hj, y, hy⟩ := ih h
      exact ⟨j, List.mem_cons_of_mem _ hj, y, hy⟩

/-- Steps that all pass every value through give it back. -/
theorem inOrder_identity {α : Type} {f : Nat → α → Except Stop α} :
    ∀ {ks : List Nat}, (∀ k ∈ ks, ∀ y, f k y = .ok y) → ∀ x, inOrder f ks x = .ok x := by
  intro ks
  induction ks with
  | nil => exact fun _ _ => rfl
  | cons k ks ih =>
    intro h x
    simp only [inOrder, h k List.mem_cons_self x]
    exact ih (fun j hj => h j (List.mem_cons_of_mem _ hj)) x

/-- How a stage can stop: with ARITHMETIC_FAULT, or as its offset does. -/
theorem applyStage_error {s : State} {dt : List (List F64)} {w : Window} {i k : Nat} {x : Sample}
    {e : Stop} (h : applyStage s dt w i k x = .error e) :
    e = .code .arithmeticFault ∨
      stageBit s.stageEn k = true ∧ stageOffset s dt w i k = .error e := by
  simp only [applyStage] at h
  split at h
  · next hen =>
    split at h
    · next e' he => cases h; exact .inr ⟨hen, he⟩
    · cases h
    · exact .inl (writeBack_error h)
  · cases h

/-- The correction of a sample stops with ARITHMETIC_FAULT or where an element is missing. -/
theorem correctSample_error {s : State} {dt : List (List F64)} {w : Window} {i : Nat} {x : Sample}
    {e : Stop} (h : correctSample s dt w i x = .error e) :
    e = .code .arithmeticFault ∨ e = .fault .elementMissing := by
  obtain ⟨k, _, y, hy⟩ := inOrder_error h
  rcases applyStage_error hy with h | ⟨_, h⟩
  · exact .inl h
  · exact .inr (stageOffset_error h)

/-- With every enabled stage's offset there, the correction can stop only with ARITHMETIC_FAULT. -/
theorem correctSample_error_code {s : State} {dt : List (List F64)} {w : Window} {i : Nat}
    (hk : ∀ k, 1 ≤ k → k ≤ 4 → stageBit s.stageEn k = true → ∃ o, stageOffset s dt w i k = .ok o)
    {x : Sample} {e : Stop} (h : correctSample s dt w i x = .error e) :
    e = .code .arithmeticFault := by
  obtain ⟨k, hmem, y, hy⟩ := inOrder_error h
  rcases applyStage_error hy with h | ⟨hen, h⟩
  · exact h
  · have : 1 ≤ k ∧ k ≤ 4 := by
      simp only [List.mem_cons, List.not_mem_nil, or_false] at hmem
      omega
    obtain ⟨o, ho⟩ := hk k this.1 this.2 hen
    rw [ho] at h
    cases h

/-- With no stage enabled a sample passes unchanged. -/
theorem correctSample_identity {s : State} (h : s.stageEn = 0) (dt : List (List F64)) (w : Window)
    (i : Nat) (x : Sample) : correctSample s dt w i x = .ok x := by
  apply inOrder_identity
  intro k _ y
  simp only [applyStage]
  rw [if_neg (by rw [h]; exact fun hb => by simp [stageBit] at hb)]

/-- The correction reads the configuration, STAGE_EN and ACS of the state, nothing else
(43_calibration.md R262). -/
theorem stageOffset_congr {s t : State} (hc : t.cfg = s.cfg) (ha : t.acs = s.acs)
    (dt : List (List F64)) (w : Window) (i k : Nat) :
    stageOffset t dt w i k = stageOffset s dt w i k := by
  match k with
  | 0 => rfl
  | 1 => simp only [stageOffset, ha]
  | 2 => simp only [stageOffset, ha, hc]
  | 3 => simp only [stageOffset, ha, hc, cellKey]
  | 4 => simp only [stageOffset, ha, hc, cellKey]
  | k + 5 => rfl

theorem correctSample_congr {s t : State} (hc : t.cfg = s.cfg) (he : t.stageEn = s.stageEn)
    (ha : t.acs = s.acs) (dt : List (List F64)) (w : Window) (i : Nat) (x : Sample) :
    correctSample t dt w i x = correctSample s dt w i x := by
  have h : applyStage t dt w i = applyStage s dt w i := by
    funext k y
    simp only [applyStage, he, hc, stageOffset_congr hc ha]
  simp only [correctSample, h]

/-! ### Frames -/

theorem correctedRows_congr {s t : State} (hc : t.cfg = s.cfg) (he : t.stageEn = s.stageEn)
    (ha : t.acs = s.acs) (f : FrameBody) (dt : List (List F64)) :
    correctedRows t f dt = correctedRows s f dt := by
  have h : ∀ w i, correctAt t f dt w i = correctAt s f dt w i := by
    intro w i
    simp only [correctAt]
    split
    · exact correctSample_congr hc he ha dt w i _
    · rfl
  have h2 : ∀ w, correctAt t f dt w = correctAt s f dt w := fun w => funext (h w)
  simp only [correctedRows, hc, h2]

theorem rowElem_eq_some {α : Type} {rows : List (List α)} {ch g i : Nat} {x : α} :
    rowElem rows ch g i = some x ↔
      ∃ row, rows[rowIndex ch g]? = some row ∧ row[i]? = some x := by
  simp only [rowElem]
  constructor
  · intro h
    split at h
    · next row hr => exact ⟨row, hr, h⟩
    · cases h
  · rintro ⟨row, hr, hx⟩
    simp only [hr, hx]

/-- In a buffer of the right shape every (ch, g, i) has an element. -/
theorem rowElem_of_shape {α : Type} {rows : List (List α)} {nCh len ch g i : Nat}
    (hn : rows.length = nGain * nCh) (hr : ∀ row ∈ rows, row.length = len) (hc : ch < nCh)
    (hg : g < nGain) (hi : i < len) : ∃ x, rowElem rows ch g i = some x := by
  have hb : rowIndex ch g < rows.length := by
    rw [hn]
    simp only [rowIndex, nGain] at *
    omega
  have hl : i < (rows[rowIndex ch g]).length := by
    rw [hr _ (List.getElem_mem hb)]
    exact hi
  exact ⟨_, rowElem_eq_some.mpr ⟨_, List.getElem?_eq_getElem hb, List.getElem?_eq_getElem hl⟩⟩

/-- The corrected rows of a frame: their shape, and each corrected sample. -/
theorem correctedRows_ok {s : State} {f : FrameBody} {dt : List (List F64)}
    {rows : List (List Sample)} (h : correctedRows s f dt = .ok rows) :
    ∃ ws, windowsOf s.cfg f = .ok ws ∧ rows.length = nGain * s.cfg.nCh ∧
      (∀ row ∈ rows, row.length = f.len) ∧
      ∀ ch g i, ch < s.cfg.nCh → g < nGain → i < f.len → ∃ stop x,
        frameStop s.cfg f ch g = some stop ∧ rowElem rows ch g i = some x ∧
          correctAt s f dt ⟨ch, g, stop⟩ i = .ok x := by
  simp only [correctedRows] at h
  split at h
  · cases h
  · next ws hws =>
    refine ⟨ws, hws, ?_, ?_, ?_⟩
    · rw [forEach_length h, windowsOf_length hws]
    · intro row hrow
      obtain ⟨n, hn, hget⟩ := List.getElem_of_mem hrow
      have hlen := forEach_length h
      obtain ⟨b, hb, hf⟩ := forEach_getElem? h n (ws[n]'(by omega)) (List.getElem?_eq_getElem _)
      rw [List.getElem?_eq_getElem hn] at hb
      cases hb
      rw [← hget, forEach_length hf, List.length_range]
    · intro ch g i hc hg hi
      obtain ⟨stop, hs, hw⟩ := windowsOf_getElem? hws hc hg
      obtain ⟨row, hrow, hf⟩ := forEach_getElem? h _ _ hw
      obtain ⟨x, hx, hcx⟩ := forEach_getElem? hf i i (by simp [hi])
      exact ⟨stop, x, hs, rowElem_eq_some.mpr ⟨row, hrow, hx⟩, hcx⟩

/-- The correction of a frame stops as it does on some sample, or where a stop cell is missing. -/
theorem correctedRows_error {s : State} {f : FrameBody} {dt : List (List F64)} {e : Stop}
    (h : correctedRows s f dt = .error e) :
    (e = .fault .elementMissing ∧ ∃ lane ∈ lanes s.cfg, frameStop s.cfg f lane.1 lane.2 = none) ∨
      ∃ ch g i stop, ch < s.cfg.nCh ∧ g < nGain ∧ i < f.len ∧
        frameStop s.cfg f ch g = some stop ∧ correctAt s f dt ⟨ch, g, stop⟩ i = .error e := by
  simp only [correctedRows] at h
  split at h
  · next e' he =>
    cases h
    obtain ⟨h1, h2⟩ := windowsOf_error he
    exact .inl ⟨h1, h2⟩
  · next ws hws =>
    obtain ⟨w, hw, hf⟩ := forEach_error h
    obtain ⟨i, hi, hc⟩ := forEach_error hf
    obtain ⟨h1, h2, h3⟩ := windowsOf_mem hws hw
    exact .inr ⟨w.ch, w.g, i, w.stopCell, h1, h2, by simpa using hi, h3, hc⟩

/-- The correction of a frame succeeds exactly when it does on every sample. -/
theorem correctedRows_exists {s : State} {f : FrameBody} {dt : List (List F64)}
    {ws : List Window} (hws : windowsOf s.cfg f = .ok ws)
    (h : ∀ ch g i stop, ch < s.cfg.nCh → g < nGain → i < f.len →
      frameStop s.cfg f ch g = some stop → ∃ x, correctAt s f dt ⟨ch, g, stop⟩ i = .ok x) :
    ∃ rows, correctedRows s f dt = .ok rows := by
  simp only [correctedRows, hws]
  apply forEach_exists
  intro w hw
  obtain ⟨h1, h2, h3⟩ := windowsOf_mem hws hw
  apply forEach_exists
  intro i hi
  exact h w.ch w.g i w.stopCell h1 h2 (by simpa using hi) h3

/-- In a state that meets the invariant, every enabled stage's offset is there for every sample of a
frame of the right shape (43_calibration.md R263). -/
theorem stageOffset_exists {s : State} (hc : configOk s.cfg = true) (hp : PipelineOk s)
    {f : FrameBody} (hf : FrameOk s.cfg f) {dt : List (List F64)}
    (hdt : stageBit s.stageEn 2 = true → dt.length = nGain * s.cfg.nCh ∧
      ∀ row ∈ dt, row.length = f.len)
    {ch g i stop k : Nat} (h1 : ch < s.cfg.nCh) (h2 : g < nGain) (hi : i < f.len)
    (hs : frameStop s.cfg f ch g = some stop) (hk1 : 1 ≤ k) (hk4 : k ≤ 4)
    (hen : stageBit s.stageEn k = true) : ∃ o, stageOffset s dt ⟨ch, g, stop⟩ i k = .ok o := by
  have hfull := hp.1 k hk1 hk4 hen
  have hstop : stop < totalCap := by
    obtain ⟨stop', h, h'⟩ := frameStop_of_ok hc hf h1 h2
    rw [hs] at h
    cases h
    exact h'
  have hkey : windowKey ⟨ch, g, stop⟩ i < cellCount s.cfg := windowKey_lt h1 h2 i
  have hck : cellKey s.cfg ⟨ch, g, stop⟩ i < totalCap := by
    simp only [cellKey]
    split
    · exact sampleToCell_lt i stop
    · exact hstop
  have some_of : ∀ {t : Runs (Option F64)} {n j : Nat}, tableFull (t, n) = true → j < n →
      ∃ v, calRead t j = some v :=
    fun ht hj => Option.ne_none_iff_exists'.mp (tableFull_iff.mp ht _ hj)
  obtain rfl | rfl | rfl | rfl : k = 1 ∨ k = 2 ∨ k = 3 ∨ k = 4 := by omega
  · simp only [stageFull, stageTables, List.all_cons, List.all_nil, Bool.and_true] at hfull
    obtain ⟨v, hv⟩ := some_of hfull hkey
    exact ⟨some v, by simp only [stageOffset, hv, orMissing]⟩
  · simp only [stageFull, stageTables, List.all_cons, List.all_nil, Bool.and_true,
      Bool.and_eq_true] at hfull
    obtain ⟨a, ha⟩ := some_of hfull.1 hkey
    obtain ⟨b, hb⟩ := some_of hfull.2.1 hkey
    obtain ⟨d, hd⟩ := some_of hfull.2.2 hkey
    obtain ⟨x, hx⟩ := rowElem_of_shape (hdt hen).1 (hdt hen).2 h1 h2 hi
    exact ⟨some (powerLaw s.cfg x a b d), by simp only [stageOffset, hx, ha, hb, hd]⟩
  · simp only [stageFull, stageTables, List.all_cons, List.all_nil, Bool.and_true] at hfull
    obtain ⟨v, hv⟩ := some_of hfull
      (posIndex_lt h1 h2 hck (Nat.lt_of_lt_of_le hi hf.len_le))
    exact ⟨some v, by simp only [stageOffset, hv, orMissing]⟩
  · simp only [stageFull, stageTables, List.all_cons, List.all_nil, Bool.and_true] at hfull
    by_cases hpre : i < s.cfg.prefixLen
    · obtain ⟨v, hv⟩ := some_of hfull (posIndex_lt h1 h2 hck hpre)
      exact ⟨some v, by simp only [stageOffset, if_pos hpre, hv, orMissing]⟩
    · exact ⟨none, by simp only [stageOffset, if_neg hpre]⟩

end Sys2Proof.Machine
end

