-- ==== Sys2Proof/Laws/Commands.lean ====
section
/-! SUPPORT. What each command can do, said once: if it answers a next state, then which. -/

namespace Sys2Proof.Machine

theorem execNop_next {s t : State} (h : execNop s = .next t) : t = s.withStatus 0 :=
  (complete_next s t).mp h

theorem execReset_next {s t : State} (h : execReset s = .next t) : t = s.powerOn := by
  have := (complete_next _ _).mp h
  rw [this]
  rfl

theorem execSetlayoutA_next {s t : State} (h : execSetlayoutA s = .next t) :
    t = (s.withLayout (some .a)).withStatus 0 := (complete_next _ _).mp h

theorem execSetlayoutB_next {s t : State} (h : execSetlayoutB s = .next t) :
    t = (s.withLayout (some .b)).withStatus 0 := (complete_next _ _).mp h

/-- PROBE selects Layout A or B, or raises a code of `parse_frame`. -/
theorem execProbe_next {s t : State} (h : execProbe s = .next t) :
    (s.fatal = true ∧ t = s.withStatus 3) ∨
    (s.fatal = false ∧
      ((∃ r, parseFrame s .a s.pos.toNat = .ok r ∧ t = (probed .a s).withStatus 0) ∨
      ((∃ c, parseFrame s .a s.pos.toNat = .error (.code c)) ∧
        ((∃ r, parseFrame s .b s.pos.toNat = .ok r ∧ t = (probed .b s).withStatus 0) ∨
        ∃ c, parseFrame s .b s.pos.toNat = .error (.code c) ∧
          t = s.withStatus (codeBits c))))) := by
  simp only [execProbe] at h
  split at h
  · next hf => exact .inl ⟨hf, (raise_next _ _ _).mp h⟩
  · next hf =>
    refine .inr ⟨by simpa using hf, ?_⟩
    split at h
    · next r hr => exact .inl ⟨r, hr, (complete_next _ _).mp h⟩
    · cases h
    · next c hc =>
      refine .inr ⟨⟨c, hc⟩, ?_⟩
      split at h
      · next r hr => exact .inl ⟨r, hr, (complete_next _ _).mp h⟩
      · next e he =>
        obtain ⟨c', rfl, ht⟩ := finish_error_next h
        exact .inr ⟨c', he, ht⟩

/-- SYNC measures a frame length into RES, or raises. -/
theorem execSync_next {s t : State} (h : execSync s = .next t) :
    (s.layout = none ∧ t = s.withStatus 7) ∨
    ∃ lay, s.layout = some lay ∧
      ((s.fatal = true ∧ t = s.withStatus 3) ∨
      (s.fatal = false ∧
        ((∃ fl, findFrameLength s lay s.pos.toNat = .ok fl ∧
          t = (s.withRes (BitVec.ofNat 64 fl)).withStatus 0) ∨
        (findFrameLength s lay s.pos.toNat = .error (.code .framingError) ∧
          t = s.withStatus 2)))) := by
  simp only [execSync] at h
  split at h
  · next hl => exact .inl ⟨hl, (raise_next _ _ _).mp h⟩
  · next lay hl =>
    refine .inr ⟨lay, hl, ?_⟩
    split at h
    · next hf => exact .inl ⟨hf, (raise_next _ _ _).mp h⟩
    · next hf =>
      refine .inr ⟨by simpa using hf, ?_⟩
      split at h
      · next fl hfl => exact .inl ⟨fl, hfl, (complete_next _ _).mp h⟩
      · next e he =>
        obtain ⟨c, rfl, ht⟩ := finish_error_next h
        rcases findFrameLength_error he with hc | ⟨hc, _⟩
        · cases hc
          exact .inr ⟨he, ht⟩
        · cases hc

/-- DECODE commits a frame, raises a header error that sets FATAL, or raises END_OF_STREAM or
FRAMING_ERROR. -/
theorem execDecode_next {s t : State} (h : execDecode s = .next t) :
    (s.layout = none ∧ t = s.withStatus 7) ∨
    ∃ lay, s.layout = some lay ∧
      ((s.fatal = true ∧ t = s.withStatus 3) ∨
      (s.fatal = false ∧
        ((∃ r, parseFrame s lay s.pos.toNat = .ok r ∧ t = (commitFrame s r).withStatus 0) ∨
        (parseFrame s lay s.pos.toNat = .error (.code .headerFormatError) ∧
          t = (s.withFatal true).withStatus 3) ∨
        (parseFrame s lay s.pos.toNat = .error (.code .endOfStream) ∧ t = s.withStatus 1) ∨
        (parseFrame s lay s.pos.toNat = .error (.code .framingError) ∧ t = s.withStatus 2)))) := by
  simp only [execDecode] at h
  split at h
  · next hl => exact .inl ⟨hl, (raise_next _ _ _).mp h⟩
  · next lay hl =>
    refine .inr ⟨lay, hl, ?_⟩
    split at h
    · next hf => exact .inl ⟨hf, (raise_next _ _ _).mp h⟩
    · next hf =>
      refine .inr ⟨by simpa using hf, ?_⟩
      split at h
      · next r hr => exact .inl ⟨r, hr, (complete_next _ _).mp h⟩
      · next he => exact .inr (.inl ⟨he, (raise_next _ _ _).mp h⟩)
      · next e hne he =>
        obtain ⟨c, rfl, ht⟩ := finish_error_next h
        rcases parseFrame_error he with hc | hc | hc | hc
        · cases hc; exact .inr (.inr (.inl ⟨he, ht⟩))
        · cases hc; exact .inr (.inr (.inr ⟨he, ht⟩))
        · cases hc; exact absurd rfl hne
        · cases hc

/-- SEEK raises ADDRESS_RANGE_ERROR, or moves POS and invalidates the tracker if it moved. -/
theorem execSeek_next {p : BitVec 48} {s t : State} (h : execSeek p s = .next t) :
    (s.streamLen < p.toNat ∧ t = s.withStatus 4) ∨
    (p.toNat ≤ s.streamLen ∧
      ((seekTarget p = s.pos ∧ t = s.withStatus 0) ∨
      (seekTarget p ≠ s.pos ∧
        t = ((s.withTrk .invalidatedOnce).withPos (seekTarget p)).withStatus 0))) := by
  have hp : (seekTarget p).toNat = p.toNat := by
    have := p.isLt
    simp only [seekTarget, BitVec.toNat_setWidth]
    omega
  simp only [execSeek, hp] at h
  split at h
  · next hl => exact .inl ⟨hl, (raise_next _ _ _).mp h⟩
  · next hl =>
    refine .inr ⟨by omega, ?_⟩
    split at h
    · next he => exact .inl ⟨he, (complete_next _ _).mp h⟩
    · next he => exact .inr ⟨he, (complete_next _ _).mp h⟩

/-- A translator command writes RES, or raises ADDRESS_RANGE_ERROR. -/
theorem translated_next {b : Bool} {n : Nat} {s t : State} (h : translated b n s = .next t) :
    (b = true ∧ t = (s.withRes (BitVec.ofNat 64 n)).withStatus 0) ∨
      (b = false ∧ t = s.withStatus 4) := by
  simp only [translated] at h
  split at h
  · next hb => exact .inl ⟨hb, (complete_next _ _).mp h⟩
  · next hb => exact .inr ⟨by simpa using hb, (raise_next _ _ _).mp h⟩

/-- OBSERVE writes EB, RB and TRK, or raises SEQUENCE_ERROR. -/
theorem execObserve_next {s t : State} (h : execObserve s = .next t) :
    ((s.fb = none ∨ ebCur s = true) ∧ t = s.withStatus 7) ∨
    ∃ f ws, s.fb = some f ∧ ebCur s = false ∧ windowsOf s.cfg f.body = .ok ws ∧
      t = (observed s f ws).withStatus 0 := by
  simp only [execObserve] at h
  split at h
  · next hf => exact .inl ⟨.inl hf, (raise_next _ _ _).mp h⟩
  · next f hf =>
    split at h
    · next he => exact .inl ⟨.inr he, (raise_next _ _ _).mp h⟩
    · next he =>
      split at h
      · next ws hws => exact .inr ⟨f, ws, hf, by simpa using he, hws, (complete_next _ _).mp h⟩
      · next e hws =>
        obtain ⟨c, rfl, _⟩ := finish_error_next h
        have := (windowsOf_error hws).1
        cases this

theorem execInvalidate_next {s t : State} (h : execInvalidate s = .next t) :
    t = (s.withTrk .invalidatedOnce).withStatus 0 := (complete_next _ _).mp h

/-- CALCFG installs the supplied stages, raises MISSING_CALIBRATION_CONSTANT, or, for a value no legal
word carries, ILLEGAL_COMMAND. -/
theorem execCalcfg_next {m : Field} {s t : State} (h : execCalcfg m s = .next t) :
    (16 ≤ m.toNat ∧ t = s.withStatus 8) ∨
    (m.toNat < 16 ∧
      ((∃ en, enabledStages s.cfg s.ct (m.setWidth 4) [1, 2, 3, 4] = .ok en ∧
        t = (s.withPipeline en (restrictStore s.ct en)).withStatus 0) ∨
      (enabledStages s.cfg s.ct (m.setWidth 4) [1, 2, 3, 4] =
          .error (.code .missingCalibrationConstant) ∧ t = s.withStatus 5))) := by
  unfold execCalcfg at h
  by_cases hm : operand m < 16
  · rw [if_pos hm] at h
    refine .inr ⟨hm, ?_⟩
    split at h
    · next en hen => exact .inl ⟨en, hen, (complete_next _ _).mp h⟩
    · next e he =>
      obtain ⟨c, rfl, ht⟩ := finish_error_next h
      have := (enabledStages_error he).1
      cases this
      exact .inr ⟨he, ht⟩
  · rw [if_neg hm] at h
    exact .inl ⟨by simpa [operand] using hm, (raise_next _ _ _).mp h⟩

/-- APPLY writes CB, or raises SEQUENCE_ERROR or ARITHMETIC_FAULT. -/
theorem execApply_next {s t : State} (h : execApply s = .next t) :
    ((s.fb = none ∨ (stageBit s.stageEn 2 = true ∧ ebCur s = false)) ∧ t = s.withStatus 7) ∨
    ∃ f, s.fb = some f ∧ ¬ (stageBit s.stageEn 2 = true ∧ ebCur s = false) ∧
      ((∃ rows, correctedRows s f.body (elapsedTimes s) = .ok rows ∧
        t = (s.withCorrected ⟨f.seq, { f.body with samples := rows }⟩).withStatus 0) ∨
      (correctedRows s f.body (elapsedTimes s) = .error (.code .arithmeticFault) ∧
        t = s.withStatus 6)) := by
  simp only [execApply] at h
  split at h
  · next hf => exact .inl ⟨.inl hf, (raise_next _ _ _).mp h⟩
  · next f hf =>
    split at h
    · next he => exact .inl ⟨.inr he, (raise_next _ _ _).mp h⟩
    · next he =>
      refine .inr ⟨f, hf, he, ?_⟩
      split at h
      · next rows hrows => exact .inl ⟨rows, hrows, (complete_next _ _).mp h⟩
      · next e hrows =>
        obtain ⟨c, rfl, ht⟩ := finish_error_next h
        rcases correctedRows_error hrows with ⟨hc, _⟩ | ⟨ch, g, i, stop, _, _, _, _, hc⟩
        · cases hc
        · simp only [correctAt] at hc
          split at hc
          · rcases correctSample_error hc with hc | hc
            · cases hc
              exact .inr ⟨hrows, ht⟩
            · cases hc
          · cases hc

end Sys2Proof.Machine
end

