-- ==== Sys2Proof/Laws/Encoding.lean ====
section
/-! SUPPORT. The fields of a word as numbers: a word with Z = 0 is its four fields put together, and
the fields of a word put together are those fields (30_encoding.md R130). -/

namespace Sys2Proof

theorem toNat_append_add {n m : Nat} (x : BitVec n) (y : BitVec m) :
    (x ++ y).toNat = x.toNat * 2 ^ m + y.toNat := by
  rw [BitVec.toNat_append, ← Nat.shiftLeft_add_eq_or_of_lt y.isLt, Nat.shiftLeft_eq]

theorem wordOf_toNat (op : Byte) (a b c : Field) : (wordOf op a b c).toNat =
    op.toNat * 2 ^ 56 + a.toNat * 2 ^ 40 + b.toNat * 2 ^ 24 + c.toNat * 2 ^ 8 := by
  simp only [wordOf]
  rw [toNat_append_add, toNat_append_add, toNat_append_add, toNat_append_add]
  simp
  omega

/-- The word of a SEEK as a number. -/
theorem seek_toNat (p : BitVec 48) :
    (encode (.seek p)).toNat = 0x14 * 2 ^ 56 + p.toNat * 2 ^ 8 := by
  simp only [encode]
  rw [toNat_append_add, toNat_append_add]
  simp
  omega

theorem fieldOp_toNat (w : Word) : (fieldOp w).toNat = w.toNat / 2 ^ 56 % 2 ^ 8 := by
  simp only [fieldOp, BitVec.extractLsb'_toNat, Nat.shiftRight_eq_div_pow]

theorem fieldA_toNat (w : Word) : (fieldA w).toNat = w.toNat / 2 ^ 40 % 2 ^ 16 := by
  simp only [fieldA, BitVec.extractLsb'_toNat, Nat.shiftRight_eq_div_pow]

theorem fieldB_toNat (w : Word) : (fieldB w).toNat = w.toNat / 2 ^ 24 % 2 ^ 16 := by
  simp only [fieldB, BitVec.extractLsb'_toNat, Nat.shiftRight_eq_div_pow]

theorem fieldC_toNat (w : Word) : (fieldC w).toNat = w.toNat / 2 ^ 8 % 2 ^ 16 := by
  simp only [fieldC, BitVec.extractLsb'_toNat, Nat.shiftRight_eq_div_pow]

theorem fieldZ_toNat (w : Word) : (fieldZ w).toNat = w.toNat % 2 ^ 8 := by
  simp only [fieldZ, BitVec.extractLsb'_toNat, Nat.shiftRight_eq_div_pow, Nat.pow_zero, Nat.div_one]

theorem fieldP_toNat (w : Word) : (fieldP w).toNat = w.toNat / 2 ^ 8 % 2 ^ 48 := by
  simp only [fieldP, BitVec.extractLsb'_toNat, Nat.shiftRight_eq_div_pow]

/-- The fields of a word put together from fields. -/
theorem fields_wordOf (op : Byte) (a b c : Field) :
    fieldOp (wordOf op a b c) = op ∧ fieldA (wordOf op a b c) = a ∧ fieldB (wordOf op a b c) = b ∧
      fieldC (wordOf op a b c) = c ∧ fieldZ (wordOf op a b c) = 0 := by
  have h1 := op.isLt
  have h2 := a.isLt
  have h3 := b.isLt
  have h4 := c.isLt
  refine ⟨?_, ?_, ?_, ?_, ?_⟩ <;> apply BitVec.eq_of_toNat_eq
  · rw [fieldOp_toNat, wordOf_toNat]
    omega
  · rw [fieldA_toNat, wordOf_toNat]
    omega
  · rw [fieldB_toNat, wordOf_toNat]
    omega
  · rw [fieldC_toNat, wordOf_toNat]
    omega
  · rw [fieldZ_toNat, wordOf_toNat]
    simp
    omega

/-- A word with Z = 0 is its four fields put together. -/
theorem wordOf_fields (w : Word) (h : fieldZ w = 0) :
    wordOf (fieldOp w) (fieldA w) (fieldB w) (fieldC w) = w := by
  have hz : w.toNat % 2 ^ 8 = 0 := by
    rw [← fieldZ_toNat, h]
    rfl
  have hw := w.isLt
  apply BitVec.eq_of_toNat_eq
  rw [wordOf_toNat, fieldOp_toNat, fieldA_toNat, fieldB_toNat, fieldC_toNat]
  omega

/-- The fields of the word of a SEEK. -/
theorem fields_seek (p : BitVec 48) : fieldOp (encode (.seek p)) = 0x14 ∧
    fieldP (encode (.seek p)) = p ∧ fieldZ (encode (.seek p)) = 0 := by
  have hp := p.isLt
  refine ⟨?_, ?_, ?_⟩ <;> apply BitVec.eq_of_toNat_eq
  · rw [fieldOp_toNat, seek_toNat]
    simp
    omega
  · rw [fieldP_toNat, seek_toNat]
    omega
  · rw [fieldZ_toNat, seek_toNat]
    simp

/-- A word with Z = 0 and the opcode of SEEK is the word of its SEEK. -/
theorem seek_field (w : Word) (h : fieldZ w = 0) (ho : (fieldOp w).toNat = 0x14) :
    encode (.seek (fieldP w)) = w := by
  have hz : w.toNat % 2 ^ 8 = 0 := by
    rw [← fieldZ_toNat, h]
    rfl
  have hw := w.isLt
  rw [fieldOp_toNat] at ho
  apply BitVec.eq_of_toNat_eq
  rw [seek_toNat, fieldP_toNat]
  omega

end Sys2Proof
end

