-- ==== Sys2Proof/Laws/Invariant.lean ====
section
/-! SUPPORT. The invariant of the machine under each named update: what each update must respect for the
state after it to meet the invariant. -/

namespace Sys2Proof.Machine

/-- The tags of a state whose buffers, counters and frame lengths are those of another. -/
theorem TagsOk.congr {s t : State} (h : TagsOk s) (h1 : t.fb = s.fb) (h2 : t.fseq = s.fseq)
    (h3 : t.eb = s.eb) (h4 : t.cb = s.cb) (h5 : t.prevFl = s.prevFl)
    (h6 : t.prevFlValid = s.prevFlValid) : TagsOk t := by
  constructor
  · rw [h1, h2, h3, h4]; exact h.none_fb
  · rw [h1, h2]; exact h.fb_seq
  · rw [h1, h6]; exact h.prev_valid
  · rw [h1, h5]; exact h.prev_fl
  · rw [h2, h3]; exact h.eb_old
  · rw [h2, h4]; exact h.cb_old
  · rw [h1, h3]; exact h.eb_len
  · rw [h1, h4]; exact h.cb_len

variable {s : State}

theorem State.Good.withStatus (hg : s.Good) {b : Byte} (hb : b.toNat ≤ 8) : (s.withStatus b).Good where
  config := hg.config
  stream := hg.stream
  status := hb
  fatal_layout := hg.fatal_layout
  ring := hg.ring
  constants := hg.constants
  active := hg.active
  pipeline := hg.pipeline
  frame := hg.frame
  elapsed := hg.elapsed
  corrected := hg.corrected
  tags := hg.tags.congr rfl rfl rfl rfl rfl rfl

theorem State.Good.withRes (hg : s.Good) (w : Word) : (s.withRes w).Good where
  config := hg.config
  stream := hg.stream
  status := hg.status
  fatal_layout := hg.fatal_layout
  ring := hg.ring
  constants := hg.constants
  active := hg.active
  pipeline := hg.pipeline
  frame := hg.frame
  elapsed := hg.elapsed
  corrected := hg.corrected
  tags := hg.tags.congr rfl rfl rfl rfl rfl rfl

theorem State.Good.withLayout (hg : s.Good) (l : Layout) : (s.withLayout (some l)).Good where
  config := hg.config
  stream := hg.stream
  status := hg.status
  fatal_layout := fun _ => Option.some_ne_none l
  ring := hg.ring
  constants := hg.constants
  active := hg.active
  pipeline := hg.pipeline
  frame := hg.frame
  elapsed := hg.elapsed
  corrected := hg.corrected
  tags := hg.tags.congr rfl rfl rfl rfl rfl rfl

theorem State.Good.withFatal (hg : s.Good) (h : s.layout ≠ none) (b : Bool) : (s.withFatal b).Good where
  config := hg.config
  stream := hg.stream
  status := hg.status
  fatal_layout := fun _ => h
  ring := hg.ring
  constants := hg.constants
  active := hg.active
  pipeline := hg.pipeline
  frame := hg.frame
  elapsed := hg.elapsed
  corrected := hg.corrected
  tags := hg.tags.congr rfl rfl rfl rfl rfl rfl

theorem State.Good.withTrk (hg : s.Good) (t : Tracker) : (s.withTrk t).Good where
  config := hg.config
  stream := hg.stream
  status := hg.status
  fatal_layout := hg.fatal_layout
  ring := hg.ring
  constants := hg.constants
  active := hg.active
  pipeline := hg.pipeline
  frame := hg.frame
  elapsed := hg.elapsed
  corrected := hg.corrected
  tags := hg.tags.congr rfl rfl rfl rfl rfl rfl

theorem State.Good.withPort (hg : s.Good) (p : List HostEvent) : (s.withPort p).Good where
  config := hg.config
  stream := hg.stream
  status := hg.status
  fatal_layout := hg.fatal_layout
  ring := hg.ring
  constants := hg.constants
  active := hg.active
  pipeline := hg.pipeline
  frame := hg.frame
  elapsed := hg.elapsed
  corrected := hg.corrected
  tags := hg.tags.congr rfl rfl rfl rfl rfl rfl

theorem State.Good.fixStream (hg : s.Good) (b : Bool) : (s.fixStream b).Good where
  config := hg.config
  stream := hg.stream
  status := hg.status
  fatal_layout := hg.fatal_layout
  ring := hg.ring
  constants := hg.constants
  active := hg.active
  pipeline := hg.pipeline
  frame := hg.frame
  elapsed := hg.elapsed
  corrected := hg.corrected
  tags := hg.tags.congr rfl rfl rfl rfl rfl rfl

theorem State.Good.withReply (hg : s.Good) (v : HostValue) : (s.withReply v).Good where
  config := hg.config
  stream := hg.stream
  status := hg.status
  fatal_layout := hg.fatal_layout
  ring := hg.ring
  constants := hg.constants
  active := hg.active
  pipeline := hg.pipeline
  frame := hg.frame
  elapsed := hg.elapsed
  corrected := hg.corrected
  tags := hg.tags.congr rfl rfl rfl rfl rfl rfl

theorem State.Good.withPos (hg : s.Good) {p : Word} (hp : p.toNat ≤ s.streamLen) : (s.withPos p).Good where
  config := hg.config
  stream := ⟨hg.stream.1, hg.stream.2.1, hp⟩
  status := hg.status
  fatal_layout := hg.fatal_layout
  ring := hg.ring
  constants := hg.constants
  active := hg.active
  pipeline := hg.pipeline
  frame := hg.frame
  elapsed := hg.elapsed
  corrected := hg.corrected
  tags := hg.tags.congr rfl rfl rfl rfl rfl rfl

theorem State.Good.withCt (hg : s.Good) {ct : CalStore} (h : StoreOk s.cfg ct) : (s.withCt ct).Good where
  config := hg.config
  stream := hg.stream
  status := hg.status
  fatal_layout := hg.fatal_layout
  ring := hg.ring
  constants := h
  active := hg.active
  pipeline := hg.pipeline
  frame := hg.frame
  elapsed := hg.elapsed
  corrected := hg.corrected
  tags := hg.tags.congr rfl rfl rfl rfl rfl rfl

theorem Memory.streamLen_ofBytes (bytes : List Byte) :
    (s.withStream (Memory.ofBytes bytes)).streamLen = bytes.length := Memory.ofBytes_length bytes

theorem State.Good.withStream (hg : s.Good) {bytes : List Byte} (h1 : bytes.length < 2 ^ 64)
    (h2 : s.pos.toNat ≤ bytes.length) : (s.withStream (Memory.ofBytes bytes)).Good where
  config := hg.config
  stream := ⟨Memory.wf_ofBytes bytes, by rw [Memory.streamLen_ofBytes]; exact h1,
    by rw [Memory.streamLen_ofBytes]; exact h2⟩
  status := hg.status
  fatal_layout := hg.fatal_layout
  ring := hg.ring
  constants := hg.constants
  active := hg.active
  pipeline := hg.pipeline
  frame := hg.frame
  elapsed := hg.elapsed
  corrected := hg.corrected
  tags := hg.tags.congr rfl rfl rfl rfl rfl rfl

theorem TagsOk.reset {cfg : Config} {stream : Memory} {port : List HostEvent}
    {reply : Option HostValue} : TagsOk (.resetWith cfg stream port reply) where
  none_fb := fun _ => ⟨rfl, rfl, rfl⟩
  fb_seq := fun _ h => nomatch h
  prev_valid := rfl
  prev_fl := fun _ h => nomatch h
  eb_old := fun _ h => nomatch h
  cb_old := fun _ h => nomatch h
  eb_len := fun _ _ h => nomatch h
  cb_len := fun _ _ h => nomatch h

/-- The invariant holds again after a reset. -/
theorem State.Good.powerOn (hg : s.Good) : s.powerOn.Good where
  config := hg.config
  stream := ⟨hg.stream.1, hg.stream.2.1, Nat.zero_le _⟩
  status := Nat.zero_le _
  fatal_layout := fun h => nomatch h
  ring := .nil _ _
  constants := .empty _
  active := .empty _
  pipeline := ⟨fun k _ _ h => absurd h (by
    rw [show s.powerOn.stageEn = 0#4 from rfl, stageBit_zero]
    exact Bool.false_ne_true), by
    show restrictStore .empty 0#4 = .empty
    decide⟩
  frame := fun _ h => nomatch h
  elapsed := fun _ h => nomatch h
  corrected := fun _ h => nomatch h
  tags := .reset

/-- CALCFG installs a pipeline whose enabled stages have all their constants
(43_calibration.md R253). -/
theorem PipelineOk.installed {c : Config} {st : CalStore} {m en : BitVec 4}
    (h : enabledStages c st m [1, 2, 3, 4] = .ok en) (t : State) (hc : t.cfg = c)
    (he : t.stageEn = en) (ha : t.acs = restrictStore st en) : PipelineOk t := by
  have hks : ∀ k ∈ [1, 2, 3, 4], 1 ≤ k ∧ k ≤ 4 := by decide
  constructor
  · intro k h1 h4 hb
    rw [he] at hb
    have hk : k ∈ [1, 2, 3, 4] := by
      simp only [List.mem_cons, List.not_mem_nil, or_false]
      omega
    obtain ⟨hm, hr, hs⟩ := ((enabledStages_ok hks h).2 k h1).mp hb
    have hf := (enabledStages_ok hks h).1 k hk hr hs
    unfold stageFull at hf ⊢
    rw [ha, hc, stageTables_restrict hb]
    exact hf
  · rw [ha, he]
    exact restrictStore_idem _ _

theorem State.Good.withPipeline (hg : s.Good) {m en : BitVec 4}
    (h : enabledStages s.cfg s.ct m [1, 2, 3, 4] = .ok en) : (s.withPipeline en (restrictStore s.ct en)).Good where
  config := hg.config
  stream := hg.stream
  status := hg.status
  fatal_layout := hg.fatal_layout
  ring := hg.ring
  constants := hg.constants
  active := hg.constants.restrict en
  pipeline := .installed h _ rfl rfl rfl
  frame := hg.frame
  elapsed := hg.elapsed
  corrected := hg.corrected
  tags := hg.tags.congr rfl rfl rfl rfl rfl rfl

/-- OBSERVE keeps the invariant. -/
theorem State.Good.observed (hg : s.Good) {f : Frame} {ws : List Window} (hf : s.fb = some f)
    (hws : windowsOf s.cfg f.body = .ok ws) : (observed s f ws).Good where
  config := hg.config
  stream := hg.stream
  status := hg.status
  fatal_layout := hg.fatal_layout
  ring := (stampWindows_spec f.body.t f.body.len (cellCount s.cfg) ws s.rb hg.ring
    fun _ hw i _ => windowKey_lt (windowsOf_mem hws hw).1 (windowsOf_mem hws hw).2.1 i).1
  constants := hg.constants
  active := hg.active
  pipeline := hg.pipeline
  frame := hg.frame
  elapsed := by
    intro e he
    cases he
    exact ⟨(hg.frame f hf).len_pos, (hg.frame f hf).len_le,
      (elapsedRows_length _ _ _ _ _).trans (windowsOf_length hws), elapsedRows_row _ _ _ _ _⟩
  corrected := hg.corrected
  tags :=
    { none_fb := fun h => absurd (hf.symm.trans h) (Option.some_ne_none f)
      fb_seq := hg.tags.fb_seq
      prev_valid := hg.tags.prev_valid
      prev_fl := hg.tags.prev_fl
      eb_old := by
        intro e he
        cases he
        exact Nat.le_of_eq (congrArg BitVec.toNat (hg.tags.fb_seq f hf))
      cb_old := hg.tags.cb_old
      eb_len := by
        intro g e hg' he _
        cases he
        cases hf.symm.trans hg'
        rfl
      cb_len := hg.tags.cb_len }

/-- APPLY keeps the invariant. -/
theorem State.Good.withCorrected (hg : s.Good) {f : Frame} {rows : List (List Sample)}
    (hf : s.fb = some f) (h : correctedRows s f.body (elapsedTimes s) = .ok rows) :
    (s.withCorrected ⟨f.seq, { f.body with samples := rows }⟩).Good where
  config := hg.config
  stream := hg.stream
  status := hg.status
  fatal_layout := hg.fatal_layout
  ring := hg.ring
  constants := hg.constants
  active := hg.active
  pipeline := hg.pipeline
  frame := hg.frame
  elapsed := hg.elapsed
  corrected := by
    intro g he
    cases he
    obtain ⟨_, _, r1, r2, _⟩ := correctedRows_ok h
    have hfo := hg.frame f hf
    exact ⟨hfo.len_pos, hfo.len_le, hfo.stop_count, hfo.stop_lt, r1, r2, hfo.fl_eq, hfo.ticks_eq,
      hfo.time_eq⟩
  tags :=
    { none_fb := fun h => absurd (hf.symm.trans h) (Option.some_ne_none f)
      fb_seq := hg.tags.fb_seq
      prev_valid := hg.tags.prev_valid
      prev_fl := hg.tags.prev_fl
      eb_old := hg.tags.eb_old
      cb_old := by
        intro e he
        cases he
        exact Nat.le_of_eq (congrArg BitVec.toNat (hg.tags.fb_seq f hf))
      eb_len := hg.tags.eb_len
      cb_len := by
        intro g e hg' he _
        cases he
        cases hf.symm.trans hg'
        rfl }

/-- The tags after a frame is committed, the frame counter being below its last value. -/
theorem TagsOk.committed (hg : TagsOk s) (hroom : CounterRoom s) (r : FrameBody) :
    TagsOk (commitFrame s r) := by
  have hs : (s.fseq + 1).toNat = s.fseq.toNat + 1 := by
    unfold CounterRoom at hroom
    rw [BitVec.toNat_add]
    simp
    omega
  have hseq : (commitFrame s r).fseq = s.fseq + 1 := rfl
  have hfb : (commitFrame s r).fb = some ⟨s.fseq + 1, r⟩ := rfl
  have heb : (commitFrame s r).eb = s.eb := rfl
  have hcb : (commitFrame s r).cb = s.cb := rfl
  constructor
  · intro h
    rw [hfb] at h
    cases h
  · intro f h
    rw [hfb] at h
    cases h
    rfl
  · rfl
  · intro f h
    rw [hfb] at h
    cases h
    rfl
  · intro e h
    rw [heb] at h
    rw [hseq, hs]
    exact Nat.le_succ_of_le (hg.eb_old e h)
  · intro e h
    rw [hcb] at h
    rw [hseq, hs]
    exact Nat.le_succ_of_le (hg.cb_old e h)
  · intro f e h1 h2 h3
    rw [hfb] at h1
    rw [heb] at h2
    cases h1
    have := hg.eb_old e h2
    rw [h3, hs] at this
    omega
  · intro f e h1 h2 h3
    rw [hfb] at h1
    rw [hcb] at h2
    cases h1
    have := hg.cb_old e h2
    rw [h3, hs] at this
    omega

end Sys2Proof.Machine
end

