-- ==== Sys2Proof/Laws/PerInstr.lean ====
section
/-! SUPPORT. What holds of every command as syntax, one lemma per constructor: its word has its opcode
and no reserved bit set (30_encoding.md R130, R132). -/

namespace Sys2Proof.Laws

/-- The opcode of a command (30_encoding.md R132). -/
def opcode : Instr → Byte
  | .nop => 0x00
  | .reset => 0x01
  | .setlayoutA => 0x10
  | .setlayoutB => 0x10
  | .probe => 0x11
  | .sync => 0x12
  | .decode => 0x13
  | .seek _ => 0x14
  | .c2s _ _ => 0x20
  | .s2c _ _ => 0x21
  | .inwin _ _ _ => 0x22
  | .observe => 0x30
  | .invalidate => 0x31
  | .calcfg _ => 0x40
  | .apply => 0x41

/-- The word of a command has the command's opcode in OP and 0 in Z. -/
def EncodeShape.Statement (i : Instr) : Prop :=
  fieldOp (encode i) = opcode i ∧ fieldZ (encode i) = 0

theorem shape_wordOf (op : Byte) (a b c : Field) :
    fieldOp (wordOf op a b c) = op ∧ fieldZ (wordOf op a b c) = 0 :=
  ⟨(fields_wordOf op a b c).1, (fields_wordOf op a b c).2.2.2.2⟩

theorem EncodeShape.nop : EncodeShape.Statement .nop := shape_wordOf _ _ _ _
theorem EncodeShape.reset : EncodeShape.Statement .reset := shape_wordOf _ _ _ _
theorem EncodeShape.setlayoutA : EncodeShape.Statement .setlayoutA := shape_wordOf _ _ _ _
theorem EncodeShape.setlayoutB : EncodeShape.Statement .setlayoutB := shape_wordOf _ _ _ _
theorem EncodeShape.probe : EncodeShape.Statement .probe := shape_wordOf _ _ _ _
theorem EncodeShape.sync : EncodeShape.Statement .sync := shape_wordOf _ _ _ _
theorem EncodeShape.decode : EncodeShape.Statement .decode := shape_wordOf _ _ _ _
theorem EncodeShape.seek (p : BitVec 48) : EncodeShape.Statement (.seek p) :=
  ⟨(fields_seek p).1, (fields_seek p).2.2⟩
theorem EncodeShape.c2s (cell stopCell : Field) : EncodeShape.Statement (.c2s cell stopCell) :=
  shape_wordOf _ _ _ _
theorem EncodeShape.s2c (sampleIndex stopCell : Field) :
    EncodeShape.Statement (.s2c sampleIndex stopCell) := shape_wordOf _ _ _ _
theorem EncodeShape.inwin (cell stopCell captureLength : Field) :
    EncodeShape.Statement (.inwin cell stopCell captureLength) := shape_wordOf _ _ _ _
theorem EncodeShape.observe : EncodeShape.Statement .observe := shape_wordOf _ _ _ _
theorem EncodeShape.invalidate : EncodeShape.Statement .invalidate := shape_wordOf _ _ _ _
theorem EncodeShape.calcfg (mask : Field) : EncodeShape.Statement (.calcfg mask) :=
  shape_wordOf _ _ _ _
theorem EncodeShape.apply : EncodeShape.Statement .apply := shape_wordOf _ _ _ _

end Sys2Proof.Laws
end

