-- ==== Sys2Proof/Tests/Slice0.lean ====
section
/-! SUPPORT. Tests. The expected values are those of the spec (95_test_vectors.md, 30_encoding.md R142
and R134), or worked by hand from the rule named. The last part shows, for each statement with
hypotheses, a state and operands that meet them. -/

set_option Elab.async false

namespace Sys2Proof.Tests

open Sys2Proof.Machine Sys2Proof.Claims

/-! ### What a test looks at -/

/-- The next state of an outcome, if it is one. -/
def ended (o : Host.Outcome State Fault Refusal) : Option State :=
  match o with
  | .next t => some t
  | .fault _ => none
  | .refused _ => none

theorem next_of {o : Host.Outcome State Fault Refusal} {t : State} (h : ended o = some t) :
    o = .next t := by
  cases o with
  | next u => exact congrArg _ (Option.some.inj h)
  | fault _ => cases h
  | refused _ => cases h

/-- The word is read as that command. -/
def readsAs (w : Word) (i : Instr) : Bool :=
  match decode w with
  | .ok j => decide (j = i)
  | .error _ => false

/-- The word is illegal for that reason. -/
def refusedAs (w : Word) (e : IllegalWord) : Bool :=
  match decode w with
  | .ok _ => false
  | .error f => decide (f = e)

theorem decode_of {w : Word} {i : Instr} (h : readsAs w i = true) : decode w = .ok i := by
  unfold readsAs at h
  cases hd : decode w with
  | ok j =>
    rw [hd] at h
    exact congrArg _ (of_decide_eq_true h)
  | error e =>
    rw [hd] at h
    cases h

/-- STATUS and RES of the next state. -/
def report (o : Host.Outcome State Fault Refusal) : Option (Byte × Word) :=
  (ended o).map fun t => (t.status, t.res)

/-! ### Well-formed commands -/

/-- The one check of WellFormed refuses a mask with a bit above bit 3 (30_encoding.md R133). -/
theorem test_wellFormed_refuses_wide_mask : (Instr.calcfg 16).wellFormed = false := by decide

theorem test_wellFormed_accepts_full_mask : (Instr.calcfg 15).wellFormed = true := by decide

/-! ### Words written out from the encoding tables (30_encoding.md R134, R142; 95_test_vectors.md
3.1, 3.3) -/

theorem test_decode_nop : readsAs 0x0000000000000000 .nop = true := by decide +kernel
theorem test_decode_reset : readsAs 0x0100000000000000 .reset = true := by decide +kernel
theorem test_decode_setlayoutA : readsAs 0x1000010000000000 .setlayoutA = true := by decide +kernel
theorem test_decode_setlayoutB : readsAs 0x1000020000000000 .setlayoutB = true := by decide +kernel
theorem test_decode_probe : readsAs 0x1100000000000000 .probe = true := by decide +kernel
theorem test_decode_sync : readsAs 0x1200000000000000 .sync = true := by decide +kernel
theorem test_decode_decode : readsAs 0x1300000000000000 .decode = true := by decide +kernel
theorem test_decode_seek : readsAs 0x1400000000003400 (.seek 52) = true := by decide +kernel
theorem test_decode_seek_widest :
    readsAs 0x14FFFFFFFFFFFF00 (.seek 0xFFFFFFFFFFFF) = true := by decide +kernel
theorem test_decode_c2s : readsAs 0x2000050FFA000000 (.c2s 5 4090) = true := by decide +kernel
theorem test_decode_s2c : readsAs 0x21000B0FFA000000 (.s2c 11 4090) = true := by decide +kernel
theorem test_decode_inwin :
    readsAs 0x2200050FFA000C00 (.inwin 5 4090 12) = true := by decide +kernel
theorem test_decode_observe : readsAs 0x3000000000000000 .observe = true := by decide +kernel
theorem test_decode_invalidate : readsAs 0x3100000000000000 .invalidate = true := by decide +kernel
theorem test_decode_calcfg : readsAs 0x40000F0000000000 (.calcfg 15) = true := by decide +kernel
theorem test_decode_apply : readsAs 0x4100000000000000 .apply = true := by decide +kernel

/-- EN2 to EN5, EN8 to EN11. -/
theorem test_decode_illegal :
    (refusedAs 0x0000000000000001 .reservedZ &&
      refusedAs 0x5000000000000000 (.unassignedOpcode 0x50) &&
      refusedAs 0x1000000000000000 .layoutOperand && refusedAs 0x1000030000000000 .layoutOperand &&
      refusedAs 0x1100000000000100 .unusedField && refusedAs 0x2000000000000100 .unusedField &&
      refusedAs 0x3000010000000000 .unusedField &&
      refusedAs 0x4000100000000000 .maskOperand) = true := by decide +kernel

/-- Every opcode and the operand fields at their widest are written back as they were read. -/
theorem test_encode :
    [Instr.nop, .reset, .setlayoutA, .setlayoutB, .probe, .sync, .decode, .seek 0xFFFFFFFFFFFF,
      .c2s 0xFFFF 0, .s2c 0 0xFFFF, .inwin 4095 4095 4096, .observe, .invalidate, .calcfg 15,
      .apply].map encode =
    [0x0000000000000000, 0x0100000000000000, 0x1000010000000000, 0x1000020000000000,
      0x1100000000000000, 0x1200000000000000, 0x1300000000000000, 0x14FFFFFFFFFFFF00,
      0x20FFFF0000000000, 0x210000FFFF000000, 0x220FFF0FFF100000, 0x3000000000000000,
      0x3100000000000000, 0x40000F0000000000, 0x4100000000000000] := by decide +kernel

/-- The table's numbering: one word of 64 bits, bit 0 the least significant. -/
theorem test_decodeTableWord :
    decodeTableWord 64 0x1400000000003400 = some (.seek 52) ∧
      decodeTableWord 64 0x5000000000000000 = none := by decide +kernel

/-! ### The configuration TC and the streams of 95_test_vectors.md -/

theorem test_tc_is_legal : configOk .tc = true := by decide +kernel

/-- 95_test_vectors.md 1.1: the offsets, the header lengths and the lookahead. -/
theorem test_tc_sizes :
    (moffA .tc, hdrA .tc, moffB .tc, hdrB .tc, o133 .tc, lookahead .tc .a, lookahead .tc .b) =
      (20, 36, 24, 36, 16, 49206, 49206) := by decide +kernel

/-- Frame F1 of stream S1 (95_test_vectors.md 1.2). -/
def bytesF1 : List Byte :=
  [0xA5, 0x5A, 0x00, 0x01, 0x00, 0x98, 0x96, 0x80, 0x00, 0x00, 0x00, 0x01, 0x00,
   0x00, 0x00, 0x01, 0x00, 0x00, 0x00, 0x00, 0x07, 0xED, 0x6B, 0x40, 0xEE, 0xEE,
   0xEE, 0xEE, 0xEE, 0xEE, 0xEE, 0xEE, 0x0F, 0xFE, 0x00, 0x0A, 0x03, 0xE8, 0x00,
   0xC8, 0x03, 0xE9, 0x00, 0xC9, 0xFF, 0xFB, 0x83, 0x00, 0x01, 0x2C, 0x00, 0x00]

/-- Frame F2 of stream S1. -/
def bytesF2 : List Byte :=
  [0xA5, 0x5A, 0x00, 0x02, 0x01, 0x31, 0x2D, 0x00, 0x00, 0x00, 0x00, 0x02, 0x00,
   0x00, 0x00, 0x02, 0x00, 0x00, 0x00, 0x00, 0x0F, 0xDA, 0xD6, 0x80, 0xEE, 0xEE,
   0xEE, 0xEE, 0xEE, 0xEE, 0xEE, 0xEE, 0x0F, 0xFF, 0x00, 0x0B, 0x03, 0xF2, 0x00,
   0xD2, 0x03, 0xF3, 0x00, 0xD3, 0x00, 0x05, 0x00, 0x07, 0x01, 0x36, 0x00, 0x08]

/-- Frame F3 of stream S1. -/
def bytesF3 : List Byte :=
  [0xA5, 0x5A, 0x00, 0x03, 0x01, 0xC9, 0xC3, 0x80, 0x00, 0x00, 0x00, 0x03, 0x00,
   0x00, 0x00, 0x03, 0x00, 0x00, 0x00, 0x00, 0x17, 0xC8, 0x41, 0xC0, 0xEE, 0xEE,
   0xEE, 0xEE, 0xEE, 0xEE, 0xEE, 0xEE, 0x00, 0x00, 0x0F, 0xFF, 0x03, 0xFC, 0x00,
   0xDC, 0x03, 0xFD, 0x00, 0xDD, 0x00, 0x0F, 0x00, 0x11, 0x01, 0x40, 0x00, 0x12]

/-- Frame FA1 of stream SA (95_test_vectors.md 1.3). -/
def bytesFA1 : List Byte :=
  [0x00, 0x00, 0x00, 0x07, 0x00, 0x00, 0x00, 0x08, 0x00, 0x00, 0x00, 0x00, 0x00,
   0x00, 0x00, 0x10, 0x00, 0x05, 0x0F, 0xFA, 0xC0, 0xC1, 0xC2, 0xC3, 0xC4, 0xC5,
   0xC6, 0xC7, 0xC8, 0xC9, 0xCA, 0xCB, 0xCC, 0xCD, 0xCE, 0xCF, 0x00, 0x01, 0x00,
   0x03, 0x00, 0x02, 0x00, 0x04, 0x00, 0x05, 0x00, 0x07, 0x00, 0x06, 0x00, 0x08]

/-- Frame FA2 of stream SA. -/
def bytesFA2 : List Byte :=
  [0x00, 0x00, 0x00, 0x08, 0x00, 0x00, 0x00, 0x09, 0x00, 0x00, 0x00, 0x00, 0x00,
   0x00, 0x00, 0x18, 0x00, 0x06, 0x0F, 0xFB, 0xC0, 0xC1, 0xC2, 0xC3, 0xC4, 0xC5,
   0xC6, 0xC7, 0xC8, 0xC9, 0xCA, 0xCB, 0xCC, 0xCD, 0xCE, 0xCF, 0x00, 0x0B, 0x00,
   0x0D, 0x00, 0x0C, 0x00, 0x0E, 0x00, 0x0F, 0x00, 0x11, 0x00, 0x10, 0x00, 0x12]

/-- After reset with a stream, under TC. -/
def fresh (bytes : List Byte) : State := .resetWith .tc (Memory.ofBytes bytes) [] none

def onS1 : State := fresh (bytesF1 ++ bytesF2 ++ bytesF3)
def onSA : State := fresh (bytesFA1 ++ bytesFA2)
/-- Stream S1 under Layout B. -/
def onB : State := { onS1 with layout := some .b }

/-- The integer as a binary64 value. -/
def real (n : Int) : F64 := toF64 n
/-- The integer over another as a binary64 value. -/
def ratio (n d : Int) : F64 := fdiv (toF64 n) (toF64 d)

/-- F1 as 95_test_vectors.md 1.2 lists it. -/
def frameF1 : FrameBody where
  layout := .b
  hdr := .b [0xA5, 0x5A] 1 10000000 1 1 133000000
  ticks := 133000000
  t := .one
  stop := [4094, 10]
  len := 2
  fl := 52
  samples := [[1000, 1001], [200, 201], [-5, 300], [-32000, 0]]

/-- F2. -/
def frameF2 : FrameBody where
  layout := .b
  hdr := .b [0xA5, 0x5A] 2 20000000 2 2 266000000
  ticks := 266000000
  t := .fin false 1024 0
  stop := [4095, 11]
  len := 2
  fl := 52
  samples := [[1010, 1011], [210, 211], [5, 310], [7, 8]]

/-- FA1 as 95_test_vectors.md 1.3 lists it. -/
def frameFA1 : FrameBody where
  layout := .a
  hdr := .a 7 8 16
  ticks := 16
  t := .fin false 1024 0
  stop := [5, 4090]
  len := 2
  fl := 52
  samples := [[1, 2], [3, 4], [5, 6], [7, 8]]

/-- A state just after a DECODE gave the frame its number. -/
def decoded (s : State) (seq : Word) (f : FrameBody) (pos : Word) : State :=
  { s with
    fseq := seq
    fb := some ⟨seq, f⟩
    pos := pos
    prevFl := f.fl
    prevFlValid := true
    res := f.fl }

/-- FR18: F1 decoded. -/
def onF1 : State := decoded onB 1 frameF1 52
/-- A ring that holds 1.0 in the window of F1, as TK2 leaves it. -/
def ringF1 : Runs F64 :=
  [(4094, .one), (4096, .nan), (8190, .one), (8192, .nan), (8202, .one), (8204, .nan),
   (12298, .one), (12300, .nan)]
/-- F2 decoded after F1 was observed. -/
def onF2 : State := { decoded onB 2 frameF2 104 with rb := ringF1 }

/-! ### One step of each command -/

/-- CT1. -/
theorem test_nop : ended (exec .nop { onF1 with status := 8 }) = some { onF1 with status := 0 } := by
  decide +kernel

/-- CT2: the stream and the configuration stay. -/
theorem test_reset : ended (exec .reset onF2) = some onS1 := by decide +kernel

/-- EN6, EN7. -/
theorem test_setlayoutA : ended (exec .setlayoutA onB) = some { onB with layout := some .a } := by
  decide +kernel
theorem test_setlayoutB : ended (exec .setlayoutB onS1) = some onB := by decide +kernel

/-- FR10: Layout B; FR11: Layout A. -/
theorem test_probe_finds_B : ended (exec .probe onS1) = some { onB with res := 2 } := by
  decide +kernel
theorem test_probe_finds_A :
    ended (exec .probe onSA) = some { onSA with layout := some .a, res := 1 } := by decide +kernel

/-- FR2, and FR4 at 104: one marker is left. -/
theorem test_sync : report (exec .sync onB) = some (0, 52) := by decide +kernel
theorem test_sync_last_frame :
    report (exec .sync { onB with pos := 104, res := 52 }) = some (2, 52) := by decide +kernel

/-- FR18, and P5 command 2. -/
theorem test_decode_layout_B : ended (exec .decode onB) = some onF1 := by decide +kernel
theorem test_decode_layout_A :
    ended (exec .decode { onSA with layout := some .a }) =
      some (decoded { onSA with layout := some .a } 1 frameFA1 52) := by decide +kernel

/-- FR6: 157 lies beyond the stream; FR19: the same position. -/
theorem test_seek_beyond_end :
    ended (exec (.seek 157) { onB with pos := 156 }) =
      some { onB with pos := 156, status := 4 } := by decide +kernel
theorem test_seek_moves_and_stays :
    ended (exec (.seek 52) onF1) = some { onF1 with status := 0 } ∧
      ended (exec (.seek 156) onF1) = some { onF1 with pos := 156, trk := .invalidatedOnce } := by
  decide +kernel

/-- TR1, TR5; TR3. -/
theorem test_c2s :
    report (exec (.c2s 0 1) onB) = some (0, 4095) ∧
      report (exec (.c2s 5 4090) onB) = some (0, 11) := by decide +kernel
theorem test_c2s_stop_too_large :
    report (exec (.c2s 0 4096) { onB with res := 9 }) = some (4, 9) := by decide +kernel

/-- TR7, TR10; TR8. -/
theorem test_s2c :
    report (exec (.s2c 4095 1) onB) = some (0, 0) ∧
      report (exec (.s2c 11 4090) onB) = some (0, 5) := by decide +kernel
theorem test_s2c_index_too_large :
    report (exec (.s2c 4096 0) { onB with res := 9 }) = some (4, 9) := by decide +kernel

/-- TR11, TR12, TR15, TR16; TR19. -/
theorem test_inwin :
    report (exec (.inwin 5 4090 12) onB) = some (0, 1) ∧
      report (exec (.inwin 5 4090 11) onB) = some (0, 0) ∧
      report (exec (.inwin 4094 4095 4096) onB) = some (0, 1) ∧
      report (exec (.inwin 0 0 0) onB) = some (0, 0) := by decide +kernel
theorem test_inwin_length_too_large :
    report (exec (.inwin 0 0 4097) { onB with res := 9 }) = some (4, 9) := by decide +kernel

/-- TK2: every element NaN, and the window stamped. -/
theorem test_observe_first :
    ended (exec .observe onF1) = some
      { onF1 with
        eb := some ⟨1, 2, List.replicate 4 [.nan, .nan]⟩
        rb := ringF1
        trk := .tracking } := by decide +kernel
/-- TK4. -/
theorem test_observe_second :
    (ended (exec .observe onF2)).bind (·.eb) =
      some ⟨2, 2, List.replicate 4 [.one, .nan]⟩ := by decide +kernel

/-- TK8: TRK = 1, and nothing else but STATUS. -/
theorem test_invalidate :
    ended (exec .invalidate { onF2 with status := 7 }) =
      some { onF2 with trk := .invalidatedOnce } := by decide +kernel

/-- A table with the value at every one of its `n` keys. -/
def full (n : Nat) (v : F64) : Runs (Option F64) := [(0, some v), (n, none)]

/-- CA2: OFF present at (0, 0, 0) only. -/
theorem test_calcfg_partial :
    (ended (exec (.calcfg 1)
        { onF1 with ct := { CalStore.empty with off := [(0, some .one), (1, none)] } })).map
      (fun t => (t.status, t.stageEn)) = some (5, 0) := by decide +kernel
/-- OFF full and PAT absent: stage 1 alone is enabled (43_calibration.md R253). -/
theorem test_calcfg_enables_supplied :
    (ended (exec (.calcfg 9) { onF1 with ct := { CalStore.empty with off := full 16384 .one } })).map
      (fun t => (t.status, t.stageEn, t.acs.off)) =
        some (0, 1, full 16384 .one) := by decide +kernel

/-- P3 command 8: the four stages on F2, PC being NaN at (1, 1, 12). -/
theorem test_apply_all_stages :
    (ended (exec .apply
        { onF2 with
          stageEn := 15
          eb := some ⟨2, 2, List.replicate 4 [.one, .nan]⟩
          acs :=
            { off := full 16384 (real 10)
              pa := full 16384 (real 2)
              pb := full 16384 .one
              pc := [(0, some (real 5)), (12300, some .nan), (12301, some (real 5)), (16384, none)]
              grid := full (16384 * 4096) .one
              pat := full 16384 (real 3) } })).map
      (fun t => (t.status, t.cb.map fun f => (f.seq, f.body.samples))) =
    some (0, some (2, [[989, 995], [189, 195], [-16, 294], [-14, -3]])) := by decide +kernel
/-- CA11: a NaN constant; CA9: -32768.5 written back under TRUNC. -/
theorem test_apply_write_back_fault :
    report (exec .apply
      { onF1 with stageEn := 1, acs := { CalStore.empty with off := full 16384 .nan } }) =
        some (6, 52) ∧
    report (exec .apply
      { onF1 with
        stageEn := 1
        acs :=
          { CalStore.empty with
            off := [(0, some (real 0)), (12298, some (ratio 1537 2)), (12299, some (real 0)),
              (16384, none)] } }) = some (0, 52) := by decide +kernel

/-! ### Operations -/

/-- What a write-back gives under each rounding, `none` for ARITHMETIC_FAULT. -/
def writtenBack (y : F64) : List (Option Int) :=
  [WbRound.trunc, .rne, .floor, .rhaz].map fun m =>
    (written { Config.tc with wbRound := m } y).map BitVec.toInt

/-- The table at the end of 95_test_vectors.md 3.5. -/
theorem test_write_back :
    [ratio 1979 2, ratio 1981 2, ratio (-1) 2, ratio (-3) 2, ratio 327674 10, ratio 65535 2,
      ratio (-65537) 2, real (-32769), .nan, .inf false, .inf true].map writtenBack =
    [[some 989, some 990, some 989, some 990], [some 990, some 990, some 990, some 991],
      [some 0, some 0, some (-1), some (-1)], [some (-1), some (-2), some (-2), some (-2)],
      [some 32767, some 32767, some 32767, some 32767], [some 32767, none, some 32767, none],
      [some (-32768), some (-32768), none, none], [none, none, none, none],
      [none, none, none, none], [none, none, none, none], [none, none, none, none]] := by
  decide +kernel

/-- Binary64, by hand: 1/3, the largest finite value doubled, 2^53 + 1 (a tie), 0.1 + 0.2, small
integers, and the zeros and infinities of log 5. -/
theorem test_binary64 :
    ratio 1 3 = .fin false 1021 0x5555555555555 ∧
      fadd (.fin false 2046 0xFFFFFFFFFFFFF) (.fin false 2046 0xFFFFFFFFFFFFF) = .inf false ∧
      real (2 ^ 53 + 1) = .fin false 1076 0 ∧
      fadd (ratio 1 10) (ratio 2 10) = .fin false 1021 0x3333333333334 ∧
      fsub (real 1) (real 3) = real (-2) ∧ fsub (real 3) (real 3) = .fin false 0 0 ∧
      fmul (real (-3)) (ratio 1 2) = ratio (-3) 2 ∧ fmul (.inf true) (real 0) = .nan ∧
      fdiv (real (-1)) (real 0) = .inf true ∧ fdiv (real 0) (real 0) = .nan := by decide +kernel

/-- FLAGS after TK2 with stages 1 and 3 enabled: bits 3, 4, 5, 7, 8 and 10 (10_state.md R38). -/
theorem test_flags_word :
    flagsWord { onF1 with eb := some ⟨1, 2, []⟩, stageEn := 5 } = 0x5B8 := by decide +kernel

/-- The command port, and the words the host issues (20_memory.md R69). -/
theorem test_step_runs_the_word :
    ended (step { onB with port := [.command 0x1300000000000000] }) =
      some { onF1 with streamFixed := true } ∧
    ended (step (onB.withFetchWord 64 0x1000010000000000)) =
      some { onB with layout := some .a } := by decide +kernel

/-- 30_encoding.md R140: blanks, a comment, decimal and hexadecimal operands. -/
theorem test_assemble :
    (match assemble ["setlayout B".toList, "  c2s 10, 0x5 ; wrap".toList, "".toList] with
      | .ok es => decide (es = [.command 0x1000020000000000, .command 0x20000A0005000000])
      | .error _ => false) = true := by decide +kernel

/-! ### Small states for the witnesses

One channel pair, all header fields one byte wide, at most two samples: a frame of one sample is 36
bytes in Layout A and 25 in Layout B, and each stream holds two. -/

/-- The small configuration. -/
def small (policy : LastFramePolicy) : Config :=
  { Config.tc with
    maxCapture := 2
    wEvA := 1
    wTrA := 1
    wPps := 1
    w10M := 1
    wEvB := 1
    wTrB := 1
    w133 := 1
    nSc := 1
    scMap := [0, 0, 0, 0]
    scaleA := .one
    lastFramePolicy := policy }

/-- A Layout A frame: clock 7, stop cell 4095, samples 1, -2, 3, -4. -/
def smallA : List Byte :=
  [0x01, 0x02, 0x00, 0x00, 0x00, 0x00, 0x00, 0x00, 0x00, 0x07, 0x0F, 0xFF] ++ Config.tc.markerA ++
    [0x00, 0x01, 0xFF, 0xFE, 0x00, 0x03, 0xFF, 0xFC]

/-- A Layout B frame: 133 MHz counter 5, stop cell 0, samples 9, 8, 7, 6. -/
def smallB : List Byte :=
  [0xA5, 0x5A, 0x01, 0x02, 0x03, 0x04, 0x05] ++ List.replicate 8 0xEE ++
    [0x00, 0x00, 0x00, 0x09, 0x00, 0x08, 0x00, 0x07, 0x00, 0x06]

/-- After reset, with no stream. -/
def smallReset (policy : LastFramePolicy) : State := .resetWith (small policy) [] [] none
/-- With the stream of two Layout A frames. -/
def emptyA (policy : LastFramePolicy) : State :=
  (smallReset policy).withStream (Memory.ofBytes (smallA ++ smallA))
/-- With the stream of two Layout B frames. -/
def emptyB : State := (smallReset .strict).withStream (Memory.ofBytes (smallB ++ smallB))
/-- Layout A selected. -/
def startA : State := (emptyA .strict).withLayout (some .a)
/-- Layout B selected. -/
def startB : State := emptyB.withLayout (some .b)

theorem smallReset_good (policy : LastFramePolicy) : (smallReset policy).Good where
  config := by cases policy <;> decide +kernel
  stream := ⟨rfl, Nat.two_pow_pos 64, Nat.zero_le _⟩
  status := Nat.zero_le _
  fatal_layout := nofun
  ring := .nil _ _
  constants := .empty _
  active := .empty _
  pipeline := ⟨fun k _ _ h => absurd h (by
    rw [show (smallReset policy).stageEn = 0#4 from rfl, stageBit_zero]
    exact Bool.false_ne_true), by
      show restrictStore .empty 0#4 = .empty
      decide⟩
  frame := nofun
  elapsed := nofun
  corrected := nofun
  tags := .reset

theorem emptyA_good (policy : LastFramePolicy) : (emptyA policy).Good :=
  (smallReset_good policy).withStream (by decide) (Nat.zero_le _)
theorem emptyB_good : emptyB.Good := (smallReset_good .strict).withStream (by decide) (Nat.zero_le _)
theorem startA_good : startA.Good := (emptyA_good .strict).withLayout .a
theorem startB_good : startB.Good := emptyB_good.withLayout .b

/-- FATAL set. -/
def fatalA : State := startA.withFatal true
theorem fatalA_good : fatalA.Good := startA_good.withFatal nofun true

/-- The position inside the stream moved. -/
def movedA (p : Word) : State := startA.withPos p
theorem movedA_good {p : Word} (h : p.toNat ≤ startA.streamLen) : (movedA p).Good :=
  startA_good.withPos h

/-- The frame of `smallA`. -/
def bodyA : FrameBody where
  layout := .a
  hdr := .a 1 2 7
  ticks := 7
  t := .fin false 1025 0xC000000000000
  stop := [4095]
  len := 1
  fl := 36
  samples := [[1], [-2], [3], [-4]]

/-- Another frame, with its window one cell further on. -/
def bodyA' : FrameBody :=
  { bodyA with
    hdr := .a 2 3 9
    ticks := 9
    t := .fin false 1026 0x2000000000000
    stop := [0] }

theorem bodyA_ok (policy : LastFramePolicy) : FrameOk (small policy) bodyA := by
  cases policy <;> constructor <;> decide +kernel
theorem bodyA'_ok (policy : LastFramePolicy) : FrameOk (small policy) bodyA' := by
  cases policy <;> constructor <;> decide +kernel

/-- A good state stays one when a good frame is put in FB, EB and CB being empty. -/
theorem decoded_good {s : State} (hg : s.Good) {seq : Word} {f : FrameBody} {pos : Word}
    (h : FrameOk s.cfg f) (hp : pos.toNat ≤ s.streamLen) (he : s.eb = none) (hc : s.cb = none) :
    (decoded s seq f pos).Good where
  config := hg.config
  stream := ⟨hg.stream.1, hg.stream.2.1, hp⟩
  status := hg.status
  fatal_layout := hg.fatal_layout
  ring := hg.ring
  constants := hg.constants
  active := hg.active
  pipeline := hg.pipeline
  frame := by
    intro g hg'
    cases hg'
    exact h
  elapsed := hg.elapsed
  corrected := hg.corrected
  tags :=
    { none_fb := nofun
      fb_seq := by
        intro g hg'
        cases hg'
        rfl
      prev_valid := rfl
      prev_fl := by
        intro g hg'
        cases hg'
        rfl
      eb_old := fun e h => nomatch he.symm.trans h
      cb_old := fun e h => nomatch hc.symm.trans h
      eb_len := fun _ e _ h => nomatch he.symm.trans h
      cb_len := fun _ g _ h => nomatch hc.symm.trans h }

/-- The first of the two Layout A frames just decoded. -/
def framed (policy : LastFramePolicy) (f : FrameBody) : State :=
  decoded ((emptyA policy).withLayout (some .a)) 1 f 36

theorem framed_good {policy : LastFramePolicy} {f : FrameBody} (h : FrameOk (small policy) f) :
    (framed policy f).Good :=
  decoded_good ((emptyA_good policy).withLayout .a) h (by cases policy <;> decide +kernel) rfl rfl

/-- The frame `bodyA` in FB. -/
def framedA : State := framed .strict bodyA
theorem framedA_good : framedA.Good := framed_good (bodyA_ok _)
/-- The frame `bodyA'` in FB. -/
def framedA' : State := framed .strict bodyA'
theorem framedA'_good : framedA'.Good := framed_good (bodyA'_ok _)

/-- The windows of `bodyA`. -/
def windowsA : List Window := [⟨0, 0, 4095⟩, ⟨0, 1, 4095⟩, ⟨1, 0, 4095⟩, ⟨1, 1, 4095⟩]

theorem windowsA_of : windowsOf (small .strict) bodyA = .ok windowsA := rfl

/-- The frame `bodyA` observed. -/
def seenA : State := observed framedA ⟨1, bodyA⟩ windowsA
theorem seenA_good : seenA.Good := framedA_good.observed rfl windowsA_of

/-- A state with the ring of another. -/
def withRing (r s : State) : State := s.withRb r.rb
theorem withRing_good {r s : State} (hr : r.Good) (hg : s.Good) (h : r.cfg = s.cfg) :
    (withRing r s).Good :=
  { config := hg.config
    stream := hg.stream
    status := hg.status
    fatal_layout := hg.fatal_layout
    ring := by
      have h' := hr.ring
      rw [h] at h'
      exact h'
    constants := hg.constants
    active := hg.active
    pipeline := hg.pipeline
    frame := hg.frame
    elapsed := hg.elapsed
    corrected := hg.corrected
    tags := hg.tags.congr rfl rfl rfl rfl rfl rfl }

/-- `bodyA'` observed after `bodyA`: its window lies one cell further on. -/
def seenBoth : State :=
  observed (withRing seenA framedA') ⟨1, bodyA'⟩ [⟨0, 0, 0⟩, ⟨0, 1, 0⟩, ⟨1, 0, 0⟩, ⟨1, 1, 0⟩]
theorem seenBoth_good : seenBoth.Good :=
  (withRing_good seenA_good framedA'_good rfl).observed rfl rfl

/-- A table with a value at every key is one of the tables of a store. -/
theorem full_ok {n m : Nat} (v : F64) (h : m = n) (hn : 1 ≤ n) : TableOk none m (full n v) := by
  subst h
  refine ⟨?_, ?_⟩
  · simp [full, runsWf]
    omega
  · intro k hk
    have h : ¬ k < m := by omega
    simp [full, runsRead, h]

/-- All constants supplied, OFF with the given value everywhere. -/
def constants (v : F64) : CalStore where
  off := full 16384 v
  pa := full 16384 .one
  pb := full 16384 .one
  pc := full 16384 .one
  grid := full 32768 .one
  pat := full 16384 .one

theorem constants_ok (policy : LastFramePolicy) (v : F64) : StoreOk (small policy) (constants v) :=
  have h1 : cellCount (small policy) = 16384 := by cases policy <;> decide +kernel
  have h2 : gridCount (small policy) = 32768 := by cases policy <;> decide +kernel
  have h3 : patCount (small policy) = 16384 := by cases policy <;> decide +kernel
  ⟨full_ok v h1 (by decide), full_ok _ h1 (by decide), full_ok _ h1 (by decide),
    full_ok _ h1 (by decide), full_ok _ h2 (by decide), full_ok _ h3 (by decide)⟩

/-- CALCFG of a mask run with all constants supplied. -/
def staged (s : State) (v : F64) (en : BitVec 4) : State :=
  (s.withCt (constants v)).withPipeline en (restrictStore (constants v) en)

theorem staged_good {s : State} (hg : s.Good) (h : s.cfg = small .strict) {v : F64}
    {en : BitVec 4} (he : enabledStages (small .strict) (constants v) en [1, 2, 3, 4] = .ok en) :
    (staged s v en).Good :=
  (hg.withCt (by rw [h]; exact constants_ok _ v)).withPipeline (m := en) (by
    show enabledStages s.cfg (constants v) en [1, 2, 3, 4] = .ok en
    rw [h]
    exact he)

/-- A store with one entry of OFF. -/
def oneEntry : CalStore := { CalStore.empty with off := [(0, some .one), (1, none)] }
theorem oneEntry_ok (policy : LastFramePolicy) : StoreOk (small policy) oneEntry :=
  StoreOk.write (c := small policy) (key := .atCell .off 0 0 0) (StoreOk.empty _)
    (by cases policy <;> decide) (some .one)

/-! ### Facts about the small streams -/

theorem no_length_without_marker {s : State} {lay : Layout} {pos : Nat} (n : Nat)
    (hn : chunkLen s lay pos ≤ n) (h : ∀ p < n, ¬ Occurs s lay pos p) (fl : Nat) :
    ¬ FrameLengthIs s lay pos fl := by
  rintro ⟨p1, h1, -⟩
  have hb := h1.1.1
  have hm : 0 < markerLen lay := by cases lay <;> decide
  exact h p1 (by omega) h1.1

theorem no_length_with_one_marker {s : State} {lay : Layout} {pos : Nat} (n p : Nat)
    (hn : chunkLen s lay pos ≤ n) (h : ∀ q < n, Occurs s lay pos q → q = p)
    (hs : s.cfg.lastFramePolicy = .strict) (fl : Nat) : ¬ FrameLengthIs s lay pos fl := by
  have hm : 0 < markerLen lay := by cases lay <;> decide
  rintro ⟨p1, h1, ⟨p2, h2, -⟩ | ⟨-, hr, -⟩⟩
  · have e1 := h p1 (by have := h1.1.1; omega) h1.1
    have e2 := h p2 (by have := h2.2.1.1; omega) h2.2.1
    have := h2.1
    omega
  · rw [hs] at hr
    cases hr

/-- The first Layout A frame is measured by its two markers. -/
theorem lengthA : FrameLengthIs startA .a 0 36 :=
  ⟨12, by decide +kernel, .inl ⟨48, by decide +kernel, rfl⟩⟩

theorem lengthA_none (fl : Nat) : ¬ FrameLengthIs (movedA 36) .a 36 fl :=
  no_length_with_one_marker 36 12 (by decide +kernel) (by decide +kernel) rfl fl

/-- With exactly a header left there is no second marker. -/
theorem lengthA_none_44 (fl : Nat) : ¬ FrameLengthIs (movedA 44) .a 44 fl :=
  no_length_with_one_marker 28 4 (by decide +kernel) (by decide +kernel) rfl fl

theorem lengthA_shifted : FrameLengthIs (movedA 1) .a 1 36 :=
  ⟨11, by decide +kernel, .inl ⟨47, by decide +kernel, rfl⟩⟩

theorem frameAtA : FrameAt startA .a 0 36 1 where
  header_fits := by decide +kernel
  length := lengthA
  magic := nofun
  marker_bytes := by decide +kernel
  divides := by decide +kernel
  capture_pos := by decide
  capture_le := by decide +kernel
  stop_cells := by decide +kernel

theorem frameAtA_shifted (len : Nat) : ¬ FrameAt (movedA 1) .a 1 36 len := fun h =>
  absurd (h.marker_bytes 0 (by decide)) (by decide +kernel)

theorem frameAtB : FrameAt startB .b 0 25 1 where
  header_fits := by decide +kernel
  length := ⟨7, by decide +kernel, .inl ⟨32, by decide +kernel, rfl⟩⟩
  magic := by decide +kernel
  marker_bytes := by decide +kernel
  divides := by decide +kernel
  capture_pos := by decide
  capture_le := by decide +kernel
  stop_cells := by decide +kernel

theorem frameAtB_none (fl len : Nat) : ¬ FrameAt startB .a 0 fl len := fun h =>
  no_length_without_marker 50 (by decide +kernel) (by decide +kernel) fl h.length

/-- 27 bytes are left, one less than a header. -/
theorem failsA_end : ParseFails (movedA 45) .a 45 1 := .inl (by decide +kernel)
theorem failsA_framing : ParseFails (movedA 44) .a 44 2 :=
  .inr (.inl ⟨by decide +kernel, lengthA_none_44, rfl⟩)
theorem failsA_header : ParseFails (movedA 1) .a 1 3 :=
  .inr (.inr ⟨by decide +kernel, ⟨36, lengthA_shifted, frameAtA_shifted⟩, rfl⟩)

/-! ### Witnesses: command words -/

theorem witness_wellFormed : (Instr.calcfg 15).wellFormed = true ∧ (Instr.apply).wellFormed = true := by
  decide

theorem witness_decoded_word : decode 0x4000000000000000 = .ok (.calcfg 0) ∧
    decode 0x14FFFFFFFFFFFF00 = .ok (.seek 0xFFFFFFFFFFFF) :=
  ⟨decode_of (by decide +kernel), decode_of (by decide +kernel)⟩

theorem witness_covered_word :
    ∃ r ∈ rows, r.layoutOperand = true ∧ r.Covers 0x1000020000000000 :=
  ⟨⟨"SETLAYOUT", 0x1000000000000000, 0xFFFFFCFFFFFFFFFF, true⟩, by simp [rows], rfl,
    by decide +kernel, fun _ => .inr (by decide +kernel)⟩

theorem witness_illegal_word_issued :
    (startA.withPort [.command 1]).port = .command 1 :: [] ∧ Illegal 1 :=
  ⟨rfl, .inr (.inl (by decide +kernel))⟩

theorem witness_word_issued : decode 0x1300000000000000 = .ok .decode ∧
    (startA.withPort [.command 0x1300000000000000]).port = .command 0x1300000000000000 :: [] ∧
    (startA.withPort [.commandIfOk 0x1300000000000000]).port =
      .commandIfOk 0x1300000000000000 :: [] ∧
    startA.status = 0 ∧ (startA.withStatus 7).status ≠ 0 :=
  ⟨decode_of (by decide +kernel), rfl, rfl, rfl, by decide⟩

theorem witness_idle : startA.port = [] := rfl

theorem witness_setlayout_operand :
    bitsAt 0x1000030000000000 56 8 = 0x10 ∧ bitsAt 0x1000030000000000 40 16 ∉ [1, 2] := by
  decide +kernel

/-! ### Witnesses: reset -/

theorem witness_short_stream : smallA.length < 2 ^ 64 := by decide

theorem witness_at_reset : AtReset (emptyA .strict) where
  status := rfl
  res := rfl
  pos := rfl
  layout := rfl
  fatal := rfl
  prev_fl := rfl
  prev_fl_valid := rfl
  fseq := rfl
  trk := rfl
  rb := fun _ _ _ => rfl
  fb := rfl
  eb := rfl
  cb := rfl
  stage_en := rfl
  acs := fun key => by rcases key with ⟨t, _, _, _⟩ | ⟨t, _, _, _, _⟩ <;> cases t <;> rfl
  ct := fun key => by rcases key with ⟨t, _, _, _⟩ | ⟨t, _, _, _, _⟩ <;> cases t <;> rfl

theorem witness_no_sequence_error_after_reset :
    AtReset (emptyA .strict) ∧ Instr.invalidate ∉ [Instr.decode, .sync, .observe, .apply] ∧
      exec .invalidate (emptyA .strict) =
        .next { emptyA .strict with trk := .invalidatedOnce, status := 0 } :=
  ⟨witness_at_reset, by decide, rfl⟩

/-! ### Witnesses: the framer -/

theorem witness_length_by_markers : configOk startA.cfg = true ∧ startA.stream.wf = true ∧
    0 ≤ startA.streamLen ∧ FrameLengthIs startA .a 0 36 :=
  ⟨startA_good.config, startA_good.stream.1, Nat.zero_le _, lengthA⟩

theorem witness_length_reused : configOk (framed .reusePrev bodyA).cfg = true ∧
    (framed .reusePrev bodyA).stream.wf = true ∧ 36 ≤ (framed .reusePrev bodyA).streamLen ∧
    FrameLengthIs (framed .reusePrev bodyA) .a 36 36 := by
  have hone : ∀ q < 36, Occurs (framed .reusePrev bodyA) .a 36 q → q = 12 := by decide +kernel
  refine ⟨(framed_good (bodyA_ok _)).config, (framed_good (bodyA_ok _)).stream.1, by decide +kernel,
    12, by decide +kernel, .inr ⟨?_, rfl, rfl, by decide +kernel, by decide +kernel⟩⟩
  intro q hq ho
  have h28 : 12 + 16 ≤ q := hq
  have hb : q + 16 ≤ 36 := Nat.le_trans ho.1 (by decide +kernel)
  have := hone q (by omega) ho
  omega

/-- At the end of the stream the chunk is empty. -/
theorem witness_no_length : configOk (movedA 72).cfg = true ∧ (movedA 72).stream.wf = true ∧
    72 ≤ (movedA 72).streamLen ∧ ∀ fl, ¬ FrameLengthIs (movedA 72) .a 72 fl :=
  ⟨startA_good.config, startA_good.stream.1, by decide +kernel,
    no_length_without_marker 0 (by decide +kernel) (by omega)⟩

theorem witness_measured : startA.Good ∧ 0 ≤ startA.streamLen ∧
    findFrameLength startA .a 0 = .ok 36 :=
  ⟨startA_good, Nat.zero_le _, by decide +kernel⟩

theorem witness_no_layout : emptyB.Good ∧ emptyB.layout = none := ⟨emptyB_good, rfl⟩

theorem witness_fatal : fatalA.Good ∧ fatalA.layout = some .a ∧ fatalA.fatal = true :=
  ⟨fatalA_good, rfl, rfl⟩

theorem witness_sync : startA.Good ∧ startA.layout = some .a ∧ startA.fatal = false ∧
    FrameLengthIs startA .a startA.pos.toNat 36 :=
  ⟨startA_good, rfl, rfl, lengthA⟩

theorem witness_sync_fails : (movedA 36).Good ∧ (movedA 36).layout = some .a ∧
    (movedA 36).fatal = false ∧ ∀ fl, ¬ FrameLengthIs (movedA 36) .a (movedA 36).pos.toNat fl :=
  ⟨movedA_good (by decide +kernel), rfl, rfl, lengthA_none⟩

theorem witness_decode_A : startA.Good ∧ startA.layout = some .a ∧ startA.fatal = false ∧
    FrameAt startA .a startA.pos.toNat 36 1 ∧ CounterRoom startA ∧
    exec .decode startA = .next (decoded startA 1 bodyA 36) :=
  ⟨startA_good, rfl, rfl, frameAtA,
    show (0 : Word).toNat + 1 < 2 ^ 64 by decide, next_of (by decide +kernel)⟩

theorem witness_decode_B : startB.Good ∧ startB.layout = some .b ∧ startB.fatal = false ∧
    FrameAt startB .b startB.pos.toNat 25 1 :=
  ⟨startB_good, rfl, rfl, frameAtB⟩

theorem witness_decode_fails :
    ((movedA 45).Good ∧ ParseFails (movedA 45) .a (movedA 45).pos.toNat 1) ∧
    ((movedA 44).Good ∧ ParseFails (movedA 44) .a (movedA 44).pos.toNat 2) ∧
    ((movedA 1).Good ∧ ParseFails (movedA 1) .a (movedA 1).pos.toNat 3) ∧
    (movedA 45).layout = some .a ∧ (movedA 45).fatal = false :=
  ⟨⟨movedA_good (by decide +kernel), failsA_end⟩, ⟨movedA_good (by decide +kernel), failsA_framing⟩,
    ⟨movedA_good (by decide +kernel), failsA_header⟩, rfl, rfl⟩

theorem witness_header_error : (movedA 1).fatal = false ∧
    exec .decode (movedA 1) = .next { movedA 1 with status := 3, fatal := true } :=
  ⟨rfl, next_of (by decide +kernel)⟩

theorem witness_fatal_cleared : ∃ t, fatalA.fatal = true ∧ exec .reset fatalA = .next t ∧
    t.fatal = false :=
  ⟨fatalA.powerOn, rfl, rfl, rfl⟩

theorem witness_end_of_stream :
    exec .decode (movedA 45) = .next { movedA 45 with status := 1 } :=
  next_of (by decide +kernel)

theorem witness_framing_error :
    exec .decode (movedA 36) = .next { movedA 36 with status := 2 } ∧
      exec .sync (movedA 72) = .next { movedA 72 with status := 2 } :=
  ⟨next_of (by decide +kernel), next_of (by decide +kernel)⟩

theorem witness_probe_A : (emptyA .strict).Good ∧ (emptyA .strict).fatal = false ∧
    ∃ fl len, FrameAt (emptyA .strict) .a (emptyA .strict).pos.toNat fl len :=
  ⟨emptyA_good _, rfl, 36, 1, ⟨by decide +kernel,
    ⟨12, by decide +kernel, .inl ⟨48, by decide +kernel, rfl⟩⟩, nofun, by decide +kernel,
    by decide +kernel, by decide, by decide +kernel, by decide +kernel⟩⟩

theorem witness_probe_B : startB.Good ∧ startB.fatal = false ∧
    (∀ fl len, ¬ FrameAt startB .a startB.pos.toNat fl len) ∧
    ∃ fl len, FrameAt startB .b startB.pos.toNat fl len :=
  ⟨startB_good, rfl, frameAtB_none, 25, 1, frameAtB⟩

theorem witness_probe_fails :
    ((movedA 72).Good ∧ (∀ fl len, ¬ FrameAt (movedA 72) .a (movedA 72).pos.toNat fl len) ∧
      ParseFails (movedA 72) .b (movedA 72).pos.toNat 1) ∧
    ((movedA 36).Good ∧ (∀ fl len, ¬ FrameAt (movedA 36) .a (movedA 36).pos.toNat fl len) ∧
      ParseFails (movedA 36) .b (movedA 36).pos.toNat 2) :=
  ⟨⟨movedA_good (by decide +kernel), fun _ _ h => absurd h.header_fits (by decide +kernel),
      .inl (by decide +kernel)⟩,
    ⟨movedA_good (by decide +kernel), fun _ _ h => lengthA_none _ h.length,
      .inr (.inl ⟨by decide +kernel,
        no_length_without_marker 36 (by decide +kernel) (by decide +kernel), rfl⟩)⟩⟩

/-- PROBE reports a header error of Layout B without setting FATAL. -/
theorem witness_probe_header_error :
    (startB.withPos 1).Good ∧
    (∀ fl len, ¬ FrameAt (startB.withPos 1) .a (startB.withPos 1).pos.toNat fl len) ∧
      ParseFails (startB.withPos 1) .b (startB.withPos 1).pos.toNat 3 :=
  ⟨startB_good.withPos (by decide +kernel),
    fun fl _ h => no_length_without_marker 49 (by decide +kernel) (by decide +kernel) fl h.length,
    .inr (.inr ⟨by decide +kernel,
      ⟨25, ⟨6, by decide +kernel, .inl ⟨31, by decide +kernel, rfl⟩⟩, fun _ h =>
        absurd (h.marker_bytes 7 (by decide)) (by decide +kernel)⟩, rfl⟩)⟩

theorem witness_probe_ok : exec .probe startB = .next { startB with res := 2, status := 0 } :=
  next_of (by decide +kernel)

theorem witness_seek : startA.streamLen < (73#48).toNat ∧ (72#48).toNat ≤ startA.streamLen ∧
    (72#48).toNat ≠ startA.pos.toNat ∧ (0#48).toNat ≤ startA.streamLen ∧
    (0#48).toNat = startA.pos.toNat := by
  decide +kernel

theorem witness_deinterleave : (2 ≤ 2 ∧ 2 % 2 = 0 ∧ 1 ≤ 1) ∧ 2 * 0 + 1 < 2 ∧
    deintStandard 2 0 1 0 1 = deintStandard 2 0 0 0 1 + 1 ∧ deintStandard 2 0 1 0 1 ≠ 2 * 1 := by
  decide

/-! ### Witnesses: the translator -/

theorem witness_translator_ranges :
    4096 ≤ (4096 : Field).toNat ∧ (4095 : Field).toNat < 4096 ∧ (0 : Field).toNat < 4096 ∧
      4096 < (4097 : Field).toNat ∧ (4096 : Field).toNat ≤ 4096 := by
  decide

/-- The last sample of the widest window, and two samples a whole ring apart are not both in it. -/
theorem witness_translation : 4095 < 4096 ∧ 4096 ≤ 4096 ∧ sampleToCell 4095 1 = 0 ∧
    sampleToCell 7 4095 = sampleToCell 7 4095 := by
  decide

/-! ### Witnesses: the tracker -/

/-- For OBSERVE and for APPLY. -/
theorem witness_no_frame : startA.Good ∧ startA.fb = none := ⟨startA_good, rfl⟩

theorem not_current {s : State} (h : s.eb = none) : ¬ TimesCurrent s := by
  rintro ⟨e, f, he, -⟩
  exact nomatch h.symm.trans he

theorem witness_observe : framedA.Good ∧ framedA.fb = some ⟨1, bodyA⟩ ∧ ¬ TimesCurrent framedA ∧
    InFrame framedA.cfg bodyA.len 1 1 0 :=
  ⟨framedA_good, rfl, not_current rfl, by decide⟩

theorem witness_observe_again : seenA.Good ∧ seenA.fb = some ⟨1, bodyA⟩ ∧ TimesCurrent seenA :=
  ⟨seenA_good, rfl, _, _, rfl, rfl, rfl⟩

/-- The same window observed twice, `bodyA'` being observed in between at other cells. -/
theorem witness_second_observe :
    framedA.Good ∧ (withRing seenBoth framedA).Good ∧
    (withRing seenBoth framedA).cfg = framedA.cfg ∧
    framedA.fb = some ⟨1, bodyA⟩ ∧ exec .observe framedA = .next seenA ∧ seenA.status = 0 ∧
    (withRing seenBoth framedA).trk = .tracking ∧
    (withRing seenBoth framedA).fb = some ⟨1, bodyA⟩ ∧
    exec .observe (withRing seenBoth framedA) = .next
      { withRing seenBoth framedA with eb := some ⟨1, 1, List.replicate 4 [.fin false 0 0]⟩ } ∧
    InFrame framedA.cfg bodyA.len 1 1 0 ∧ seenBoth.rb ≠ seenA.rb ∧
    ringAt (withRing seenBoth framedA).rb 1 1 (cellOf framedA.cfg bodyA 1 1 0) =
      ringAt seenA.rb 1 1 (cellOf framedA.cfg bodyA 1 1 0) ∧
    ∃ j < bodyA.len, cellOf framedA.cfg bodyA 1 1 j = cellOf framedA.cfg bodyA 1 1 0 :=
  ⟨framedA_good, withRing_good seenBoth_good framedA_good rfl, rfl, rfl, next_of (by decide +kernel),
    rfl, rfl, rfl, next_of (by decide +kernel), by decide, by decide +kernel, by decide +kernel, 0,
    by decide, rfl⟩

/-- A cell that the first frame did not cover, the cell after the last. -/
theorem witness_first_observe_of_cell :
    (withRing seenA framedA').Good ∧ (withRing seenA framedA').fb = some ⟨1, bodyA'⟩ ∧
    exec .observe (withRing seenA framedA') = .next seenBoth ∧
    InFrame framedA.cfg bodyA'.len 0 0 0 ∧
    ringAt (withRing seenA framedA').rb 0 0 (cellOf framedA.cfg bodyA' 0 0 0) =
      ringAt seenA.rb 0 0 (cellOf framedA.cfg bodyA' 0 0 0) ∧
    (∀ j < bodyA.len, cellOf framedA.cfg bodyA 0 0 j ≠ cellOf framedA.cfg bodyA' 0 0 0) ∧
    ringAt framedA.rb 0 0 (cellOf framedA.cfg bodyA' 0 0 0) = .nan :=
  ⟨withRing_good seenA_good framedA'_good rfl, rfl, next_of (by decide +kernel), by decide, rfl,
    by decide +kernel, rfl⟩

/-- The ring of an invalidated tracker holds a time for the window, and the answer is NaN. -/
theorem witness_invalidated_observe :
    ((withRing seenA framedA).withTrk .invalidatedOnce).Good ∧
    ((withRing seenA framedA).withTrk .invalidatedOnce).trk = .invalidatedOnce ∧
    ((withRing seenA framedA).withTrk .invalidatedOnce).fb = some ⟨1, bodyA⟩ ∧
    exec .observe ((withRing seenA framedA).withTrk .invalidatedOnce) = .next
      { withRing seenA framedA with eb := some ⟨1, 1, List.replicate 4 [.nan]⟩ } :=
  ⟨(withRing_good seenA_good framedA_good rfl).withTrk _, rfl, rfl, next_of (by decide +kernel)⟩

theorem witness_tracker_transitions :
    exec .invalidate framedA = .next { framedA with trk := .invalidatedOnce, status := 0 } ∧
    exec (.seek 72) framedA =
      .next { framedA with pos := 72, trk := .invalidatedOnce, status := 0 } ∧
    exec (.seek 36) framedA = .next { framedA with status := 0 } ∧
    exec .observe startA = .next { startA with status := 7 } ∧
    exec .observe framedA = .next seenA ∧
    exec .reset fatalA = .next fatalA.powerOn ∧
    exec .nop fatalA = .next { fatalA with status := 0 } :=
  ⟨rfl, next_of (by decide +kernel), next_of (by decide +kernel), rfl, next_of (by decide +kernel),
    rfl, rfl⟩

/-! ### Witnesses: the pipeline -/

/-- CT with one entry, ready for CALCFG. -/
def onePresent : State := framedA.withCt oneEntry
theorem onePresent_good : onePresent.Good := framedA_good.withCt (oneEntry_ok _)

theorem witness_calcfg_partial : onePresent.Good ∧ (1 : Field).toNat < 16 ∧
    PartlySupplied onePresent 1 :=
  ⟨onePresent_good, by decide, 1, by decide, by decide, by decide,
    ⟨.atCell .off 0 0 0, by unfold IsKey; decide, rfl, by decide +kernel⟩,
    fun h => absurd (h (.atCell .off 1 1 4095) (by unfold IsKey; decide) rfl) (by decide +kernel)⟩

/-- The stage that is supplied in part is not requested. -/
theorem witness_calcfg_installs : onePresent.Good ∧ (14 : Field).toNat < 16 ∧
    ¬ PartlySupplied onePresent 14 := by
  refine ⟨onePresent_good, by decide, ?_⟩
  rintro ⟨k, h1, h4, hm, ⟨key, -, hk, hp⟩, -⟩
  have h : k = 2 ∨ k = 3 ∨ k = 4 := by
    have : k ≠ 1 := by
      rintro rfl
      exact absurd hm (by decide)
    omega
  apply hp
  rcases key with ⟨t, a, b, c⟩ | ⟨t, a, b, c, d⟩ <;> cases t <;>
    first | rfl | (simp only [stageOf] at hk; omega)

theorem witness_keys : framedA.Good ∧ IsKey framedA.cfg (.atPos .grid 1 1 4095 1) ∧
    IsKey framedA.cfg (.atPos .pat 1 1 4095 0) ∧ IsKey framedA.cfg (.atCell .off 0 0 0) ∧
    ¬ IsKey framedA.cfg (.atPos .pat 1 1 4095 1) ∧ ¬ IsKey framedA.cfg (.atCell .pa 2 0 0) :=
  by
  refine ⟨framedA_good, ?_, ?_, ?_, ?_, ?_⟩ <;> unfold IsKey <;> decide

/-- Every stage enabled. -/
def allStages : State := staged seenA (.fin false 0 0) 15
theorem allStages_good : allStages.Good :=
  staged_good seenA_good rfl (by decide +kernel)

theorem witness_table_write_before_apply :
    ∃ u, hostEvent (.ctWrite (.atCell .off 0 0 0) .nan) allStages = .next
      (allStages.withCt { allStages.ct with
        off := [(0, some .nan), (1, some (.fin false 0 0)), (16384, none)] }) ∧
    exec .apply allStages = .next u ∧ u.status = 0 :=
  ⟨(ended (exec .apply allStages)).getD allStages, next_of (by decide +kernel),
    next_of (by decide +kernel), by decide +kernel⟩

/-- Stage 2 is enabled and the frame was not observed. -/
theorem witness_apply_not_observed : (staged framedA .one 2).Good ∧
    (staged framedA .one 2).fb = some ⟨1, bodyA⟩ ∧
    (staged framedA .one 2).stageEn.getLsbD 1 = true ∧ ¬ TimesCurrent (staged framedA .one 2) :=
  ⟨staged_good framedA_good rfl (by decide +kernel), rfl, rfl, not_current rfl⟩

/-- A NaN constant makes the first sample fault. -/
theorem witness_apply_faults : (staged framedA .nan 1).Good ∧
    (staged framedA .nan 1).fb = some ⟨1, bodyA⟩ ∧
    ((staged framedA .nan 1).stageEn.getLsbD 1 = true → TimesCurrent (staged framedA .nan 1)) ∧
    InFrame (staged framedA .nan 1).cfg bodyA.len 0 0 0 ∧
    outputAt (staged framedA .nan 1) bodyA 0 0 0 = none :=
  ⟨staged_good framedA_good rfl (by decide +kernel), rfl, fun h => absurd h (by decide), by decide,
    by decide +kernel⟩

theorem inFrameA {ch g i : Nat} (h : InFrame (small .strict) bodyA.len ch g i) :
    i = 0 ∧ ((ch = 0 ∨ ch = 1) ∧ (g = 0 ∨ g = 1)) := by
  obtain ⟨h1, h2, h3⟩ := h
  have : ch < 2 := h1
  have : i < 1 := h3
  omega

theorem witness_apply : allStages.Good ∧ allStages.fb = some ⟨1, bodyA⟩ ∧ TimesCurrent allStages ∧
    allStages.stageEn = 15 ∧
    ∀ ch g i, InFrame allStages.cfg bodyA.len ch g i → outputAt allStages bodyA ch g i ≠ none := by
  refine ⟨allStages_good, rfl, ⟨_, _, rfl, rfl, rfl⟩, rfl, ?_⟩
  intro ch g i h
  obtain ⟨rfl, rfl | rfl, rfl | rfl⟩ := inFrameA h <;> decide +kernel

theorem witness_apply_no_stages : seenA.Good ∧ seenA.stageEn = 0 ∧ seenA.fb = some ⟨1, bodyA⟩ :=
  ⟨seenA_good, rfl, rfl⟩

theorem witness_apply_same_inputs :
    seenA.cfg = (seenA.withRes 9).cfg ∧ seenA.fb = (seenA.withRes 9).fb ∧
    seenA.eb = (seenA.withRes 9).eb ∧ seenA.stageEn = (seenA.withRes 9).stageEn ∧
    seenA.acs = (seenA.withRes 9).acs ∧ seenA.cb = (seenA.withRes 9).cb ∧
    exec .apply seenA = .next { seenA with cb := some ⟨1, bodyA⟩, status := 0 } :=
  ⟨rfl, rfl, rfl, rfl, rfl, rfl, next_of (by decide +kernel)⟩

/-! ### Witnesses: binary64 -/

/-- The largest sample, and 32767.5, which rounds to it or beyond it. -/
theorem witness_rounds_to_largest :
    RoundsTo .trunc (unitsOf false 1037 0xFFFF000000000) 32767 ∧
    RoundsTo .floor (unitsOf false 1037 0xFFFF000000000) 32767 ∧
    RoundsTo .rne (unitsOf false 1037 0xFFFF000000000) 32768 ∧
    RoundsTo .rhaz (unitsOf false 1037 0xFFFF000000000) 32768 := by
  refine ⟨?_, ?_, ?_, ?_⟩ <;> unfold RoundsTo <;> decide +kernel

/-- -32768.5. -/
theorem witness_rounds_to_smallest :
    RoundsTo .trunc (unitsOf true 1038 0x0001000000000) (-32768) ∧
    RoundsTo .floor (unitsOf true 1038 0x0001000000000) (-32769) ∧
    RoundsTo .rne (unitsOf true 1038 0x0001000000000) (-32768) ∧
    RoundsTo .rhaz (unitsOf true 1038 0x0001000000000) (-32769) := by
  refine ⟨?_, ?_, ?_, ?_⟩ <;> unfold RoundsTo <;> decide +kernel

/-- Half of the smallest unit lies between two values equally near; a sum that is exactly zero and one
that is not; a divisor that is zero and one that is not; a factor zero beside an infinity. -/
theorem witness_rounding : 0 < 2 ∧ f64Round false 1 2 = .fin false 0 0 ∧
    |(1 : Int) - magnitude 0 0 * 2| = |(1 : Int) - magnitude 0 1 * 2| ∧
    magnitude 0 0 ≠ magnitude 0 1 ∧
    exactUnits true 1023 0 + exactUnits false 1023 0 = 0 ∧
    exactUnits true 1023 0 - exactUnits false 1023 0 ≠ 0 ∧
    magnitude 0 0 = 0 ∧ magnitude 1023 0 = 2 ^ 1074 := by
  decide +kernel

/-! ### Witnesses: the machine -/

theorem witness_raise : exec .decode (movedA 1) = .next { movedA 1 with status := 3, fatal := true } ∧
    exec .apply startA = .next { startA with status := 7 } :=
  ⟨next_of (by decide +kernel), rfl⟩

theorem witness_completes : exec .decode startA = .next (decoded startA 1 bodyA 36) ∧
    (Instr.decode ≠ .reset) ∧ exec .invalidate startA =
      .next { startA with trk := .invalidatedOnce, status := 0 } ∧ (Instr.invalidate ≠ .decode) ∧
    startA.Good :=
  ⟨next_of (by decide +kernel), by decide, rfl, by decide, startA_good⟩

theorem witness_good_step : (startA.withPort [.command 0x1300000000000000]).Good ∧
    CounterRoom (startA.withPort [.command 0x1300000000000000]) ∧
    step (startA.withPort [.command 0x1300000000000000]) =
      .next (decoded startA 1 bodyA 36) :=
  ⟨startA_good.withPort _, show (0 : Word).toNat + 1 < 2 ^ 64 by decide, next_of (by decide +kernel)⟩

/-- The corrected frame read back, at the last element and one beyond it. -/
theorem witness_buffers : seenA.Good ∧ seenA.fb = some ⟨1, bodyA⟩ ∧
    (∃ e, seenA.eb = some e ∧ InFrame seenA.cfg e.len 1 1 0 ∧ ¬ InFrame seenA.cfg e.len 1 1 1) ∧
    InFrame seenA.cfg bodyA.len 1 1 0 ∧ ¬ InFrame seenA.cfg bodyA.len 0 2 0 ∧
    0 < seenA.cfg.nSc ∧ seenA.cfg.nSc ≤ 1 ∧
    startA.Good ∧ startA.fb = none ∧ startA.eb = none ∧ startA.cb = none :=
  ⟨seenA_good, rfl, ⟨_, rfl, by decide, by decide⟩, by decide, by decide, by decide,
    by decide, startA_good, rfl, rfl, rfl⟩

theorem witness_corrected_buffer :
    ∃ s : State, s.Good ∧ s.cb = some ⟨1, bodyA⟩ ∧ InFrame s.cfg bodyA.len 1 1 0 ∧
      ¬ InFrame s.cfg bodyA.len 2 0 0 :=
  ⟨_, seenA_good.withCorrected (f := ⟨1, bodyA⟩) (rows := bodyA.samples) rfl rfl, rfl, by decide,
    by decide⟩

theorem witness_stream_fixed :
    (startA.withPort [.command 0x1200000000000000]).port = .command 0x1200000000000000 :: [] ∧
    decode 0x1200000000000000 = .ok .sync ∧ Instr.sync ∈ [Instr.sync, .decode, .probe] ∧
    startA.streamFixed = true ∧
    step (startA.withPort [.command 0x1200000000000000]) = .next { startA with res := 36 } :=
  ⟨rfl, decode_of (by decide +kernel), by decide, rfl, next_of (by decide +kernel)⟩

theorem witness_asm_number : asmNumber "0xFFFF".toList = .ok 65535 ∧ 65535 < 2 ^ 16 ∧
    asmNumber "65536".toList = .ok 65536 ∧ 2 ^ 16 ≤ 65536 ∧
    asmNumber "0xFFFFFFFFFFFF".toList = .ok (2 ^ 48 - 1) ∧ 2 ^ 48 - 1 < 2 ^ 48 ∧
    asmNumber "281474976710656".toList = .ok (2 ^ 48) := by
  decide +kernel

theorem witness_reserved_register : 7 ≤ 7 := by decide

end Sys2Proof.Tests
end

section
/-! Faults and good states (00_scope.md R10, 40_framer.md R158, 43_calibration.md R263): a measured
frame lies in the stream, DEINT stays in the sample block, and so each computation of a command stops
only in a status code. With it, how a step runs the word the host issues. -/

namespace Sys2Proof.Machine

/-! ### The frame lies in the stream -/

/-- What a legal configuration says of the channels and the de-interleave. -/
theorem configOk_deint {c : Config} (h : configOk c = true) :
    2 ≤ c.nCh ∧ c.nCh % 2 = 0 ∧ deintOk c = true := by
  simp only [configOk, Bool.and_eq_true, decide_eq_true_eq] at h
  tauto

theorem marker_length {c : Config} (h : configOk c = true) (lay : Layout) :
    (marker c lay).length = markerLen lay := by
  cases lay with
  | a =>
    simp only [configOk, Bool.and_eq_true, decide_eq_true_eq] at h
    have hlen : c.markerA.length = 16 := by tauto
    exact hlen
  | b => exact List.length_replicate

theorem markerLen_pos (lay : Layout) : 0 < markerLen lay := by cases lay <;> decide

/-- An occurrence that the marker search finds lies in the bytes it searches. -/
theorem findFrom_in_list {pat l : List Byte} {p q : Nat} (h : findFrom pat l p = some q) :
    p ≤ q ∧ q - p + pat.length ≤ l.length := by
  obtain ⟨hle, hin, hpre, _⟩ := findFrom_eq_some.mp h
  have hlen := hpre.length_le
  rw [List.length_drop] at hlen
  exact ⟨hle, by omega⟩

/-- A measured frame lies in the stream: the second marker is in the chunk, which is in the stream, and
REUSE_PREV checks the length it reuses (40_framer.md R152, R153). -/
theorem findFrameLength_in_stream {s : State} {lay : Layout} {pos fl : Nat}
    (hcfg : configOk s.cfg = true) (hpos : pos ≤ s.streamLen)
    (h : findFrameLength s lay pos = .ok fl) : pos + fl ≤ s.streamLen := by
  obtain ⟨chunk, p1, hchunk, _, hcase⟩ := findFrameLength_ok h
  rcases hcase with ⟨p2, h2, rfl⟩ | ⟨_, _, _, hfit, rfl⟩
  · obtain ⟨bytes, hbytes, hlen⟩ := memRead_isSome (m := s.stream) (a := pos)
      (n := min (lookahead s.cfg lay) (s.streamLen - pos)) (by
        change _ ≤ s.streamLen
        omega)
    cases hchunk.symm.trans hbytes
    obtain ⟨hle, hin⟩ := findFrom_in_list h2
    have hmarker := markerLen_pos lay
    rw [List.length_drop, marker_length hcfg] at hin
    omega
  · exact hfit

/-! ### DEINT stays in the sample block -/

/-- The default de-interleave: a half of the block holds `nCh * len` words, and within it sample `i` of
a channel pair stands in row `i` of `nCh / 2` pairs of words (30_encoding.md R118). -/
theorem deintStandard_lt {nCh ch g i len : Nat} (heven : nCh % 2 = 0) (hc : ch < nCh)
    (hg : g < nGain) (hi : i < len) : deintStandard nCh ch g i len < nGain * nCh * len := by
  obtain ⟨k, rfl⟩ : ∃ k, nCh = 2 * k := ⟨nCh / 2, by omega⟩
  have hpair : ch / 2 < k := by omega
  have hrow : (i + 1) * k ≤ len * k := Nat.mul_le_mul_right k hi
  have hhalf : (ch % 2) * (2 * k * len) ≤ 1 * (2 * k * len) := Nat.mul_le_mul_right _ (by omega)
  have hword : (i * k + ch / 2) * 2 + g < 2 * k * len := by
    rw [Nat.add_mul] at hrow
    simp only [nGain] at hg
    rw [show 2 * k * len = 2 * (len * k) by ring]
    omega
  simp only [deintStandard, nGain, Nat.mul_div_cancel_left k Nat.two_pos]
  rw [show 2 * (2 * k) * len = 2 * (2 * k * len) by ring]
  omega

/-- A list of `n` numbers that holds every number below `n` holds no other. -/
theorem lt_of_mem_of_covers {l : List Nat} {n : Nat} (hlen : l.length = n)
    (hall : ∀ w < n, w ∈ l) {x : Nat} (hx : x ∈ l) : x < n := by
  have hsub : List.Subperm (List.range n) l :=
    List.subperm_of_subset List.nodup_range fun w hw => hall w (List.mem_range.mp hw)
  have hperm : List.Perm (List.range n) l := hsub.perm_of_length_le (by simp [hlen])
  exact List.mem_range.mp (hperm.mem_iff.mpr hx)

/-- A lawful row of a DEINT table has a word of the sample block at every place. -/
theorem deintRowOk_getElem? {nCh len : Nat} {row : List Nat} (h : deintRowOk nCh len row = true)
    {j : Nat} (hj : j < nGain * nCh * len) : ∃ w, row[j]? = some w ∧ w < nGain * nCh * len := by
  simp only [deintRowOk, Bool.and_eq_true, decide_eq_true_eq] at h
  obtain ⟨⟨⟨hlen, hall⟩, _⟩, _⟩ := h
  have hj' : j < row.length := by rw [hlen]; exact hj
  exact ⟨row[j], List.getElem?_eq_getElem hj',
    lt_of_mem_of_covers hlen hall (List.getElem_mem hj')⟩

/-- The table of a lawful DEINT has a lawful row for every capture length. -/
theorem deintOk_row {c : Config} {rows : List (List Nat)} (h : deintOk c = true)
    (hrows : c.deint = .table rows) {len : Nat} (h1 : 1 ≤ len) (h2 : len ≤ c.maxCapture) :
    ∃ row, rows[len - 1]? = some row ∧ deintRowOk c.nCh len row = true := by
  simp only [deintOk, hrows, Bool.and_eq_true, decide_eq_true_eq, List.all_eq_true] at h
  obtain ⟨hcount, hall⟩ := h
  have hb : len - 1 < rows.length := by omega
  have hrow := hall (rows[len - 1], len - 1)
    (List.mk_mem_zipIdx_iff_getElem?.mpr (List.getElem?_eq_getElem hb))
  simp only [Nat.sub_add_cancel h1] at hrow
  exact ⟨rows[len - 1], List.getElem?_eq_getElem hb, hrow⟩

/-- The place of (ch, g, i) in a row of a DEINT table. -/
theorem laneIndex_lt {nCh ch g i len : Nat} (hc : ch < nCh) (hg : g < nGain) (hi : i < len) :
    (ch * nGain + g) * len + i < nGain * nCh * len := by
  have hlane : ch * nGain + g + 1 ≤ nGain * nCh := by
    simp only [nGain] at *
    omega
  have hmul := Nat.mul_le_mul_right len hlane
  rw [Nat.add_mul] at hmul
  omega

/-- DEINT of a legal configuration gives a word of the sample block (30_encoding.md R118). -/
theorem deintAt_lt {c : Config} (hcfg : configOk c = true) {ch g i len : Nat} (hc : ch < c.nCh)
    (hg : g < nGain) (hi : i < len) (hlen : len ≤ c.maxCapture) :
    ∃ w, deintAt c ch g i len = some w ∧ w < nGain * c.nCh * len := by
  obtain ⟨_, heven, hok⟩ := configOk_deint hcfg
  cases hd : c.deint with
  | standard => exact ⟨_, by simp only [deintAt, hd], deintStandard_lt heven hc hg hi⟩
  | table rows =>
    obtain ⟨row, hrow, hrowOk⟩ := deintOk_row hok hd (by omega) hlen
    obtain ⟨w, hw, hlt⟩ := deintRowOk_getElem? hrowOk (laneIndex_lt hc hg hi)
    exact ⟨w, by simp only [deintAt, hd, hrow, hw], hlt⟩

/-! ### The samples of a frame in the stream are there -/

section
variable {s : State} {lay : Layout} {pos len : Nat}

theorem sampleAt_exists (hcfg : configOk s.cfg = true) (hlen : len ≤ s.cfg.maxCapture)
    (hfit : pos + hdrLen s.cfg lay + sampleStride s.cfg * len ≤ s.streamLen) {ch g i : Nat}
    (hc : ch < s.cfg.nCh) (hg : g < nGain) (hi : i < len) :
    ∃ x, sampleAt s lay pos len ch g i = .ok x := by
  obtain ⟨w, hw, hlt⟩ := deintAt_lt hcfg hc hg hi hlen
  have hin : pos + hdrLen s.cfg lay + 2 * w + 2 ≤ s.stream.length := by
    have hstride : sampleStride s.cfg * len = 2 * (nGain * s.cfg.nCh * len) := by
      simp only [sampleStride]
      ring
    change _ ≤ s.streamLen
    omega
  obtain ⟨bytes, hbytes, htwo⟩ := memRead_isSome hin
  obtain ⟨b0, b1, rfl⟩ := List.length_eq_two.mp htwo
  exact ⟨sample16 b0 b1, by simp only [sampleAt, hw, hbytes]⟩

theorem frameSamples_exists (hcfg : configOk s.cfg = true) (hlen : len ≤ s.cfg.maxCapture)
    (hfit : pos + hdrLen s.cfg lay + sampleStride s.cfg * len ≤ s.streamLen) :
    ∃ rows, frameSamples s lay pos len = .ok rows := by
  apply forEach_exists
  intro lane hl
  obtain ⟨hc, hg⟩ := mem_lanes.mp hl
  apply forEach_exists
  intro i hi
  exact sampleAt_exists hcfg hlen hfit hc hg (List.mem_range.mp hi)

/-- A capture length accounts for the whole frame (30_encoding.md R116). -/
theorem captureLength_fl {c : Config} {fl : Nat} (h : captureLength c lay fl = some len) :
    len ≤ c.maxCapture ∧ fl = hdrLen c lay + sampleStride c * len := by
  obtain ⟨hhdr, hdiv, rfl, _, hle⟩ := captureLength_eq_some.mp h
  have := Nat.mul_div_cancel' (Nat.dvd_of_mod_eq_zero hdiv)
  exact ⟨hle, by omega⟩

/-- Inside the stream `find_frame_length` does not fault (40_framer.md R158). -/
theorem findFrameLength_ne_fault (hpos : pos ≤ s.streamLen) (r : Fault) :
    findFrameLength s lay pos ≠ .error (.fault r) := by
  intro h
  rcases findFrameLength_error h with hcode | ⟨_, hbeyond⟩
  · cases hcode
  · omega

/-- Inside the stream `parse_frame` does not fault: the header is there by the first check, and the
samples because the measured frame is (40_framer.md R158). -/
theorem parseFrame_ne_fault (hcfg : configOk s.cfg = true) (hpos : pos ≤ s.streamLen) (r : Fault) :
    parseFrame s lay pos ≠ .error (.fault r) := by
  intro h
  simp only [parseFrame] at h
  split at h
  · cases h
  · next hhdr =>
    split at h
    · next e he =>
      cases h
      exact findFrameLength_ne_fault hpos r he
    · next fl hfl =>
      split at h
      · next hnone =>
        have hbeyond : s.streamLen < pos + hdrLen s.cfg lay := memRead_none.mp hnone
        omega
      · split at h
        · split at h
          · cases h
          · next len hcap =>
            split at h
            · obtain ⟨hle, hsize⟩ := captureLength_fl hcap
              have hin := findFrameLength_in_stream hcfg hpos hfl
              obtain ⟨rows, hrows⟩ := frameSamples_exists (lay := lay) hcfg hle
                (show pos + hdrLen s.cfg lay + sampleStride s.cfg * len ≤ s.streamLen by omega)
              simp only [frameRecord, hrows] at h
              cases h
            · cases h
        · cases h

end

/-! ### The elements that APPLY reads are there -/

theorem ebCur_eq_true {s : State} :
    ebCur s = true ↔ ∃ e f, s.eb = some e ∧ s.fb = some f ∧ e.seq = f.seq := by
  simp only [ebCur]
  constructor
  · intro h
    split at h
    · next e f he hf => exact ⟨e, f, he, hf, by simpa using h⟩
    · cases h
  · rintro ⟨e, f, he, hf, hseq⟩
    simp [he, hf, hseq]

/-- Current elapsed times have the shape of the frame in FB (10_state.md R33). -/
theorem elapsedTimes_shape {s : State} (hg : s.Good) {f : Frame} (hf : s.fb = some f)
    (hcur : ebCur s = true) : (elapsedTimes s).length = nGain * s.cfg.nCh ∧
      ∀ row ∈ elapsedTimes s, row.length = f.body.len := by
  obtain ⟨e, f', he, hf', hseq⟩ := ebCur_eq_true.mp hcur
  cases hf.symm.trans hf'
  have hdt : elapsedTimes s = e.dt := by simp only [elapsedTimes, he]
  have hok := hg.elapsed e he
  rw [hdt, ← hg.tags.eb_len f e hf he hseq]
  exact ⟨hok.row_count, hok.row_length⟩

/-- In a good state the correction of FB does not fault: every element it reads is there
(43_calibration.md R263). -/
theorem correctedRows_ne_fault {s : State} (hg : s.Good) {f : Frame} (hf : s.fb = some f)
    (hcur : ¬ (stageBit s.stageEn 2 = true ∧ ebCur s = false)) (r : Fault) :
    correctedRows s f.body (elapsedTimes s) ≠ .error (.fault r) := by
  intro h
  have hfo := hg.frame f hf
  rcases correctedRows_error h with ⟨_, lane, hlane, hnone⟩ |
    ⟨ch, g, i, stop, hc, hgain, hi, hstop, hat⟩
  · obtain ⟨h1, h2⟩ := mem_lanes.mp hlane
    obtain ⟨stop, hstop, _⟩ := frameStop_of_ok hg.config hfo h1 h2
    cases hnone.symm.trans hstop
  · obtain ⟨x, hx⟩ := rowElem_of_shape hfo.row_count hfo.row_length hc hgain hi
    simp only [correctAt, hx] at hat
    have hoffset : ∀ k, 1 ≤ k → k ≤ 4 → stageBit s.stageEn k = true →
        ∃ o, stageOffset s (elapsedTimes s) ⟨ch, g, stop⟩ i k = .ok o :=
      fun k h1 h4 hen => stageOffset_exists hg.config hg.pipeline hfo
        (fun h2 => elapsedTimes_shape hg hf (by simpa [h2] using hcur)) hc hgain hi hstop h1 h4 hen
    cases correctSample_error_code hoffset hat

/-! ### Where a command's fault comes from -/

section
variable {s : State} {r : Fault}

theorem finish_error_fault {e : Stop} (h : finish s (.error e) = .fault r) : e = .fault r := by
  cases e with
  | code c => cases h
  | fault f => cases h; rfl

/-- PROBE faults only as a `parse_frame` of it does. -/
theorem execProbe_fault (h : execProbe s = .fault r) :
    ∃ lay, parseFrame s lay s.pos.toNat = .error (.fault r) := by
  simp only [execProbe] at h
  split at h
  · cases h
  · split at h
    · cases h
    · next f hf => cases h; exact ⟨.a, hf⟩
    · split at h
      · cases h
      · next e he => cases finish_error_fault h; exact ⟨.b, he⟩

/-- SYNC faults only as its `find_frame_length` does. -/
theorem execSync_fault (h : execSync s = .fault r) :
    ∃ lay, findFrameLength s lay s.pos.toNat = .error (.fault r) := by
  simp only [execSync] at h
  split at h
  · cases h
  · next lay _ =>
    split at h
    · cases h
    · split at h
      · cases h
      · next e he => cases finish_error_fault h; exact ⟨lay, he⟩

/-- DECODE faults only as its `parse_frame` does. -/
theorem execDecode_fault (h : execDecode s = .fault r) :
    ∃ lay, parseFrame s lay s.pos.toNat = .error (.fault r) := by
  simp only [execDecode] at h
  split at h
  · cases h
  · next lay _ =>
    split at h
    · cases h
    · split at h
      · cases h
      · cases h
      · next e _ he => cases finish_error_fault h; exact ⟨lay, he⟩

theorem execSeek_ne_fault (p : BitVec 48) : execSeek p s ≠ .fault r := by
  unfold execSeek
  split
  · exact raise_ne_fault _ _ _
  · split <;> exact complete_ne_fault _ _

theorem translated_ne_fault (inRange : Bool) (result : Nat) :
    translated inRange result s ≠ .fault r := by
  unfold translated
  split
  · exact complete_ne_fault _ _
  · exact raise_ne_fault _ _ _

/-- OBSERVE faults only as the windows of FB do. -/
theorem execObserve_fault (h : execObserve s = .fault r) :
    ∃ f, s.fb = some f ∧ windowsOf s.cfg f.body = .error (.fault r) := by
  simp only [execObserve] at h
  split at h
  · cases h
  · next f hf =>
    split at h
    · cases h
    · split at h
      · cases h
      · next e he => cases finish_error_fault h; exact ⟨f, hf, he⟩

theorem execCalcfg_ne_fault (mask : Field) : execCalcfg mask s ≠ .fault r := by
  intro h
  simp only [execCalcfg] at h
  split at h
  · split at h
    · cases h
    · next e he =>
      cases finish_error_fault h
      cases (enabledStages_error he).1
  · cases h

/-- APPLY faults only as the correction of FB does. -/
theorem execApply_fault (h : execApply s = .fault r) :
    ∃ f, s.fb = some f ∧ ¬ (stageBit s.stageEn 2 = true ∧ ebCur s = false) ∧
      correctedRows s f.body (elapsedTimes s) = .error (.fault r) := by
  simp only [execApply] at h
  split at h
  · cases h
  · next f hf =>
    split at h
    · cases h
    · next hcur =>
      split at h
      · cases h
      · next e he => cases finish_error_fault h; exact ⟨f, hf, hcur, he⟩

end

/-! ### No command and no interaction faults in a good state -/

section
variable {s : State} (hg : s.Good) (r : Fault)
include hg

theorem State.Good.exec_ne_fault (i : Instr) : exec i s ≠ .fault r := by
  have hpos : s.pos.toNat ≤ s.streamLen := hg.stream.2.2
  cases i with
  | nop => exact complete_ne_fault _ _
  | reset => exact complete_ne_fault _ _
  | setlayoutA => exact complete_ne_fault _ _
  | setlayoutB => exact complete_ne_fault _ _
  | probe =>
    intro h
    obtain ⟨_, hp⟩ := execProbe_fault h
    exact parseFrame_ne_fault hg.config hpos r hp
  | sync =>
    intro h
    obtain ⟨_, hl⟩ := execSync_fault h
    exact findFrameLength_ne_fault hpos r hl
  | decode =>
    intro h
    obtain ⟨_, hp⟩ := execDecode_fault h
    exact parseFrame_ne_fault hg.config hpos r hp
  | seek p => exact execSeek_ne_fault p
  | c2s cell stopCell => exact translated_ne_fault _ _
  | s2c sampleIndex stopCell => exact translated_ne_fault _ _
  | inwin cell stopCell captureLength => exact translated_ne_fault _ _
  | observe =>
    intro h
    obtain ⟨f, hf, hw⟩ := execObserve_fault h
    obtain ⟨ws, hws⟩ := windowsOf_exists hg.config (hg.frame f hf)
    cases hw.symm.trans hws
  | invalidate => exact complete_ne_fault _ _
  | calcfg mask => exact execCalcfg_ne_fault mask
  | apply =>
    intro h
    obtain ⟨f, hf, hcur, hrows⟩ := execApply_fault h
    exact correctedRows_ne_fault hg hf hcur r hrows

theorem State.Good.issueWord_ne_fault (w : Word) : issueWord w s ≠ .fault r := by
  unfold issueWord
  split
  · next i _ => exact (hg.fixStream (readsStream i)).exec_ne_fault r i
  · exact raise_ne_fault _ _ _

end

/-! ### The other ports never fault -/

section
variable (s : State) (r : Fault)

theorem supplyStream_ne_fault (bytes : List Byte) : supplyStream bytes s ≠ .fault r := by
  unfold supplyStream
  split <;> exact nofun

theorem writeConstant_ne_fault (key : CalKey) (v : Option F64) :
    writeConstant key v s ≠ .fault r := by
  unfold writeConstant
  split <;> exact nofun

theorem hostReadRegister_ne_fault (n : Nat) : hostReadRegister n s ≠ .fault r := by
  unfold hostReadRegister
  split <;> exact nofun

theorem hostReadBuffer_ne_fault (ref : BufferRef) : hostReadBuffer ref s ≠ .fault r := by
  unfold hostReadBuffer
  split <;> exact nofun

end

theorem State.Good.hostEvent_ne_fault {s : State} (hg : s.Good) (r : Fault) (e : HostEvent) :
    hostEvent e s ≠ .fault r := by
  cases e with
  | command w => exact hg.issueWord_ne_fault r w
  | commandIfOk w =>
    simp only [hostEvent]
    split
    · exact hg.issueWord_ne_fault r w
    · exact nofun
  | supply bytes => exact supplyStream_ne_fault s r bytes
  | ctWrite key v => exact writeConstant_ne_fault s r key (some v)
  | ctClear key => exact writeConstant_ne_fault s r key none
  | readReg n => exact hostReadRegister_ne_fault s r n
  | readBuf ref => exact hostReadBuffer_ne_fault s r ref
  | reset => exact nofun

/-! ### A step -/

theorem step_of_port_nil {s : State} (h : s.port = []) : step s = .next s := by
  simp only [step, takeEvent, h]

theorem step_of_port_cons {s : State} {e : HostEvent} {rest : List HostEvent}
    (h : s.port = e :: rest) : step s = hostEvent e (s.withPort rest) := by
  simp only [step, takeEvent, h]

theorem issueWord_of_decode {w : Word} {i : Instr} (h : decode w = .ok i) (s : State) :
    issueWord w s = exec i (s.fixStream (readsStream i)) := by
  simp only [issueWord, h, issueInstr]

theorem hostEvent_commandIfOk_of_ok {s : State} (h : s.status = 0) (w : Word) :
    hostEvent (.commandIfOk w) s = issueWord w s := if_pos h

theorem hostEvent_commandIfOk_of_not_ok {s : State} (h : s.status ≠ 0) (w : Word) :
    hostEvent (.commandIfOk w) s = .next s := if_neg h

end Sys2Proof.Machine

namespace Sys2Proof.Proofs

open Sys2Proof.Machine

/-- Settles O55: a step takes one interaction off the port, which keeps the state good, and no
interaction faults in a good state. -/
theorem invariantRulesOutFaults : Obligations.InvariantRulesOutFaults := by
  intro s r hg
  cases hp : s.port with
  | nil => rw [step_of_port_nil hp]; exact nofun
  | cons e rest =>
    rw [step_of_port_cons hp]
    exact (hg.withPort rest).hostEvent_ne_fault r e

/-- Settles O7: the interaction leaves the port, and the decoded command runs with the stream fixed if
it reads it; after a code other than OK, `commandIfOk` only leaves the port. -/
theorem stepRunsDecodedInstruction : Obligations.StepRunsDecodedInstruction := by
  intro s w rest i hdec
  refine ⟨fun hp => ?_, fun hp hok => ?_, fun hp hnot => ?_⟩
  · rw [step_of_port_cons hp]
    exact issueWord_of_decode hdec (s.withPort rest)
  · rw [step_of_port_cons hp, hostEvent_commandIfOk_of_ok (s := s.withPort rest) hok]
    exact issueWord_of_decode hdec (s.withPort rest)
  · rw [step_of_port_cons hp]
    exact hostEvent_commandIfOk_of_not_ok (s := s.withPort rest) hnot w

end Sys2Proof.Proofs
end

section
/-! What a command can do to the state, said once: `Effect s i t` lists the writes with which command
`i` takes `s` to `t`, and each invariant and each frame statement of 10_state.md is a case analysis of
it. -/

namespace Sys2Proof.Machine

/-! ### The fields that PROBE, DECODE and OBSERVE write -/

@[simp] theorem probed_writes (lay : Layout) (s : State) :
    (probed lay s).layout = some lay ∧
      (probed lay s).res = BitVec.ofNat 64 (layoutCode (some lay)) := ⟨rfl, rfl⟩

@[simp] theorem probed_keeps (lay : Layout) (s : State) :
    (probed lay s).cfg = s.cfg ∧ (probed lay s).stream = s.stream ∧
      (probed lay s).status = s.status ∧ (probed lay s).pos = s.pos ∧
      (probed lay s).fatal = s.fatal ∧ (probed lay s).prevFl = s.prevFl ∧
      (probed lay s).prevFlValid = s.prevFlValid ∧ (probed lay s).fseq = s.fseq ∧
      (probed lay s).trk = s.trk ∧ (probed lay s).rb = s.rb ∧ (probed lay s).fb = s.fb ∧
      (probed lay s).eb = s.eb ∧ (probed lay s).cb = s.cb ∧
      (probed lay s).stageEn = s.stageEn ∧ (probed lay s).acs = s.acs ∧
      (probed lay s).ct = s.ct := by
  simp [probed]

@[simp] theorem commitFrame_writes (s : State) (r : FrameBody) :
    (commitFrame s r).res = r.fl ∧ (commitFrame s r).pos = s.pos + r.fl ∧
      (commitFrame s r).prevFl = r.fl ∧ (commitFrame s r).prevFlValid = true ∧
      (commitFrame s r).fseq = s.fseq + 1 ∧
      (commitFrame s r).fb = some ⟨s.fseq + 1, r⟩ := by
  simp [commitFrame]

@[simp] theorem commitFrame_keeps (s : State) (r : FrameBody) :
    (commitFrame s r).cfg = s.cfg ∧ (commitFrame s r).stream = s.stream ∧
      (commitFrame s r).status = s.status ∧ (commitFrame s r).layout = s.layout ∧
      (commitFrame s r).fatal = s.fatal ∧ (commitFrame s r).trk = s.trk ∧
      (commitFrame s r).rb = s.rb ∧ (commitFrame s r).eb = s.eb ∧
      (commitFrame s r).cb = s.cb ∧ (commitFrame s r).stageEn = s.stageEn ∧
      (commitFrame s r).acs = s.acs ∧ (commitFrame s r).ct = s.ct := by
  simp [commitFrame]

@[simp] theorem observed_keeps (s : State) (f : Frame) (ws : List Window) :
    (observed s f ws).cfg = s.cfg ∧ (observed s f ws).stream = s.stream ∧
      (observed s f ws).status = s.status ∧ (observed s f ws).res = s.res ∧
      (observed s f ws).pos = s.pos ∧ (observed s f ws).layout = s.layout ∧
      (observed s f ws).fatal = s.fatal ∧ (observed s f ws).prevFl = s.prevFl ∧
      (observed s f ws).prevFlValid = s.prevFlValid ∧ (observed s f ws).fseq = s.fseq ∧
      (observed s f ws).fb = s.fb ∧ (observed s f ws).cb = s.cb ∧
      (observed s f ws).stageEn = s.stageEn ∧ (observed s f ws).acs = s.acs ∧
      (observed s f ws).ct = s.ct := by
  simp [observed]

/-! ### The effect of a command -/

/-- What command `i` wrote, from the state `s` to the state `t`, with what it has checked before. -/
inductive Effect (s : State) : Instr → State → Prop where
  /-- STATUS alone: every raise but DECODE's header error, NOP, and a SEEK to POS. -/
  | status (i : Instr) (c : Code) : Effect s i (s.withStatus (codeBits c))
  /-- DECODE's header error sets FATAL (10_state.md R26). -/
  | headerError (hl : s.layout ≠ none) : Effect s .decode ((s.withFatal true).withStatus 3)
  | reset : Effect s .reset s.powerOn
  | selectedA : Effect s .setlayoutA ((s.withLayout (some .a)).withStatus 0)
  | selectedB : Effect s .setlayoutB ((s.withLayout (some .b)).withStatus 0)
  | probed (lay : Layout) : Effect s .probe ((probed lay s).withStatus 0)
  | measured (fl : Nat) : Effect s .sync ((s.withRes (BitVec.ofNat 64 fl)).withStatus 0)
  | committed (lay : Layout) (r : FrameBody) (hr : parseFrame s lay s.pos.toNat = .ok r) :
      Effect s .decode ((commitFrame s r).withStatus 0)
  | moved (p : BitVec 48) (hp : (seekTarget p).toNat ≤ s.streamLen) :
      Effect s (.seek p)
        (((s.withTrk .invalidatedOnce).withPos (seekTarget p)).withStatus 0)
  | cellToSample (a b : Field) (n : Nat) :
      Effect s (.c2s a b) ((s.withRes (BitVec.ofNat 64 n)).withStatus 0)
  | sampleToCell (a b : Field) (n : Nat) :
      Effect s (.s2c a b) ((s.withRes (BitVec.ofNat 64 n)).withStatus 0)
  | inWindow (a b c : Field) (n : Nat) :
      Effect s (.inwin a b c) ((s.withRes (BitVec.ofNat 64 n)).withStatus 0)
  | observed (f : Frame) (ws : List Window) (hf : s.fb = some f)
      (hws : windowsOf s.cfg f.body = .ok ws) :
      Effect s .observe ((observed s f ws).withStatus 0)
  | invalidated : Effect s .invalidate ((s.withTrk .invalidatedOnce).withStatus 0)
  | installed (m : Field) (en : BitVec 4)
      (hen : enabledStages s.cfg s.ct (m.setWidth 4) [1, 2, 3, 4] = .ok en) :
      Effect s (.calcfg m) ((s.withPipeline en (restrictStore s.ct en)).withStatus 0)
  | corrected (f : Frame) (rows : List (List Sample)) (hf : s.fb = some f)
      (hrows : correctedRows s f.body (elapsedTimes s) = .ok rows) :
      Effect s .apply
        ((s.withCorrected ⟨f.seq, { f.body with samples := rows }⟩).withStatus 0)

/-- SEEK's operand keeps its value when it is zero-extended (30_encoding.md R131). -/
theorem seekTarget_toNat (p : BitVec 48) : (seekTarget p).toNat = p.toNat := by
  have hp := p.isLt
  simp only [seekTarget, BitVec.toNat_setWidth]
  omega

/-- Every command that answers a next state has one of the listed effects. -/
theorem exec_effect {s t : State} {i : Instr} (h : exec i s = .next t) : Effect s i t := by
  cases i with
  | nop => exact execNop_next h ▸ .status _ .ok
  | reset => exact execReset_next h ▸ .reset
  | setlayoutA => exact execSetlayoutA_next h ▸ .selectedA
  | setlayoutB => exact execSetlayoutB_next h ▸ .selectedB
  | probe =>
    obtain ⟨_, rfl⟩ | ⟨_, ⟨_, _, rfl⟩ | ⟨_, ⟨_, _, rfl⟩ | ⟨c, _, rfl⟩⟩⟩ := execProbe_next h
    · exact .status _ .headerFormatError
    · exact .probed .a
    · exact .probed .b
    · exact .status _ c
  | sync =>
    obtain ⟨_, rfl⟩ | ⟨_, _, ⟨_, rfl⟩ | ⟨_, ⟨fl, _, rfl⟩ | ⟨_, rfl⟩⟩⟩ := execSync_next h
    · exact .status _ .sequenceError
    · exact .status _ .headerFormatError
    · exact .measured fl
    · exact .status _ .framingError
  | decode =>
    obtain ⟨_, rfl⟩ | ⟨lay, hl, ⟨_, rfl⟩ | ⟨_, ⟨r, hr, rfl⟩ | ⟨_, rfl⟩ | ⟨_, rfl⟩ | ⟨_, rfl⟩⟩⟩ :=
      execDecode_next h
    · exact .status _ .sequenceError
    · exact .status _ .headerFormatError
    · exact .committed lay r hr
    · exact .headerError (by simp [hl])
    · exact .status _ .endOfStream
    · exact .status _ .framingError
  | seek p =>
    obtain ⟨_, rfl⟩ | ⟨hp, ⟨_, rfl⟩ | ⟨_, rfl⟩⟩ := execSeek_next h
    · exact .status _ .addressRangeError
    · exact .status _ .ok
    · exact .moved p ((seekTarget_toNat p).symm ▸ hp)
  | c2s a b =>
    obtain ⟨_, rfl⟩ | ⟨_, rfl⟩ := translated_next h
    · exact .cellToSample a b _
    · exact .status _ .addressRangeError
  | s2c a b =>
    obtain ⟨_, rfl⟩ | ⟨_, rfl⟩ := translated_next h
    · exact .sampleToCell a b _
    · exact .status _ .addressRangeError
  | inwin a b c =>
    obtain ⟨_, rfl⟩ | ⟨_, rfl⟩ := translated_next h
    · exact .inWindow a b c _
    · exact .status _ .addressRangeError
  | observe =>
    obtain ⟨_, rfl⟩ | ⟨f, ws, hf, _, hws, rfl⟩ := execObserve_next h
    · exact .status _ .sequenceError
    · exact .observed f ws hf hws
  | invalidate => exact execInvalidate_next h ▸ .invalidated
  | calcfg m =>
    obtain ⟨_, rfl⟩ | ⟨_, ⟨en, hen, rfl⟩ | ⟨_, rfl⟩⟩ := execCalcfg_next h
    · exact .status _ .illegalCommand
    · exact .installed m en hen
    · exact .status _ .missingCalibrationConstant
  | apply =>
    obtain ⟨_, rfl⟩ | ⟨f, hf, _, ⟨rows, hrows, rfl⟩ | ⟨_, rfl⟩⟩ := execApply_next h
    · exact .status _ .sequenceError
    · exact .corrected f rows hf hrows
    · exact .status _ .arithmeticFault

/-! ### Which command writes which element -/

section
variable {s t : State} {i : Instr} (h : Effect s i t)
include h

theorem Effect.keeps_frame (hi : i ≠ .decode) (hr : i ≠ .reset) :
    t.fb = s.fb ∧ t.fseq = s.fseq ∧ t.prevFl = s.prevFl ∧ t.prevFlValid = s.prevFlValid := by
  cases h with
  | committed => exact absurd rfl hi
  | reset => exact absurd rfl hr
  | _ => simp

theorem Effect.keeps_elapsed_and_ring (hi : i ≠ .observe) (hr : i ≠ .reset) :
    t.eb = s.eb ∧ t.rb = s.rb := by
  cases h with
  | observed => exact absurd rfl hi
  | reset => exact absurd rfl hr
  | _ => simp

theorem Effect.keeps_corrected (hi : i ≠ .apply) (hr : i ≠ .reset) : t.cb = s.cb := by
  cases h with
  | corrected => exact absurd rfl hi
  | reset => exact absurd rfl hr
  | _ => simp

theorem Effect.keeps_pipeline (hi : ∀ m, i ≠ .calcfg m) (hr : i ≠ .reset) :
    t.stageEn = s.stageEn ∧ t.acs = s.acs := by
  cases h with
  | installed m => exact absurd rfl (hi m)
  | reset => exact absurd rfl hr
  | _ => simp

theorem Effect.keeps_layout (ha : i ≠ .setlayoutA) (hb : i ≠ .setlayoutB) (hp : i ≠ .probe)
    (hr : i ≠ .reset) : t.layout = s.layout := by
  cases h with
  | selectedA => exact absurd rfl ha
  | selectedB => exact absurd rfl hb
  | probed => exact absurd rfl hp
  | reset => exact absurd rfl hr
  | _ => simp

theorem Effect.keeps_constants (hr : i ≠ .reset) : t.ct = s.ct := by
  cases h with
  | reset => exact absurd rfl hr
  | _ => simp

theorem Effect.keeps_pos (hd : i ≠ .decode) (hs : ∀ p, i ≠ .seek p) (hr : i ≠ .reset) :
    t.pos = s.pos := by
  cases h with
  | committed => exact absurd rfl hd
  | moved p => exact absurd rfl (hs p)
  | reset => exact absurd rfl hr
  | _ => simp

/-- RES has six writers, and each completes with OK when it writes (10_state.md R23). -/
theorem Effect.keeps_res (hr : i ≠ .reset) (hi : t.status ≠ 0 ∨
    Claims.mnemonic i ∉ ["PROBE", "SYNC", "DECODE", "C2S", "S2C", "INWIN"]) : t.res = s.res := by
  cases h with
  | reset => exact absurd rfl hr
  | probed | measured | committed | cellToSample | sampleToCell | inWindow =>
    simp [Claims.mnemonic] at hi
  | _ => simp

/-- FATAL rises with DECODE's header error alone (10_state.md R26). -/
theorem Effect.sets_fatal (hs : s.fatal = false) (ht : t.fatal = true) :
    i = .decode ∧ t.status = 3 := by
  cases h with
  | headerError => exact ⟨rfl, rfl⟩
  | reset => cases ht
  | _ => simp [hs] at ht

/-- FATAL falls with RESET alone (10_state.md R26). -/
theorem Effect.clears_fatal (hs : s.fatal = true) (ht : t.fatal = false) : i = .reset := by
  cases h with
  | reset => rfl
  | headerError => cases ht
  | _ => simp [hs] at ht

/-- A DECODE that moves POS moves it by the length of the frame it puts in FB
(10_state.md R24). -/
theorem Effect.decode_advances (hi : i = .decode) (hpos : t.pos ≠ s.pos) :
    ∃ f, t.fb = some f ∧ t.pos = s.pos + f.body.fl := by
  cases h with
  | committed lay r => exact ⟨⟨s.fseq + 1, r⟩, by simp, by simp⟩
  | status | headerError => exact absurd rfl hpos
  | _ => cases hi

end

/-- A DECODE that reports HEADER_FORMAT_ERROR found FATAL set or sets it. -/
theorem execDecode_headerError_fatal {s t : State} (h : execDecode s = .next t)
    (ht : t.status = 3) : t.fatal = true := by
  obtain ⟨_, rfl⟩ | ⟨_, _, ⟨hf, rfl⟩ | ⟨_, ⟨_, _, rfl⟩ | ⟨_, rfl⟩ | ⟨_, rfl⟩ | ⟨_, rfl⟩⟩⟩ :=
    execDecode_next h
  · cases ht
  · exact hf
  · cases ht
  · rfl
  · cases ht
  · cases ht

section
variable {s : State} (hf : s.fatal = true)
include hf

theorem execProbe_of_fatal : execProbe s = raise .headerFormatError s := by
  simp only [execProbe, hf, if_true]

theorem execSync_of_fatal (hl : s.layout ≠ none) : execSync s = raise .headerFormatError s := by
  obtain ⟨lay, hlay⟩ := Option.ne_none_iff_exists'.mp hl
  simp only [execSync, hlay, hf, if_true]

theorem execDecode_of_fatal (hl : s.layout ≠ none) :
    execDecode s = raise .headerFormatError s := by
  obtain ⟨lay, hlay⟩ := Option.ne_none_iff_exists'.mp hl
  simp only [execDecode, hlay, hf, if_true]

end

/-! ### The frame DECODE commits -/

section
variable {s : State} (hg : s.Good) {lay : Layout} {r : FrameBody}
include hg

/-- The length of a parsed frame fits 64 bits, and the frame ends in the stream
(40_framer.md R153). -/
theorem State.Good.parseFrame_fl {fl : Nat}
    (hfl : findFrameLength s lay s.pos.toNat = .ok fl) :
    (BitVec.ofNat 64 fl).toNat = fl ∧ s.pos.toNat + fl ≤ s.streamLen := by
  obtain ⟨_, hlen, hpos⟩ := hg.stream
  have hin := findFrameLength_in_stream hg.config hpos hfl
  exact ⟨(BitVec.toNat_ofNat fl 64).trans (Nat.mod_eq_of_lt (by omega)), hin⟩

/-- POS stays in the stream when it advances by a parsed frame (10_state.md R24). -/
theorem State.Good.advance_le (h : parseFrame s lay s.pos.toNat = .ok r) :
    (s.pos + r.fl).toNat ≤ s.streamLen := by
  obtain ⟨fl, _, _, _, _, hfl, _, _, _, _, _, rfl⟩ := parseFrame_ok h
  obtain ⟨heq, hin⟩ := hg.parseFrame_fl hfl
  have hlen := hg.stream.2.1
  rw [BitVec.toNat_add, heq, Nat.mod_eq_of_lt (by omega)]
  exact hin

/-- A parsed frame has the shape of 10_state.md R31. -/
theorem State.Good.parseFrame_frameOk (h : parseFrame s lay s.pos.toNat = .ok r) :
    FrameOk s.cfg r := by
  obtain ⟨fl, len, hdr, rows, _, hfl, _, _, hcap, hstop, hrows, rfl⟩ := parseFrame_ok h
  obtain ⟨_, _, _, hpos, hle⟩ := captureLength_eq_some.mp hcap
  obtain ⟨hcount, hlen, _⟩ := frameSamples_ok hrows
  exact
    { len_pos := hpos
      len_le := hle
      stop_count := by simp [stopCells]
      stop_lt := fun x hx => of_decide_eq_true (List.all_eq_true.mp hstop x hx)
      row_count := hcount
      row_length := hlen
      fl_eq := (hg.parseFrame_fl hfl).1.trans (captureLength_fl hcap).2
      ticks_eq := rfl
      time_eq := rfl }

/-- The commit of DECODE keeps the invariant (40_framer.md R160). -/
theorem State.Good.committed (hroom : CounterRoom s)
    (h : parseFrame s lay s.pos.toNat = .ok r) : (commitFrame s r).Good where
  config := by simpa using hg.config
  stream := by simpa [StreamOk, State.streamLen] using
    ⟨hg.stream.1, hg.stream.2.1, hg.advance_le h⟩
  status := by simpa [StatusOk] using hg.status
  fatal_layout := by simpa using hg.fatal_layout
  ring := by simpa using hg.ring
  constants := by simpa using hg.constants
  active := by simpa using hg.active
  pipeline := by simpa [PipelineOk] using hg.pipeline
  frame := by simpa using hg.parseFrame_frameOk h
  elapsed := by simpa using hg.elapsed
  corrected := by simpa using hg.corrected
  tags := hg.tags.committed hroom r

end

/-! ### Every command and every interaction keeps the invariant -/

section
variable {s t : State} (hg : s.Good)
include hg

theorem State.Good.effect (hroom : CounterRoom s) {i : Instr} (h : Effect s i t) : t.Good := by
  have ok : (0 : Byte).toNat ≤ 8 := by decide
  cases h with
  | status _ c => exact hg.withStatus (codeBits_le c)
  | headerError hl => exact (hg.withFatal hl true).withStatus (by decide)
  | reset => exact hg.powerOn
  | selectedA => exact (hg.withLayout .a).withStatus ok
  | selectedB => exact (hg.withLayout .b).withStatus ok
  | probed lay => exact ((hg.withLayout lay).withRes _).withStatus ok
  | measured | cellToSample | sampleToCell | inWindow => exact (hg.withRes _).withStatus ok
  | committed lay r hr => exact (hg.committed hroom hr).withStatus ok
  | moved p hp => exact ((hg.withTrk .invalidatedOnce).withPos hp).withStatus ok
  | observed f ws hf hws => exact (hg.observed hf hws).withStatus ok
  | invalidated => exact (hg.withTrk _).withStatus ok
  | installed m en hen => exact (hg.withPipeline hen).withStatus ok
  | corrected f rows hf hrows => exact (hg.withCorrected hf hrows).withStatus ok

/-- POS stays in the stream, whatever the frame counter is (10_state.md R24). -/
theorem State.Good.effect_pos {i : Instr} (h : Effect s i t) : t.pos.toNat ≤ t.streamLen := by
  cases h with
  | reset => exact Nat.zero_le _
  | committed lay r hr => simpa [State.streamLen] using hg.advance_le hr
  | moved p hp => exact hp
  | _ => simpa [State.streamLen] using hg.stream.2.2

theorem State.Good.issueWord (hroom : CounterRoom s) {w : Word}
    (h : Machine.issueWord w s = .next t) : t.Good := by
  unfold Machine.issueWord at h
  split at h
  · next i _ => exact (hg.fixStream (readsStream i)).effect hroom (exec_effect h)
  · exact (raise_next _ _ _).mp h ▸ hg.withStatus (codeBits_le .illegalCommand)

theorem State.Good.supplyStream {bytes : List Byte}
    (h : Machine.supplyStream bytes s = .next t) : t.Good := by
  unfold Machine.supplyStream at h
  split at h
  · next hok =>
    cases h
    obtain ⟨_, hlen, hpos⟩ := hok
    exact hg.withStream hlen hpos
  · cases h

theorem State.Good.writeConstant {key : CalKey} {v : Option F64}
    (h : Machine.writeConstant key v s = .next t) : t.Good := by
  unfold Machine.writeConstant at h
  split at h
  · next hk =>
    cases h
    exact hg.withCt (hg.constants.write hk v)
  · cases h

theorem State.Good.hostReadRegister {n : Nat}
    (h : Machine.hostReadRegister n s = .next t) : t.Good := by
  unfold Machine.hostReadRegister at h
  split at h
  · cases h
    exact hg.withReply _
  · cases h

theorem State.Good.hostReadBuffer {ref : BufferRef}
    (h : Machine.hostReadBuffer ref s = .next t) : t.Good := by
  unfold Machine.hostReadBuffer at h
  split at h
  · cases h
    exact hg.withReply _
  · cases h

theorem State.Good.hostEvent (hroom : CounterRoom s) {e : HostEvent}
    (h : Machine.hostEvent e s = .next t) : t.Good := by
  cases e with
  | command w => exact hg.issueWord hroom h
  | commandIfOk w =>
    by_cases hok : s.status = 0
    · rw [hostEvent_commandIfOk_of_ok hok] at h
      exact hg.issueWord hroom h
    · rw [hostEvent_commandIfOk_of_not_ok hok] at h
      cases h
      exact hg
  | supply bytes => exact hg.supplyStream h
  | ctWrite key v => exact hg.writeConstant h
  | ctClear key => exact hg.writeConstant h
  | readReg n => exact hg.hostReadRegister h
  | readBuf ref => exact hg.hostReadBuffer h
  | reset =>
    cases h
    exact hg.powerOn

end

end Sys2Proof.Machine

namespace Sys2Proof.Proofs

open Sys2Proof.Machine

/-- Settles O54: the step takes one interaction off the port, and each interaction, above all each
effect of a command, keeps the invariant. -/
theorem stepKeepsInvariant : Obligations.StepKeepsInvariant := by
  intro s t hg hroom h
  cases hp : s.port with
  | nil =>
    rw [step_of_port_nil hp] at h
    cases h
    exact hg
  | cons e rest =>
    rw [step_of_port_cons hp] at h
    exact (hg.withPort rest).hostEvent hroom h

/-- Settles O21: FATAL by the effects of the commands; while it is set, the layout that a good state
then has lets SYNC and DECODE get to the check of FATAL. -/
theorem fatalFlagIsSticky : Obligations.FatalFlagIsSticky := by
  refine ⟨fun s t i h hs ht => (exec_effect h).sets_fatal hs ht,
    fun s t h ht => execDecode_headerError_fatal h ht,
    fun s t i h hs ht => (exec_effect h).clears_fatal hs ht, fun s hg hf i hi => ?_, rfl⟩
  have hl := hg.fatal_layout hf
  simp only [List.mem_cons, List.not_mem_nil, or_false] at hi
  obtain rfl | rfl | rfl := hi
  · exact execSync_of_fatal hf hl
  · exact execDecode_of_fatal hf hl
  · exact execProbe_of_fatal hf

/-- Settles O50, by the effects of the commands. -/
theorem resultRegisterWriters : Obligations.ResultRegisterWriters :=
  ⟨fun _ _ _ h hr hi => (exec_effect h).keeps_res hr hi, rfl⟩

/-- Settles O51, by the effects of the commands; a committed frame ends in the stream. -/
theorem positionMovers : Obligations.PositionMovers := fun _ _ _ h =>
  have he := exec_effect h
  ⟨he.keeps_pos, he.decode_advances, fun hg => hg.effect_pos he⟩

/-- Settles O53, by the effects of the commands. -/
theorem eachElementHasItsWriter : Obligations.EachElementHasItsWriter := fun _ _ _ h hr =>
  have he := exec_effect h
  ⟨fun hi => he.keeps_frame hi hr, fun hi => he.keeps_elapsed_and_ring hi hr,
    fun hi => he.keeps_corrected hi hr, fun hi => he.keeps_pipeline hi hr,
    fun ha hb hp => he.keeps_layout ha hb hp hr, he.keeps_constants hr⟩

end Sys2Proof.Proofs
end

section
/-! The read ports, word by word and element by element (10_state.md R38, R39), and APPLY with no stage
enabled (10_state.md R35). -/

namespace Sys2Proof.Machine

/-! ### Rows -/

theorem element_eq_rowElem {α : Type} (rows : List (List α)) (ch g i : Nat) :
    Claims.element rows ch g i = rowElem rows ch g i := by
  simp only [Claims.element, rowElem, rowIndex, nGain]
  cases rows[ch * 2 + g]? <;> rfl

/-- Every row of a buffer is that of some (ch, g). -/
theorem rowIndex_surj {nCh n : Nat} (h : n < nGain * nCh) :
    ∃ ch g, ch < nCh ∧ g < nGain ∧ rowIndex ch g = n := by
  refine ⟨n / 2, n % 2, ?_⟩
  simp only [rowIndex, nGain] at *
  omega

section
variable {α : Type} {rows : List (List α)} {nCh len : Nat} (hn : rows.length = nGain * nCh)
  (hr : ∀ row ∈ rows, row.length = len)
include hn hr

/-- Outside its ranges a buffer of the right shape has no element. -/
theorem rowElem_eq_none {ch g i : Nat} (hout : ¬ (ch < nCh ∧ g < nGain ∧ i < len))
    (hg : g < nGain) : rowElem rows ch g i = none := by
  simp only [rowElem]
  split
  · next row hrow =>
    obtain ⟨hlt, rfl⟩ := List.getElem?_eq_some_iff.mp hrow
    have hch : ch < nCh := by
      rw [hn] at hlt
      simp only [rowIndex, nGain] at hlt
      omega
    rw [List.getElem?_eq_none_iff, hr _ (List.getElem_mem hlt)]
    exact not_lt.mp fun hi => hout ⟨hch, hg, hi⟩
  · rfl

/-- Two buffers of one shape with the same elements are the same. -/
theorem rows_ext {rows' : List (List α)} (hn' : rows'.length = nGain * nCh)
    (hr' : ∀ row ∈ rows', row.length = len)
    (h : ∀ ch g i, ch < nCh → g < nGain → i < len →
      rowElem rows ch g i = rowElem rows' ch g i) : rows = rows' := by
  refine List.ext_getElem (hn.trans hn'.symm) fun n h1 h2 => ?_
  have hl := hr _ (List.getElem_mem h1)
  have hl' := hr' _ (List.getElem_mem h2)
  obtain ⟨ch, g, hc, hg, rfl⟩ := rowIndex_surj (hn ▸ h1)
  refine List.ext_getElem (hl.trans hl'.symm) fun i hi hi' => ?_
  have he := h ch g i hc hg (hl ▸ hi)
  simpa [rowElem, h1, h2, hi, hi'] using he

end

/-! ### APPLY with no stage enabled -/

/-- With no stage enabled the correction of a frame gives its samples back. -/
theorem correctedRows_identity {s : State} {f : FrameBody} (hc : configOk s.cfg = true)
    (hf : FrameOk s.cfg f) (hen : s.stageEn = 0) (dt : List (List F64)) :
    correctedRows s f dt = .ok f.samples := by
  have hat : ∀ {w : Window} {i : Nat} {x : Sample}, rowElem f.samples w.ch w.g i = some x →
      correctAt s f dt w i = .ok x := fun hx => by
    simp only [correctAt, hx, correctSample_identity hen]
  obtain ⟨ws, hws⟩ := windowsOf_exists hc hf
  obtain ⟨rows, hrows⟩ := correctedRows_exists (dt := dt) hws fun ch g i stop h1 h2 hi _ => by
    obtain ⟨x, hx⟩ := rowElem_of_shape hf.row_count hf.row_length h1 h2 hi
    exact ⟨x, hat (w := ⟨ch, g, stop⟩) hx⟩
  obtain ⟨_, _, hcount, hlen, helem⟩ := correctedRows_ok hrows
  rw [hrows, rows_ext hcount hlen hf.row_count hf.row_length fun ch g i h1 h2 hi => ?_]
  obtain ⟨stop, x, _, hx, hcx⟩ := helem ch g i h1 h2 hi
  obtain ⟨y, hy⟩ := rowElem_of_shape hf.row_count hf.row_length h1 h2 hi
  cases hcx.symm.trans (hat (w := ⟨ch, g, stop⟩) hy)
  exact hx.trans hy.symm

/-- APPLY with the corrected rows at hand, stage 2 being disabled. -/
theorem execApply_of_rows {s : State} {f : Frame} {rows : List (List Sample)}
    (hf : s.fb = some f) (h2 : stageBit s.stageEn 2 = false)
    (h : correctedRows s f.body (elapsedTimes s) = .ok rows) :
    execApply s = complete (s.withCorrected ⟨f.seq, { f.body with samples := rows }⟩) := by
  simp [execApply, hf, h2, h]

/-! ### The buffer read port -/

theorem hostEvent_readBuf_ok {s : State} {ref : BufferRef} {v : HostValue}
    (h : readBuffer s ref = .ok v) : Claims.Answers s ref v := by
  simp only [Claims.Answers, hostEvent, hostReadBuffer, h, State.withReply]

theorem hostEvent_readBuf_error {s : State} {ref : BufferRef} {r : Refusal}
    (h : readBuffer s ref = .error r) : hostEvent (.readBuf ref) s = .refused r := by
  simp only [hostEvent, hostReadBuffer, h]

@[simp] theorem validBuffer_some {α : Type} (b : α) : validBuffer (some b) = .ok b := rfl

@[simp] theorem validBuffer_none {α : Type} :
    validBuffer (none : Option α) = .error .bufferNotValid := rfl

@[simp] theorem elementValue_some {α : Type} (wrap : α → HostValue) (x : α) :
    elementValue wrap (some x) = .ok (wrap x) := rfl

@[simp] theorem elementValue_none {α : Type} (wrap : α → HostValue) :
    elementValue wrap none = .error .indexOutOfRange := rfl

/-- The port's check of the gain and its look-up of an element, for a buffer of the right shape: the
element in range, and a refusal out of range (10_state.md R39). -/
theorem gainElement_spec {α : Type} (wrap : α → HostValue) {c : Config} {rows : List (List α)}
    {len : Nat} (hn : rows.length = nGain * c.nCh) (hr : ∀ row ∈ rows, row.length = len)
    (ch g i : Nat) :
    (Claims.InFrame c len ch g i → ∃ x, Claims.element rows ch g i = some x ∧
      (if g < nGain then elementValue wrap (rowElem rows ch g i)
        else .error .indexOutOfRange) = .ok (wrap x)) ∧
    (¬ Claims.InFrame c len ch g i →
      (if g < nGain then elementValue wrap (rowElem rows ch g i)
        else .error .indexOutOfRange) = .error .indexOutOfRange) := by
  rw [element_eq_rowElem]
  constructor
  · rintro ⟨hc, hg, hi⟩
    obtain ⟨x, hx⟩ := rowElem_of_shape hn hr hc hg hi
    exact ⟨x, hx, by rw [if_pos (show g < nGain from hg), hx, elementValue_some]⟩
  · intro hout
    split
    · next hg => rw [rowElem_eq_none hn hr hout hg, elementValue_none]
    · rfl

/-- The port of a frame buffer, for FB and CB alike: `ref` names the buffer `buf` on it. -/
theorem framePortReads {s : State} {ref : FrameField → BufferRef} {buf : Option Frame}
    (href : ∀ field, readBuffer s (ref field) = (validBuffer buf).bind (frameField · field))
    (hok : ∀ f, buf = some f → FrameOk s.cfg f.body) : Claims.FramePortReads s ref buf := by
  refine ⟨fun hbuf field => hostEvent_readBuf_error (by simp [href, hbuf, Except.bind]), fun f hbuf => ?_⟩
  have hread : ∀ field, readBuffer s (ref field) = frameField f field := fun field => by
    simp [href, hbuf, Except.bind]
  have hf := hok f hbuf
  have hanswer : ∀ {field v}, frameField f field = .ok v → Claims.Answers s (ref field) v :=
    fun h => hostEvent_readBuf_ok ((hread _).trans h)
  have hrefuse : ∀ {field r}, frameField f field = .error r →
      hostEvent (.readBuf (ref field)) s = .refused r :=
    fun h => hostEvent_readBuf_error ((hread _).trans h)
  refine ⟨hanswer rfl, hanswer rfl, hanswer rfl, hanswer rfl, hanswer rfl, hanswer rfl,
    hanswer rfl, fun k => ⟨fun hk => ?_, fun hk => hrefuse ?_⟩, fun ch g i => ?_⟩
  · have hx := List.getElem?_eq_getElem (l := f.body.stop) (hf.stop_count ▸ hk)
    exact ⟨_, hx, hanswer (by rw [frameField, hx, elementValue_some])⟩
  · rw [frameField, List.getElem?_eq_none (hf.stop_count ▸ hk), elementValue_none]
  · obtain ⟨hin, hout⟩ := gainElement_spec .sample hf.row_count hf.row_length ch g i
    refine ⟨fun h => ?_, fun h => hrefuse (hout h)⟩
    obtain ⟨x, hx, hval⟩ := hin h
    exact ⟨x, hx, hanswer hval⟩

/-- The port of the elapsed-time buffer. -/
theorem elapsedPortReads {s : State} (hok : ∀ e, s.eb = some e → ElapsedOk s.cfg e) :
    Claims.ElapsedPortReads s := by
  refine ⟨fun heb ref href => hostEvent_readBuf_error ?_, fun e heb => ?_⟩
  · obtain rfl | rfl | ⟨ch, g, i, rfl⟩ := href <;> simp [readBuffer, heb, Except.bind]
  have he := hok e heb
  have helem : ∀ ch g i, readBuffer s (.ebElem ch g i) =
      if g < nGain then elementValue .real (rowElem e.dt ch g i)
      else .error .indexOutOfRange := fun ch g i => by
    simp [readBuffer, heb, Except.bind]
  refine ⟨hostEvent_readBuf_ok (by simp [readBuffer, heb, Except.bind]),
    hostEvent_readBuf_ok (by simp [readBuffer, heb, Except.bind]), fun ch g i => ?_⟩
  obtain ⟨hin, hout⟩ := gainElement_spec .real he.row_count he.row_length ch g i
  refine ⟨fun h => ?_, fun h => hostEvent_readBuf_error ((helem ch g i).trans (hout h))⟩
  obtain ⟨x, hx, hval⟩ := hin h
  exact ⟨x, hx, hostEvent_readBuf_ok ((helem ch g i).trans hval)⟩

/-! ### The register read port -/

theorem hostEvent_readReg_some {s : State} {n : Nat} {w : Word} (h : readRegister s n = some w) :
    hostEvent (.readReg n) s = .next { s with reply := some (.word w) } := by
  simp only [hostEvent, hostReadRegister, h, State.withReply]

theorem hostEvent_readReg_none {s : State} {n : Nat} (h : readRegister s n = none) :
    hostEvent (.readReg n) s = .refused (.reservedRegister n) := by
  simp only [hostEvent, hostReadRegister, h]

theorem readRegister_reserved (s : State) {n : Nat} (h : 7 ≤ n) : readRegister s n = none := by
  obtain ⟨k, rfl⟩ := Nat.exists_eq_add_of_le h
  rw [Nat.add_comm]
  rfl

theorem cbCur_eq_true {s : State} :
    cbCur s = true ↔ ∃ g f, s.cb = some g ∧ s.fb = some f ∧ g.seq = f.seq := by
  simp only [cbCur]
  constructor
  · intro h
    split at h
    · next g f hg hf => exact ⟨g, f, hg, hf, by simpa using h⟩
    · cases h
  · rintro ⟨g, f, hg, hf, hseq⟩
    simp [hg, hf, hseq]

theorem trkBit_eq_true {t : Tracker} : trkBit t = true ↔ t = .invalidatedOnce := by
  cases t <;> decide

/-- The code of LAYOUT in two bits tells the three values apart (10_state.md R25). -/
theorem layoutCode_bits (l : Option Layout) :
    (BitVec.ofNat 2 (layoutCode l) = 0 ↔ l = none) ∧
      (BitVec.ofNat 2 (layoutCode l) = 1 ↔ l = some .a) ∧
      (BitVec.ofNat 2 (layoutCode l) = 2 ↔ l = some .b) := by
  obtain _ | _ | _ := l <;> decide

/-- The single bits of the FLAGS word (10_state.md R38). -/
theorem flagsWord_bits (s : State) :
    (flagsWord s).getLsbD 0 = s.fatal ∧ (flagsWord s).getLsbD 1 = trkBit s.trk ∧
      (flagsWord s).getLsbD 4 = s.fb.isSome ∧ (flagsWord s).getLsbD 5 = ebCur s ∧
      (flagsWord s).getLsbD 6 = cbCur s ∧ (flagsWord s).getLsbD 7 = s.prevFlValid := by
  unfold flagsWord
  refine ⟨?_, ?_, ?_, ?_, ?_, ?_⟩ <;> repeat rw [BitVec.getLsbD_append]
  all_goals simp

/-- The wider fields of the FLAGS word: what stands below a field is passed over, and the field is the
low part of what is left (10_state.md R38). -/
theorem flagsWord_fields (s : State) :
    (flagsWord s).extractLsb' 2 2 = BitVec.ofNat 2 (layoutCode s.layout) ∧
      (flagsWord s).extractLsb' 8 4 = s.stageEn ∧ (flagsWord s).extractLsb' 12 52 = 0 := by
  unfold flagsWord
  refine ⟨?_, ?_, ?_⟩ <;> repeat rw [BitVec.extractLsb'_append_eq_of_le (by decide)]
  · rw [BitVec.extractLsb'_append_eq_of_add_le (by decide)]
    exact BitVec.extractLsb'_eq_self
  · rw [BitVec.extractLsb'_append_eq_of_add_le (by decide)]
    exact BitVec.extractLsb'_eq_self
  · exact BitVec.extractLsb'_eq_self

end Sys2Proof.Machine

namespace Sys2Proof.Proofs

open Sys2Proof.Machine

/-- Settles O42: every corrected sample is the sample itself, so the rows written are those of FB. -/
theorem applyWithoutStagesCopies : Obligations.ApplyWithoutStagesCopies := by
  intro s f hg hen hf
  have hrows := correctedRows_identity hg.config (hg.frame f hf) hen (elapsedTimes s)
  exact execApply_of_rows hf (hen ▸ stageBit_zero 2) hrows

/-- Settles O57: the buffers of a good state have their shapes, so an element is there exactly when
its index is in range. -/
theorem bufferPortReadsElements : Obligations.BufferPortReadsElements := fun _ hg =>
  ⟨framePortReads (fun _ => rfl) hg.frame, framePortReads (fun _ => rfl) hg.corrected,
    elapsedPortReads hg.elapsed⟩

/-- Settles O56, by the register map and the fields of the FLAGS word. -/
theorem registerMapReads : Obligations.RegisterMapReads := by
  intro s n
  obtain ⟨h0, h1, h4, h5, h6, h7⟩ := flagsWord_bits s
  obtain ⟨h2, h8, h12⟩ := flagsWord_fields s
  obtain ⟨hnone, ha, hb⟩ := layoutCode_bits s.layout
  refine ⟨flagsWord s, hostEvent_readReg_some rfl, hostEvent_readReg_some rfl,
    hostEvent_readReg_some rfl, hostEvent_readReg_some rfl, hostEvent_readReg_some rfl,
    hostEvent_readReg_some rfl, hostEvent_readReg_some rfl,
    fun hn => hostEvent_readReg_none (readRegister_reserved s hn), h0, ?_, ?_, ?_, ?_, h4, ?_, ?_,
    h7, h8, h12⟩
  · rw [h1, trkBit_eq_true]
  · rw [h2, hnone]
  · rw [h2, ha]
  · rw [h2, hb]
  · rw [h5]; exact ebCur_eq_true
  · rw [h6]; exact cbCur_eq_true

end Sys2Proof.Proofs
end

section
/-! The host's side of the state and the table write port (10_state.md, opening paragraph;
20_memory.md R61, R66): no command touches the host's side, a fixed stream stays until a reset, and
CTWrite and CTClear reach one entry of CT. -/

namespace Sys2Proof.Machine

open Sys2Proof.Claims

/-! ### The host's side in the updates that several fields share -/

@[simp] theorem probed_keeps_host (lay : Layout) (s : State) :
    (probed lay s).streamFixed = s.streamFixed ∧ (probed lay s).port = s.port ∧
      (probed lay s).reply = s.reply := by
  simp [probed]

@[simp] theorem commitFrame_keeps_host (s : State) (r : FrameBody) :
    (commitFrame s r).streamFixed = s.streamFixed ∧ (commitFrame s r).port = s.port ∧
      (commitFrame s r).reply = s.reply := by
  simp [commitFrame]

@[simp] theorem observed_keeps_host (s : State) (f : Frame) (ws : List Window) :
    (observed s f ws).streamFixed = s.streamFixed ∧ (observed s f ws).port = s.port ∧
      (observed s f ws).reply = s.reply := by
  simp [observed]

/-! ### The reset state -/

theorem storeRead_empty (c : Config) (key : CalKey) : storeRead c .empty key = none := by
  cases key with
  | atCell t ch g cell => cases t <;> rfl
  | atPos t ch g cell pos => cases t <;> rfl

theorem State.powerOn_atReset (s : State) : AtReset s.powerOn where
  status := rfl
  res := rfl
  pos := rfl
  layout := rfl
  fatal := rfl
  prev_fl := rfl
  prev_fl_valid := rfl
  fseq := rfl
  trk := rfl
  rb _ _ _ := rfl
  fb := rfl
  eb := rfl
  cb := rfl
  stage_en := rfl
  acs := storeRead_empty _
  ct := storeRead_empty _

/-! ### What a command does to the host's side -/

section
variable {s t : State} {i : Instr} (h : Effect s i t)
include h

/-- RESET too keeps the configuration, the stream, the port and the last answer (log 17). -/
theorem Effect.keeps_host_side :
    t.cfg = s.cfg ∧ t.stream = s.stream ∧ t.port = s.port ∧ t.reply = s.reply := by
  cases h with
  | reset => exact ⟨rfl, rfl, rfl, rfl⟩
  | _ => simp

/-- Only RESET opens the session's stream again (70_reset_and_hazards.md R361, R368). -/
theorem Effect.keeps_streamFixed_or_resets : t.streamFixed = s.streamFixed ∨ t = s.powerOn := by
  cases h with
  | reset => exact .inr rfl
  | _ => exact .inl (by simp)

theorem Effect.keeps_streamFixed (hr : i ≠ .reset) : t.streamFixed = s.streamFixed := by
  cases h with
  | reset => exact absurd rfl hr
  | _ => simp

end

/-! ### What each port can answer -/

section
variable {s t : State}

theorem supplyStream_next {bytes : List Byte} (h : supplyStream bytes s = .next t) :
    s.streamFixed = false ∧ t = s.withStream (Memory.ofBytes bytes) := by
  unfold supplyStream at h
  split at h
  · next hok => cases h; exact ⟨hok.1, rfl⟩
  · cases h

theorem writeConstant_of_key {key : CalKey} (hk : calKeyOk s.cfg key = true) (v : Option F64) :
    writeConstant key v s = .next (s.withCt (storeWrite s.cfg s.ct key v)) := if_pos hk

theorem writeConstant_of_not_key {key : CalKey} (hk : ¬ calKeyOk s.cfg key = true)
    (v : Option F64) : writeConstant key v s = .refused (.noSuchKey key) := if_neg hk

theorem writeConstant_next {key : CalKey} {v : Option F64} (h : writeConstant key v s = .next t) :
    t = s.withCt (storeWrite s.cfg s.ct key v) := by
  by_cases hk : calKeyOk s.cfg key = true
  · rw [writeConstant_of_key hk] at h; cases h; rfl
  · rw [writeConstant_of_not_key hk] at h; cases h

theorem hostReadRegister_next {n : Nat} (h : hostReadRegister n s = .next t) :
    ∃ v, t = s.withReply v := by
  unfold hostReadRegister at h
  split at h
  · cases h; exact ⟨_, rfl⟩
  · cases h

theorem hostReadBuffer_next {ref : BufferRef} (h : hostReadBuffer ref s = .next t) :
    ∃ v, t = s.withReply v := by
  unfold hostReadBuffer at h
  split at h
  · cases h; exact ⟨_, rfl⟩
  · cases h

theorem issueWord_next {w : Word} (h : issueWord w s = .next t) :
    (∃ i, decode w = .ok i ∧ Effect (s.fixStream (readsStream i)) i t) ∨
      t = s.withStatus (codeBits .illegalCommand) := by
  unfold issueWord at h
  split at h
  · next i hi => exact .inl ⟨i, hi, exec_effect h⟩
  · exact .inr ((raise_next _ _ _).mp h)

end

/-! ### A fixed stream -/

/-- How a session's fixed stream fares from `s` to `t` (20_memory.md R61, 70_reset_and_hazards.md
R368). -/
def KeepsFixedStream (s t : State) : Prop :=
  t.stream = s.stream ∧ (t.streamFixed = true ∨ AtReset t)

section
variable {s t : State} (hf : s.streamFixed = true)
include hf

theorem issueWord_keepsFixedStream {w : Word} (h : issueWord w s = .next t) :
    KeepsFixedStream s t := by
  obtain ⟨i, -, he⟩ | rfl := issueWord_next h
  · obtain ⟨-, hstream, -, -⟩ := he.keeps_host_side
    obtain hfix | rfl := he.keeps_streamFixed_or_resets
    · exact ⟨hstream, .inl (by simp [hfix, hf])⟩
    · exact ⟨hstream, .inr (State.powerOn_atReset _)⟩
  · exact ⟨rfl, .inl hf⟩

theorem hostEvent_keepsFixedStream {e : HostEvent} (h : hostEvent e s = .next t) :
    KeepsFixedStream s t := by
  cases e with
  | command w => exact issueWord_keepsFixedStream hf h
  | commandIfOk w =>
    by_cases hok : s.status = 0
    · rw [hostEvent_commandIfOk_of_ok hok] at h
      exact issueWord_keepsFixedStream hf h
    · rw [hostEvent_commandIfOk_of_not_ok hok] at h
      cases h
      exact ⟨rfl, .inl hf⟩
  | supply bytes =>
    obtain ⟨hopen, -⟩ := supplyStream_next h
    simp [hf] at hopen
  | ctWrite key v | ctClear key => exact writeConstant_next h ▸ ⟨rfl, .inl hf⟩
  | readReg n =>
    obtain ⟨v, rfl⟩ := hostReadRegister_next h
    exact ⟨rfl, .inl hf⟩
  | readBuf ref =>
    obtain ⟨v, rfl⟩ := hostReadBuffer_next h
    exact ⟨rfl, .inl hf⟩
  | reset =>
    cases h
    exact ⟨rfl, .inr s.powerOn_atReset⟩

end

/-- A command that reads the stream fixes it, whatever else it does (20_memory.md R61). -/
theorem issueWord_fixes_stream {s t : State} {w : Word} {i : Instr} (hdec : decode w = .ok i)
    (hi : i ∈ [Instr.sync, .decode, .probe]) (h : issueWord w s = .next t) :
    t.streamFixed = true := by
  have hreads : readsStream i = true ∧ i ≠ .reset := by
    simp only [List.mem_cons, List.not_mem_nil, or_false] at hi
    obtain rfl | rfl | rfl := hi <;> exact ⟨rfl, nofun⟩
  obtain ⟨hread, hreset⟩ := hreads
  rw [issueWord_of_decode hdec] at h
  rw [(exec_effect h).keeps_streamFixed hreset]
  simp [hread]

/-! ### The keys of the constant tables -/

theorem calKeyOk_atPos_iff {c : Config} {t : PosTable} {ch g cell pos : Nat} :
    calKeyOk c (.atPos t ch g cell pos) = true ↔
      ch < c.nCh ∧ g < nGain ∧ cell < totalCap ∧ pos < posWidth c t := by
  simp only [calKeyOk, Bool.and_eq_true, decide_eq_true_eq, cellKeyOk_iff, and_assoc]

/-- The model's test of a key accepts exactly the keys of 43_calibration.md R251. -/
theorem calKeyOk_iff_isKey {c : Config} {key : CalKey} : calKeyOk c key = true ↔ IsKey c key := by
  cases key with
  | atCell t ch g cell => exact cellKeyOk_iff
  | atPos t ch g cell pos => cases t <;> exact calKeyOk_atPos_iff

section
variable {c : Config} {st : CalStore} (hst : StoreOk c st) {key : CalKey} (hk : IsKey c key)
  (v : Option F64)
include hst hk

theorem storeRead_write_same : storeRead c (storeWrite c st key v) key = v := by
  have hok := calKeyOk_iff_isKey.mpr hk
  rw [storeRead_write hst hok hok, if_pos rfl]

theorem storeRead_write_other {other : CalKey} (ho : IsKey c other) (hne : other ≠ key) :
    storeRead c (storeWrite c st key v) other = storeRead c st other := by
  rw [storeRead_write hst (calKeyOk_iff_isKey.mpr hk) (calKeyOk_iff_isKey.mpr ho), if_neg hne]

end

end Sys2Proof.Machine

namespace Sys2Proof.Proofs

open Sys2Proof.Machine

/-- Settles O39: both interactions are one write of a store in its canonical form, which reaches the
entry of its key alone. -/
theorem tableWritePortWritesOneEntry : Obligations.TableWritePortWritesOneEntry := by
  intro s key v hg
  refine ⟨fun hk => ?_, fun hk => ?_⟩
  · have hok := calKeyOk_iff_isKey.mpr hk
    have hct := hg.constants
    exact ⟨storeWrite s.cfg s.ct key (some v), storeWrite s.cfg s.ct key none,
      writeConstant_of_key hok (some v), writeConstant_of_key hok none,
      storeRead_write_same hct hk (some v), storeRead_write_same hct hk none, fun _ ho hne =>
        ⟨storeRead_write_other hct hk (some v) ho hne, storeRead_write_other hct hk none ho hne⟩⟩
  · have hno := mt calKeyOk_iff_isKey.mp hk
    exact ⟨writeConstant_of_not_key hno (some v), writeConstant_of_not_key hno none⟩

/-- Settles O52, by the effects of the commands. -/
theorem commandsKeepHostSide : Obligations.CommandsKeepHostSide := fun _ _ _ h =>
  (exec_effect h).keeps_host_side

/-- Settles O58: the step takes one interaction off the port; a command that reads the stream fixes
it before it runs, and of the interactions with a fixed stream a reset alone opens it again. -/
theorem fixedStreamStays : Obligations.FixedStreamStays := by
  refine ⟨fun s t w rest i hp hdec hi h => ?_, fun s t hf h => ?_⟩
  · rw [step_of_port_cons hp] at h
    exact issueWord_fixes_stream hdec hi h
  · cases hp : s.port with
    | nil =>
      rw [step_of_port_nil hp] at h
      cases h
      exact ⟨rfl, .inl hf⟩
    | cons e rest =>
      rw [step_of_port_cons hp] at h
      exact hostEvent_keepsFixedStream (s := s.withPort rest) hf h

end Sys2Proof.Proofs
end

section
/-! The decoder and the encoder (30_encoding.md R130 to R135). The one inversion of the decoder is
`decode_eq_ok_iff`: a word is read as a command exactly when it is the word of that command and the
command is legal. The table of R134, the operands of R131 and the illegal words of R133 are then
statements about the fields of `encode i`. -/

namespace Sys2Proof

open Sys2Proof.Claims

/-! ### Words and their fields -/

section
variable (op : Byte) (a b c : Field)

@[simp] theorem fieldOp_wordOf : fieldOp (wordOf op a b c) = op := (fields_wordOf op a b c).1
@[simp] theorem fieldA_wordOf : fieldA (wordOf op a b c) = a := (fields_wordOf op a b c).2.1
@[simp] theorem fieldB_wordOf : fieldB (wordOf op a b c) = b := (fields_wordOf op a b c).2.2.1
@[simp] theorem fieldC_wordOf : fieldC (wordOf op a b c) = c := (fields_wordOf op a b c).2.2.2.1
@[simp] theorem fieldZ_wordOf : fieldZ (wordOf op a b c) = 0 := (fields_wordOf op a b c).2.2.2.2

end

section
variable (p : BitVec 48)

@[simp] theorem fieldOp_seek : fieldOp (encode (.seek p)) = 0x14 := (fields_seek p).1
@[simp] theorem fieldP_seek : fieldP (encode (.seek p)) = p := (fields_seek p).2.1
@[simp] theorem fieldZ_seek : fieldZ (encode (.seek p)) = 0 := (fields_seek p).2.2

end

/-- A word with Z = 0 is the word of its fields. -/
theorem wordOf_eq_of_fields {w : Word} {n : Nat} {a b c : Field} (hz : fieldZ w = 0)
    (hop : (fieldOp w).toNat = n) (ha : fieldA w = a) (hb : fieldB w = b) (hc : fieldC w = c) :
    wordOf (BitVec.ofNat 8 n) a b c = w := by
  subst hop ha hb hc
  rw [BitVec.ofNat_toNat, BitVec.setWidth_eq]
  exact wordOf_fields w hz

/-- Two words with the same five fields are the same. -/
theorem word_ext_fields {v w : Word} (hop : fieldOp v = fieldOp w) (ha : fieldA v = fieldA w)
    (hb : fieldB v = fieldB w) (hc : fieldC v = fieldC w) (hz : fieldZ v = fieldZ w) : v = w := by
  have hv := v.isLt
  have hw := w.isLt
  have hop := congrArg BitVec.toNat hop
  have ha := congrArg BitVec.toNat ha
  have hb := congrArg BitVec.toNat hb
  have hc := congrArg BitVec.toNat hc
  have hz := congrArg BitVec.toNat hz
  simp only [fieldOp_toNat] at hop
  simp only [fieldA_toNat] at ha
  simp only [fieldB_toNat] at hb
  simp only [fieldC_toNat] at hc
  simp only [fieldZ_toNat] at hz
  apply BitVec.eq_of_toNat_eq
  omega

/-! ### The integer fields of R130 -/

section
variable (w : Word)

@[simp] theorem bitsAt_op : bitsAt w 56 8 = (fieldOp w).toNat := (fieldOp_toNat w).symm
@[simp] theorem bitsAt_a : bitsAt w 40 16 = (fieldA w).toNat := (fieldA_toNat w).symm
@[simp] theorem bitsAt_b : bitsAt w 24 16 = (fieldB w).toNat := (fieldB_toNat w).symm
@[simp] theorem bitsAt_c : bitsAt w 8 16 = (fieldC w).toNat := (fieldC_toNat w).symm
@[simp] theorem bitsAt_p : bitsAt w 8 48 = (fieldP w).toNat := (fieldP_toNat w).symm
@[simp] theorem bitsAt_z : bitsAt w 0 8 = (fieldZ w).toNat := by simp [bitsAt, fieldZ_toNat]

end

/-! ### The decoder -/

theorem unusedZero_eq_ok {fields : List Field} {r : Except IllegalWord Instr} {i : Instr} :
    unusedZero fields r = .ok i ↔ (∀ f ∈ fields, f = 0) ∧ r = .ok i := by
  simp only [unusedZero, List.all_eq_true, beq_iff_eq]
  split
  · next hall => exact ⟨fun h => ⟨hall, h⟩, And.right⟩
  · next hnot => exact ⟨nofun, fun h => absurd h.1 hnot⟩

theorem decodeSetlayout_eq_ok {a : Field} {i : Instr} :
    decodeSetlayout a = .ok i ↔ (a = 1 ∧ .setlayoutA = i) ∨ (a = 2 ∧ .setlayoutB = i) := by
  simp only [decodeSetlayout]
  split
  · next ha => simp [ha]
  · split <;> simp_all

theorem decodeCalcfg_eq_ok {a : Field} {i : Instr} :
    decodeCalcfg a = .ok i ↔ a.toNat < 16 ∧ .calcfg a = i := by
  simp only [decodeCalcfg]
  split <;> simp [*]

/-- The decoder reads every legal command back from its word. -/
theorem decode_encode {i : Instr} (h : i.wellFormed = true) : decode (encode i) = .ok i := by
  cases i with
  | seek p => simp [decode, decodeByOp]
  | calcfg mask =>
    have hmask : mask.toNat < 16 := of_decide_eq_true h
    simp [decode, encode, decodeByOp, unusedZero, decodeCalcfg, hmask]
  | _ => simp [decode, encode, decodeByOp, unusedZero, decodeSetlayout]

section
variable {w : Word} {i j : Instr} {n : Nat} (hz : fieldZ w = 0)
  (hop : (fieldOp w).toNat = n)
include hz hop

/-- A word read as a command without operands. -/
theorem encode_of_plain (h : unusedZero [fieldA w, fieldB w, fieldC w] (.ok j) = .ok i)
    (hj : j.wellFormed = true) (henc : encode j = wordOf (BitVec.ofNat 8 n) 0 0 0) :
    i.wellFormed = true ∧ encode i = w := by
  obtain ⟨hfields, hi⟩ := unusedZero_eq_ok.mp h
  cases hi
  simp only [List.forall_mem_cons] at hfields
  obtain ⟨ha, hb, hc, -⟩ := hfields
  exact ⟨hj, henc ▸ wordOf_eq_of_fields hz hop ha hb hc⟩

/-- A word read as a command with the operand A alone. -/
theorem encode_of_oneOperand {r : Except IllegalWord Instr}
    (h : unusedZero [fieldB w, fieldC w] r = .ok i)
    (hr : r = .ok i → i.wellFormed = true ∧ encode i = wordOf (BitVec.ofNat 8 n) (fieldA w) 0 0) :
    i.wellFormed = true ∧ encode i = w := by
  obtain ⟨hfields, hi⟩ := unusedZero_eq_ok.mp h
  simp only [List.forall_mem_cons] at hfields
  obtain ⟨hb, hc, -⟩ := hfields
  obtain ⟨hwf, henc⟩ := hr hi
  exact ⟨hwf, henc ▸ wordOf_eq_of_fields hz hop rfl hb hc⟩

/-- A word read as a command with the operands A and B. -/
theorem encode_of_twoOperands (h : unusedZero [fieldC w] (.ok j) = .ok i)
    (hj : j.wellFormed = true)
    (henc : encode j = wordOf (BitVec.ofNat 8 n) (fieldA w) (fieldB w) 0) :
    i.wellFormed = true ∧ encode i = w := by
  obtain ⟨hfields, hi⟩ := unusedZero_eq_ok.mp h
  cases hi
  obtain ⟨hc, -⟩ := List.forall_mem_cons.mp hfields
  exact ⟨hj, henc ▸ wordOf_eq_of_fields hz hop rfl rfl hc⟩

end

/-- A word the decoder accepts is the word of the command it is read as, opcode by opcode. -/
theorem encode_of_decode {w : Word} {i : Instr} (h : decode w = .ok i) :
    i.wellFormed = true ∧ encode i = w := by
  unfold decode at h
  split at h
  case isFalse => cases h
  case isTrue hz =>
    unfold decodeByOp at h
    split at h
    case h_1 hop | h_2 hop | h_4 hop | h_5 hop | h_6 hop | h_11 hop | h_12 hop | h_14 hop =>
      exact encode_of_plain hz hop h rfl rfl
    case h_3 hop =>
      refine encode_of_oneOperand hz hop h fun hr => ?_
      obtain ⟨ha, rfl⟩ | ⟨ha, rfl⟩ := decodeSetlayout_eq_ok.mp hr <;> exact ⟨rfl, by rw [ha]; rfl⟩
    case h_7 hop => cases h; exact ⟨rfl, seek_field w hz hop⟩
    case h_8 hop => exact encode_of_twoOperands hz hop h rfl rfl
    case h_9 hop => exact encode_of_twoOperands hz hop h rfl rfl
    case h_10 hop =>
      cases h
      exact ⟨rfl, wordOf_eq_of_fields hz hop rfl rfl rfl⟩
    case h_13 hop =>
      refine encode_of_oneOperand hz hop h fun hr => ?_
      obtain ⟨hmask, rfl⟩ := decodeCalcfg_eq_ok.mp hr
      exact ⟨decide_eq_true hmask, rfl⟩
    case h_15 => cases h

/-- The decoder, said once: a word is read as a command exactly when the command is legal and
the word is its word. -/
theorem decode_eq_ok_iff {w : Word} {i : Instr} :
    decode w = .ok i ↔ i.wellFormed = true ∧ encode i = w :=
  ⟨encode_of_decode, fun ⟨hwf, hw⟩ => hw ▸ decode_encode hwf⟩


/-! ### The illegal words of R133 -/

/-- The word of a legal command meets no clause of R133. -/
theorem not_illegal_encode {i : Instr} (h : i.wellFormed = true) : ¬ Illegal (encode i) := by
  cases i with
  | seek p => simp [Illegal]
  | calcfg mask => simpa [Illegal, encode] using of_decide_eq_true h
  | _ => simp [Illegal, encode]

/-- A word that meets no clause of R133 is accepted, opcode by opcode; SETLAYOUT alone has two
commands under one opcode. -/
theorem exists_decode_of_not_illegal {w : Word} (h : ¬ Illegal w) : ∃ i, decode w = .ok i := by
  simp only [Illegal, bitsAt_op, bitsAt_a, bitsAt_b, bitsAt_c, bitsAt_z, not_or, not_and, not_not]
    at h
  obtain ⟨hop, hz, ha, hb, hc, hlayout, hmask⟩ := h
  replace hz : fieldZ w = 0 := BitVec.eq_of_toNat_eq hz
  simp only [List.mem_cons, List.not_mem_nil, or_false] at hop
  rcases hop with hop | hop | hop | hop | hop | hop | hop | hop | hop | hop | hop | hop | hop | hop
  case inr.inr.inl =>
    simp [hop, BitVec.toNat_eq_nat] at hb hc hlayout
    obtain ha | ha := hlayout <;>
      simp [decode, decodeByOp, unusedZero, decodeSetlayout, hop, ha, hb, hc, hz]
  all_goals
    simp [hop, BitVec.toNat_eq_nat] at ha hb hc hmask
    simp [decode, decodeByOp, unusedZero, decodeCalcfg, hop, ha, hb, hc, hz, hmask]

theorem decode_error_iff {w : Word} : (∃ e, decode w = .error e) ↔ ¬ ∃ i, decode w = .ok i := by
  cases decode w <;> simp

/-- The decoder refuses exactly the words of R133. -/
theorem illegal_iff_decode_error {w : Word} : Illegal w ↔ ∃ e, decode w = .error e := by
  rw [decode_error_iff, iff_not_comm]
  refine ⟨fun ⟨i, hi⟩ => ?_, exists_decode_of_not_illegal⟩
  obtain ⟨hwf, rfl⟩ := encode_of_decode hi
  exact not_illegal_encode hwf

/-! ### The operands of R131 -/

theorem operands_encode (i : Instr) : operands i = operandBits (mnemonic i) (encode i) := by
  cases i with
  | seek p => simp [operands, operandBits, mnemonic]
  | _ => simp [operands, operandBits, mnemonic, encode]

/-! ### The match and mask table -/

/-- Under a mask that keeps the bits from `k` on, the numbers below `2 ^ k` and no others give 0. -/
theorem and_highMask_eq_zero_iff {n : Nat} (x : BitVec n) (k : Nat) :
    x &&& (BitVec.allOnes n <<< k) = 0 ↔ x.toNat < 2 ^ k := by
  constructor
  · intro h
    refine Nat.lt_pow_two_of_testBit _ fun j hj => ?_
    have hbit := congrArg (BitVec.getLsbD · j) h
    by_cases hn : j < n
    · change x.getLsbD j = false
      have hshift : ¬ j < k := by omega
      simpa [hn, hshift, BitVec.getLsbD_eq_getElem] using hbit
    · exact BitVec.getLsbD_of_ge x j (by omega)
  · intro h
    refine BitVec.eq_of_getLsbD_eq fun j hj => ?_
    by_cases hjk : j < k
    · simp [hjk]
    · have hhigh : x.getLsbD j = false :=
        Nat.testBit_lt_two_pow (h.trans_le (Nat.pow_le_pow_right (by decide) (by omega)))
      simp [hhigh]

/-- A word matches a row exactly when each of its fields does. -/
theorem covers_iff_fields (r : Row) (w : Word) : r.Covers w ↔
    (fieldOp w &&& r.mask.extractLsb' 56 8 = r.pattern.extractLsb' 56 8 ∧
      fieldA w &&& r.mask.extractLsb' 40 16 = r.pattern.extractLsb' 40 16 ∧
      fieldB w &&& r.mask.extractLsb' 24 16 = r.pattern.extractLsb' 24 16 ∧
      fieldC w &&& r.mask.extractLsb' 8 16 = r.pattern.extractLsb' 8 16 ∧
      fieldZ w &&& r.mask.extractLsb' 0 8 = r.pattern.extractLsb' 0 8) ∧
    (r.layoutOperand = true → (fieldA w).toNat % 4 = 1 ∨ (fieldA w).toNat % 4 = 2) := by
  have hlow : (fieldA w).toNat % 4 = w.toNat / 2 ^ 40 % 4 := by
    rw [fieldA_toNat]
    omega
  rw [Row.Covers, hlow]
  refine and_congr_left' ⟨fun h => ?_, fun ⟨hop, ha, hb, hc, hz⟩ => ?_⟩
  · simp only [fieldOp, fieldA, fieldB, fieldC, fieldZ, ← BitVec.extractLsb'_and, h, and_self]
  · simp only [fieldOp, fieldA, fieldB, fieldC, fieldZ, ← BitVec.extractLsb'_and]
      at hop ha hb hc hz
    exact word_ext_fields hop ha hb hc hz

@[simp] theorem byte_and_mask (z : Byte) : z &&& 0xFF#8 = z := BitVec.and_allOnes

@[simp] theorem field_and_mask (a : Field) : a &&& 0xFFFF#16 = a := BitVec.and_allOnes

/-- The mask of SETLAYOUT on A. -/
@[simp] theorem field_and_layoutMask (a : Field) : a &&& 0xFFFC#16 = 0#16 ↔ a.toNat < 4 :=
  and_highMask_eq_zero_iff a 2

/-- The mask of CALCFG on A. -/
@[simp] theorem field_and_stageMask (a : Field) : a &&& 0xFFF0#16 = 0#16 ↔ a.toNat < 16 :=
  and_highMask_eq_zero_iff a 4

/-- The word of a legal command matches the row of its mnemonic. -/
theorem covers_encode {i : Instr} (h : i.wellFormed = true) :
    ∃ r ∈ rows, r.Covers (encode i) ∧ r.name = mnemonic i := by
  cases i with
  | seek a => simp [rows, covers_iff_fields, mnemonic]
  | calcfg a =>
    simpa [rows, covers_iff_fields, mnemonic, encode] using of_decide_eq_true h
  | _ => simp [rows, covers_iff_fields, mnemonic, encode]

/-- A word that matches a row meets no clause of R133. -/
theorem not_illegal_of_covers {r : Row} (hr : r ∈ rows) {w : Word} (h : r.Covers w) :
    ¬ Illegal w := by
  rw [covers_iff_fields] at h
  simp only [rows, List.mem_cons, List.not_mem_nil, or_false] at hr
  rcases hr with rfl | rfl | rfl | rfl | rfl | rfl | rfl | rfl | rfl | rfl | rfl | rfl | rfl | rfl
  case inr.inr.inl =>
    simp at h
    have hlayout : (fieldA w).toNat = 1 ∨ (fieldA w).toNat = 2 := by omega
    simpa [Illegal, h, or_iff_not_imp_left] using hlayout
  all_goals
    simp at h
    simp [Illegal, h]

/-- Every row fixes OP. -/
theorem opcode_of_covers {r : Row} (hr : r ∈ rows) {w : Word} (h : r.Covers w) :
    fieldOp w = fieldOp r.pattern := by
  have hmask : ∀ r ∈ rows, r.mask.extractLsb' 56 8 = BitVec.allOnes 8 := by decide
  obtain ⟨⟨hop, -⟩, -⟩ := (covers_iff_fields r w).mp h
  rwa [hmask r hr, BitVec.and_allOnes] at hop

/-- No two rows have one opcode, so no two rows match one word. -/
theorem rows_disjoint : rows.Pairwise fun a b => ∀ w, ¬ (a.Covers w ∧ b.Covers w) := by
  have hops : rows.Pairwise fun a b => fieldOp a.pattern ≠ fieldOp b.pattern := by decide
  refine hops.imp_of_mem fun ha hb hne w ⟨hwa, hwb⟩ => hne ?_
  rw [← opcode_of_covers ha hwa, opcode_of_covers hb hwb]

end Sys2Proof

namespace Sys2Proof.Proofs

open Sys2Proof.Machine Sys2Proof.Claims

/-- Settles O1. -/
theorem decodeOfEncodeIsIdentity : Obligations.DecodeOfEncodeIsIdentity := fun _ hwf =>
  decode_encode hwf

/-- Settles O2. -/
theorem encodeOfDecodeIsIdentity : Obligations.EncodeOfDecodeIsIdentity := fun _ _ h =>
  encode_of_decode h

/-- Settles O3: an accepted word is the word of its command, which matches its row; a word that
matches a row meets no clause of R133; and the rows have different opcodes. -/
theorem decoderFollowsMatchMaskTable : Obligations.DecoderFollowsMatchMaskTable := by
  refine ⟨fun w i h => ?_, fun w ⟨r, hr, hcov⟩ => ?_, rows_disjoint⟩
  · obtain ⟨hwf, rfl⟩ := encode_of_decode h
    exact covers_encode hwf
  · exact exists_decode_of_not_illegal (not_illegal_of_covers hr hcov)

/-- Settles O4: an accepted word is the word of its command. -/
theorem decoderReadsOperandFields : Obligations.DecoderReadsOperandFields := by
  intro w i h
  obtain ⟨-, rfl⟩ := encode_of_decode h
  exact operands_encode i

/-- Settles O5: the interaction leaves the port, and a word that does not decode raises. -/
theorem illegalWordsRaiseIllegalCommand : Obligations.IllegalWordsRaiseIllegalCommand := by
  refine ⟨fun _ => illegal_iff_decode_error, fun s w rest hp hill => ?_⟩
  obtain ⟨e, he⟩ := illegal_iff_decode_error.mp hill
  rw [step_of_port_cons hp]
  simp only [hostEvent, issueWord, he]
  rfl

/-- Settles O6: each example word is the word of its command. -/
theorem exampleWordsDecode : Obligations.ExampleWordsDecode :=
  ⟨decode_eq_ok_iff.mpr ⟨rfl, by decide⟩, decode_eq_ok_iff.mpr ⟨rfl, by decide⟩,
    decode_eq_ok_iff.mpr ⟨rfl, by decide⟩, decode_eq_ok_iff.mpr ⟨rfl, by decide⟩,
    decode_eq_ok_iff.mpr ⟨rfl, by decide⟩, decode_eq_ok_iff.mpr ⟨rfl, by decide⟩⟩

end Sys2Proof.Proofs
end

section
/-! The default de-interleave (30_encoding.md R118). For `nCh = 2 * k` a half of the block holds
`2 * k * len` words, in rows of `k` pairs of words, one row a sample index: the word of (ch, g, i)
is word `g` of pair `ch / 2` of row `i` in half `ch % 2`. -/

namespace Sys2Proof.Machine

section
variable {k len ch g i : Nat}

theorem deintStandard_eq : deintStandard (2 * k) ch g i len =
    (ch % 2) * (2 * k * len) + ((i * k + ch / 2) * 2 + g) := by
  rw [deintStandard, Nat.mul_div_cancel_left k Nat.two_pos, Nat.add_assoc]

/-- The word stays in its half. -/
theorem wordInHalf_lt {q : Nat} (hq : q < k) (hg : g < 2) (hi : i < len) :
    (i * k + q) * 2 + g < 2 * k * len := by
  have hrow : (i + 1) * k ≤ len * k := Nat.mul_le_mul_right k hi
  calc (i * k + q) * 2 + g < 2 * ((i + 1) * k) := by rw [Nat.add_mul i 1 k]; omega
    _ ≤ 2 * (len * k) := Nat.mul_le_mul_left 2 hrow
    _ = 2 * k * len := by ring

/-- A number is one row and one place in the row: its quotient and remainder by the row's length. -/
theorem row_place_unique {n r x r' x' : Nat} (hx : x < n) (hx' : x' < n)
    (h : r * n + x = r' * n + x') : r = r' ∧ x = x' := by
  have hn : 0 < n := by omega
  obtain ⟨hdiv, hmod⟩ := (Nat.div_mod_unique hn).mpr ⟨(by ring : x + n * r = r * n + x), hx⟩
  obtain ⟨hdiv', hmod'⟩ := (Nat.div_mod_unique hn).mpr ⟨(by ring : x' + n * r' = r' * n + x'), hx'⟩
  rw [h] at hdiv hmod
  exact ⟨hdiv.symm.trans hdiv', hmod.symm.trans hmod'⟩

/-- The half, the row, the pair and the word in the pair give the channel, the sample index and the
gain back. -/
theorem deintStandard_injective {ch' g' i' : Nat} (hc : ch < 2 * k) (hg : g < 2) (hi : i < len)
    (hc' : ch' < 2 * k) (hg' : g' < 2) (hi' : i' < len)
    (h : deintStandard (2 * k) ch g i len = deintStandard (2 * k) ch' g' i' len) :
    ch = ch' ∧ g = g' ∧ i = i' := by
  have hq : ch / 2 < k := by omega
  have hq' : ch' / 2 < k := by omega
  rw [deintStandard_eq, deintStandard_eq] at h
  obtain ⟨hhalf, hword⟩ := row_place_unique (wordInHalf_lt hq hg hi) (wordInHalf_lt hq' hg' hi') h
  obtain ⟨hpairs, hgain⟩ := row_place_unique hg hg' hword
  obtain ⟨hrow, hpair⟩ := row_place_unique hq hq' hpairs
  exact ⟨by omega, hgain, hrow⟩

/-- The channel of a pair that stands in a half. -/
theorem channel_of_pair {q side : Nat} (hq : q < k) (hside : side < 2) :
    2 * q + side < 2 * k ∧ (2 * q + side) % 2 = side ∧ (2 * q + side) / 2 = q := by
  omega

/-- Every word of the block is the word of some (ch, g, i), read off its half, row and pair. -/
theorem deintStandard_surjective {w : Nat} (hw : w < 2 * (2 * k * len)) :
    ∃ ch g i, ch < 2 * k ∧ g < 2 ∧ i < len ∧ deintStandard (2 * k) ch g i len = w := by
  obtain ⟨half, hhalf⟩ : ∃ half, half = 2 * k * len := ⟨_, rfl⟩
  rw [← hhalf] at hw
  have hpos : 0 < half := by omega
  have hk : 0 < k := Nat.pos_of_ne_zero fun h0 => by simp [hhalf, h0] at hpos
  have hside : w / half < 2 := Nat.div_lt_of_lt_mul (by rwa [Nat.mul_comm])
  have hword : w % half < half := Nat.mod_lt w hpos
  have hpairs : w % half / 2 < k * len := by
    rw [Nat.mul_assoc] at hhalf
    omega
  have hpair := Nat.mod_lt (w % half / 2) hk
  obtain ⟨hch, hchHalf, hchPair⟩ := channel_of_pair hpair hside
  refine ⟨2 * (w % half / 2 % k) + w / half, w % half % 2, w % half / 2 / k, hch,
    Nat.mod_lt _ Nat.two_pos, Nat.div_lt_of_lt_mul hpairs, ?_⟩
  rw [deintStandard_eq, ← hhalf, hchHalf, hchPair, Nat.div_add_mod', Nat.div_add_mod',
    Nat.div_add_mod']

/-- An even channel stands in the first half, an odd one in the second. -/
theorem deintStandard_half (hc : ch < 2 * k) (hg : g < 2) (hi : i < len) :
    deintStandard (2 * k) ch g i len < 2 * k * len ↔ ch % 2 = 0 := by
  have hword := wordInHalf_lt (show ch / 2 < k by omega) hg hi
  rw [deintStandard_eq]
  obtain h | h := Nat.mod_two_eq_zero_or_one ch <;> simp [h, hword]

/-- The gain of a word is its parity. -/
theorem deintStandard_mod_two (hg : g < 2) : deintStandard (2 * k) ch g i len % 2 = g := by
  have heven : (ch % 2) * (2 * k * len) = 2 * ((ch % 2) * (k * len)) := by ring
  rw [deintStandard_eq, heven]
  omega

end

end Sys2Proof.Machine

namespace Sys2Proof.Proofs

open Sys2Proof.Machine

/-- Settles O27, clause by clause: the gains alternate because the gain of a word is its parity. -/
theorem defaultDeinterleaveIsLawful : Obligations.DefaultDeinterleaveIsLawful := by
  intro nCh len _ heven _
  obtain ⟨k, rfl⟩ : ∃ k, nCh = 2 * k := ⟨nCh / 2, by omega⟩
  refine ⟨fun ch g i hc hg hi => deintStandard_lt heven hc hg hi, fun w hw => ?_,
    fun ch g i ch' g' i' hc hg hi hc' hg' hi' => deintStandard_injective hc hg hi hc' hg' hi',
    fun j g i g' i' hj hg hi hg' hi' => ?_, fun ch g i ch' g' i' _ hg _ _ hg' _ hnext _ => ?_⟩
  · exact deintStandard_surjective (by rwa [← Nat.mul_assoc])
  · have hodd := deintStandard_half hj hg' hi'
    have heven := deintStandard_half (show 2 * j < 2 * k by omega) hg hi
    rw [heven, ← not_lt, hodd]
    omega
  · have h := deintStandard_mod_two (k := k) (len := len) (ch := ch) (i := i) hg
    have h' := deintStandard_mod_two (k := k) (len := len) (ch := ch') (i := i') hg'
    omega

end Sys2Proof.Proofs
end

section
/-! The assembler (30_encoding.md R140, R141; log 21): how numbers are read, and how a line made of
a mnemonic and operands falls into its parts. A word of a line is a text without blanks, commas and
semicolons; what denotes a number is a word. -/

namespace Sys2Proof.Machine

open Sys2Proof.Claims

/-! ### Numbers -/

theorem digitValue_digitChar {base d : Nat} (hd : d < base) (hb : base ≤ 16) :
    digitValue base (Nat.digitChar d) = some d := by
  have hd16 : d < 16 := hd.trans_le hb
  interval_cases d <;> simp [digitValue, Nat.digitChar, hd]

theorem digitsValue_append (base : Nat) (xs ys : List Char) (acc : Nat) :
    digitsValue base (xs ++ ys) acc = (digitsValue base xs acc).bind (digitsValue base ys) := by
  induction xs generalizing acc with
  | nil => rfl
  | cons c xs ih =>
    simp only [List.cons_append, digitsValue]
    cases digitValue base c with
    | none => rfl
    | some v => exact ih _

/-- A number is the value of its digits. -/
theorem digitsValue_toDigits {base : Nat} (h1 : 1 < base) (hb : base ≤ 16) (n : Nat) :
    digitsValue base (Nat.toDigits base n) 0 = some n := by
  induction n using Nat.strong_induction_on with
  | _ n ih =>
    obtain hlt | hle := lt_or_ge n base
    · simp [Nat.toDigits_of_lt_base hlt, digitsValue, digitValue_digitChar hlt hb]
    · have hmod := Nat.mod_lt n (show 0 < base by omega)
      rw [Nat.toDigits_of_base_le h1 hle, digitsValue_append,
        ih (n / base) (Nat.div_lt_self (by omega) h1)]
      simp [digitsValue, digitValue_digitChar hmod hb, Nat.div_add_mod']

theorem asmNumber_of_decimal {text : List Char} {n : Nat} (hne : text ≠ [])
    (h : digitsValue 10 text 0 = some n) : asmNumber text = .ok n := by
  unfold asmNumber
  split
  · simp [digitsValue, digitValue] at h
  · exact absurd rfl hne
  · rw [h]

theorem asmNumber_of_hexadecimal {text : List Char} {n : Nat} (hne : text ≠ [])
    (h : digitsValue 16 text 0 = some n) : asmNumber ('0' :: 'x' :: text) = .ok n := by
  obtain ⟨c, cs, rfl⟩ := List.exists_cons_of_ne_nil hne
  simp only [asmNumber, h]

/-- A number is read from its decimal digits. -/
theorem asmNumber_toDigits_ten (n : Nat) : asmNumber (Nat.toDigits 10 n) = .ok n :=
  asmNumber_of_decimal Nat.toDigits_ne_nil (digitsValue_toDigits (by decide) (by decide) n)

/-- A number is read from its hexadecimal digits after `0x`. -/
theorem asmNumber_toDigits_sixteen (n : Nat) :
    asmNumber ('0' :: 'x' :: Nat.toDigits 16 n) = .ok n :=
  asmNumber_of_hexadecimal Nat.toDigits_ne_nil (digitsValue_toDigits (by decide) (by decide) n)

/-! ### Words of a line -/

/-- No blank, no comma and no semicolon. -/
def wordChar (c : Char) : Bool := !isBlank c && c != ',' && c != ';'

/-- A text that stands in a line as one part. -/
def IsAsmWord (text : List Char) : Prop := text ≠ [] ∧ ∀ c ∈ text, wordChar c = true

theorem wordChar_iff {c : Char} : wordChar c = true ↔ isBlank c = false ∧ c ≠ ',' ∧ c ≠ ';' := by
  simp [wordChar, and_assoc]

theorem isAsmWord_of_check {text : List Char}
    (h : (!text.isEmpty && text.all wordChar) = true) : IsAsmWord text := by
  simpa [IsAsmWord] using h

theorem wordChar_of_digitValue {base v : Nat} {c : Char} (h : digitValue base c = some v) :
    wordChar c = true := by
  by_contra hc
  have hsep : c = ' ' ∨ c = '\t' ∨ c = ',' ∨ c = ';' := by
    simp only [wordChar_iff, isBlank, Bool.or_eq_false_iff, beq_eq_false_iff_ne] at hc
    tauto
  obtain rfl | rfl | rfl | rfl := hsep <;> simp [digitValue] at h

theorem wordChar_of_digitsValue {base n : Nat} {text : List Char} :
    ∀ {acc : Nat}, digitsValue base text acc = some n → ∀ c ∈ text, wordChar c = true := by
  induction text with
  | nil => exact fun _ => nofun
  | cons d text ih =>
    intro acc h
    simp only [digitsValue] at h
    split at h
    · next v hv =>
      exact List.forall_mem_cons.mpr ⟨wordChar_of_digitValue hv, ih h⟩
    · cases h

/-- What denotes a number is a word. -/
theorem isAsmWord_of_asmNumber {text : List Char} {n : Nat} (h : asmNumber text = .ok n) :
    IsAsmWord text := by
  unfold asmNumber at h
  split at h
  · split at h
    · next hdigits =>
      refine ⟨nofun, List.forall_mem_cons.mpr ⟨rfl, List.forall_mem_cons.mpr ⟨rfl, ?_⟩⟩⟩
      exact wordChar_of_digitsValue hdigits
    · cases h
  · cases h
  · next _ hne =>
    split at h
    · next hdigits => exact ⟨hne, wordChar_of_digitsValue hdigits⟩
    · cases h

section
variable {x : List Char} (hx : IsAsmWord x)
include hx

theorem IsAsmWord.not_isBlank {c : Char} (hc : c ∈ x) : isBlank c = false :=
  (wordChar_iff.mp (hx.2 c hc)).1

theorem IsAsmWord.ne_comma {c : Char} (hc : c ∈ x) : c ≠ ',' := (wordChar_iff.mp (hx.2 c hc)).2.1

theorem IsAsmWord.ne_semicolon {c : Char} (hc : c ∈ x) : c ≠ ';' :=
  (wordChar_iff.mp (hx.2 c hc)).2.2

theorem IsAsmWord.reverse : IsAsmWord x.reverse :=
  ⟨by simpa using hx.1, fun c hc => hx.2 c (List.mem_reverse.mp hc)⟩

theorem IsAsmWord.dropWhile_isBlank (rest : List Char) :
    (x ++ rest).dropWhile isBlank = x ++ rest := by
  obtain ⟨c, cs, rfl⟩ := List.exists_cons_of_ne_nil hx.1
  exact List.dropWhile_cons_of_neg (by simp [hx.not_isBlank List.mem_cons_self])

end

/-- A text that begins and ends with a word has no blanks around it. -/
theorem trimBlanks_eq_self {text x rest front y : List Char} (hx : IsAsmWord x) (hy : IsAsmWord y)
    (hbegin : text = x ++ rest) (hend : text = front ++ y) : trimBlanks text = text := by
  have hfirst : text.dropWhile isBlank = text := hbegin ▸ hx.dropWhile_isBlank rest
  have hlast : text.reverse.dropWhile isBlank = text.reverse := by
    rw [hend, List.reverse_append]
    exact hy.reverse.dropWhile_isBlank _
  rw [trimBlanks, hfirst, hlast, List.reverse_reverse]

theorem trimBlanks_word {x : List Char} (hx : IsAsmWord x) : trimBlanks x = x :=
  trimBlanks_eq_self hx hx (List.append_nil x).symm (List.nil_append x).symm

@[simp] theorem trimBlanks_cons_blank (text : List Char) :
    trimBlanks (' ' :: text) = trimBlanks text := rfl

/-! ### Commas -/

theorem splitCommas_ne_nil (text : List Char) : splitCommas text ≠ [] := by
  cases text with
  | nil => exact nofun
  | cons c cs =>
    rw [splitCommas]
    split
    · exact nofun
    · split <;> exact nofun

theorem splitCommas_cons_comma (text : List Char) :
    splitCommas (',' :: text) = [] :: splitCommas text := by
  obtain ⟨w, ws, h⟩ := List.exists_cons_of_ne_nil (splitCommas_ne_nil text)
  simp [splitCommas, h]

theorem splitCommas_cons {c : Char} (hc : c ≠ ',') {text w : List Char} {ws : List (List Char)}
    (h : splitCommas text = w :: ws) : splitCommas (c :: text) = (c :: w) :: ws := by
  simp [splitCommas, h, hc]

theorem splitCommas_append {x text w : List Char} {ws : List (List Char)} (hx : IsAsmWord x)
    (h : splitCommas text = w :: ws) : splitCommas (x ++ text) = (x ++ w) :: ws := by
  have hcomma : ∀ c ∈ x, c ≠ ',' := fun c hc => hx.ne_comma hc
  clear hx
  induction x with
  | nil => exact h
  | cons c x ih =>
    obtain ⟨hc, hx⟩ := List.forall_mem_cons.mp hcomma
    exact splitCommas_cons hc (ih hx)

/-- A blank after a comma is dropped. -/
theorem splitCommas_cons_blank (text : List Char) :
    (splitCommas (' ' :: text)).map trimBlanks = (splitCommas text).map trimBlanks := by
  obtain ⟨w, ws, h⟩ := List.exists_cons_of_ne_nil (splitCommas_ne_nil text)
  rw [splitCommas_cons (by decide) h, h, List.map_cons, List.map_cons, trimBlanks_cons_blank]

/-! ### The parts of a line -/

/-- Operands as a line has them, parted by a comma and a blank. -/
def operandText : List (List Char) → List Char
  | [] => []
  | [x] => x
  | x :: y :: xs => x ++ ',' :: ' ' :: operandText (y :: xs)

theorem operandText_begins (x : List Char) (xs : List (List Char)) :
    ∃ rest, operandText (x :: xs) = x ++ rest := by
  cases xs with
  | nil => exact ⟨[], (List.append_nil x).symm⟩
  | cons y xs => exact ⟨_, rfl⟩

section
variable {xs : List (List Char)} (hxs : ∀ x ∈ xs, IsAsmWord x)
include hxs

theorem operandText_ends (hne : xs ≠ []) :
    ∃ front y, IsAsmWord y ∧ operandText xs = front ++ y := by
  induction xs using operandText.induct with
  | case1 => exact absurd rfl hne
  | case2 x => exact ⟨[], x, hxs x List.mem_cons_self, rfl⟩
  | case3 x y xs ih =>
    obtain ⟨front, z, hz, h⟩ := ih (List.forall_mem_cons.mp hxs).2 nofun
    exact ⟨x ++ ',' :: ' ' :: front, z, hz, by rw [operandText, h]; simp⟩

theorem operandText_ne_semicolon : ∀ c ∈ operandText xs, c ≠ ';' := by
  induction xs using operandText.induct with
  | case1 => exact nofun
  | case2 x => exact fun c hc => (hxs x List.mem_cons_self).ne_semicolon hc
  | case3 x y xs ih =>
    obtain ⟨hx, hrest⟩ := List.forall_mem_cons.mp hxs
    simp only [operandText, List.forall_mem_append, List.forall_mem_cons]
    exact ⟨fun c hc => hx.ne_semicolon hc, by decide, by decide, ih hrest⟩

/-- The operands of a text are the words it was made of. -/
theorem splitCommas_operandText (hne : xs ≠ []) :
    (splitCommas (operandText xs)).map trimBlanks = xs := by
  induction xs using operandText.induct with
  | case1 => exact absurd rfl hne
  | case2 x =>
    have hx := hxs x List.mem_cons_self
    have hsplit := splitCommas_append (text := []) hx rfl
    rw [List.append_nil] at hsplit
    rw [operandText, hsplit, List.map_singleton, trimBlanks_word hx]
  | case3 x y xs ih =>
    obtain ⟨hx, hrest⟩ := List.forall_mem_cons.mp hxs
    rw [operandText, splitCommas_append hx (splitCommas_cons_comma _), List.append_nil,
      List.map_cons, splitCommas_cons_blank, ih hrest nofun, trimBlanks_word hx]

end

/-- A comment ends a line. -/
theorem asmCode_comment (line comment : List Char) : asmCode (line ++ ';' :: comment) =
    asmCode line := by
  induction line with
  | nil => rfl
  | cons c line ih =>
    by_cases hc : c = ';'
    · subst hc; rfl
    · simp only [asmCode, List.cons_append, List.takeWhile_cons] at ih ⊢
      rw [ih]

section
variable {mnemonic : String} (hm : IsAsmWord mnemonic.toList) {xs : List (List Char)}
  (hxs : ∀ x ∈ xs, IsAsmWord x) (hne : xs ≠ [])
include hm hxs hne

/-- A line of a mnemonic and operands falls into them. -/
theorem asm_parts :
    asmMnemonic (asmCode ((mnemonic ++ " ").toList ++ operandText xs)) = mnemonic ∧
      asmOperands (asmCode ((mnemonic ++ " ").toList ++ operandText xs)) = xs := by
  have hline : (mnemonic ++ " ").toList ++ operandText xs =
      mnemonic.toList ++ ' ' :: operandText xs := by simp
  have hcode : asmCode (mnemonic.toList ++ ' ' :: operandText xs) =
      mnemonic.toList ++ ' ' :: operandText xs := by
    simp only [asmCode, List.takeWhile_eq_self_iff, decide_eq_true_eq, List.forall_mem_append,
      List.forall_mem_cons]
    exact ⟨fun c hc => hm.ne_semicolon hc, by decide, operandText_ne_semicolon hxs⟩
  obtain ⟨x, xs', rfl⟩ := List.exists_cons_of_ne_nil hne
  obtain ⟨rest, hbegin⟩ := operandText_begins x xs'
  obtain ⟨front, y, hy, hend⟩ := operandText_ends hxs hne
  have htrim : trimBlanks (mnemonic.toList ++ ' ' :: operandText (x :: xs')) =
      mnemonic.toList ++ ' ' :: operandText (x :: xs') :=
    trimBlanks_eq_self hm hy rfl (front := mnemonic.toList ++ ' ' :: front) (by simp [hend])
  have hword : ∀ c ∈ mnemonic.toList, (!isBlank c) = true := fun c hc => by
    rw [hm.not_isBlank hc]; rfl
  rw [hline, hcode]
  refine ⟨?_, ?_⟩
  · rw [asmMnemonic, htrim, List.takeWhile_append_of_pos hword,
      List.takeWhile_cons_of_neg (by decide), List.append_nil, String.ofList_toList]
  · rw [asmOperands, htrim, List.dropWhile_append_of_pos hword,
      List.dropWhile_cons_of_neg (by decide), trimBlanks_cons_blank,
      trimBlanks_eq_self (hxs x List.mem_cons_self) hy hbegin hend]
    split
    · next hnil =>
      rw [hbegin] at hnil
      exact absurd (List.append_eq_nil_iff.mp hnil).1 (hxs x List.mem_cons_self).1
    · exact splitCommas_operandText hxs hne

end

/-! ### Lines -/

section
variable {x y z : List Char} {n m k : Nat} (hx : asmNumber x = .ok n) (hy : asmNumber y = .ok m)

include hx in
theorem asmOperand_of_number (width : Nat) : asmOperand width x =
    if n < 2 ^ width then .ok (BitVec.ofNat width n) else .error .operandTooWide := by
  rw [asmOperand, hx]

include hx hy in
theorem asmTwo_of_numbers (make : Field → Field → Instr) : asmTwo make x y =
    if n < 2 ^ 16 ∧ m < 2 ^ 16 then
      .ok (asmIssue (make (BitVec.ofNat 16 n) (BitVec.ofNat 16 m)))
    else .error .operandTooWide := by
  rw [asmTwo, asmOperand_of_number hx, asmOperand_of_number hy]
  by_cases hn : n < 2 ^ 16 <;> by_cases hm : m < 2 ^ 16 <;>
    simp only [hn, hm, and_self, and_false, false_and, if_true, if_false]

end

section
variable {mnemonic : String} (hm : IsAsmWord mnemonic.toList)
include hm

theorem oneOperandLine {width : Nat} {make : BitVec width → Instr}
    (hdispatch : ∀ n x, asmNumber x = .ok n →
      asmOne mnemonic x = (asmOperand width x).map fun v => asmIssue (make v)) :
    OneOperandLine mnemonic width make := by
  intro n x hx
  obtain ⟨hmnemonic, hoperands⟩ := asm_parts hm (xs := [x])
    (by simpa using isAsmWord_of_asmNumber hx) nofun
  have hline : assembleLine ((mnemonic ++ " ").toList ++ x) = asmOne mnemonic x := by
    rw [operandText] at hmnemonic hoperands
    rw [assembleLine, hmnemonic, hoperands]
  rw [AssemblesTo, TooWide, hline, hdispatch n x hx, asmOperand_of_number hx]
  refine ⟨fun hfit => ?_, fun hwide => ?_⟩
  · rw [if_pos hfit]; rfl
  · rw [if_neg hwide.not_gt]; rfl

theorem twoOperandLine {make : Field → Field → Instr}
    (hdispatch : ∀ line x y, asmMnemonic (asmCode line) = mnemonic →
      asmOperands (asmCode line) = [x, y] → assembleLine line = asmTwo make x y) :
    TwoOperandLine mnemonic make := by
  intro n m x y hx hy
  obtain ⟨hmnemonic, hoperands⟩ := asm_parts hm (xs := [x, y])
    (by simpa using ⟨isAsmWord_of_asmNumber hx, isAsmWord_of_asmNumber hy⟩) nofun
  have htext : (mnemonic ++ " ").toList ++ operandText [x, y] =
      (mnemonic ++ " ").toList ++ x ++ ", ".toList ++ y := by simp [operandText]
  rw [htext] at hmnemonic hoperands
  rw [AssemblesTo, TooWide, hdispatch _ x y hmnemonic hoperands, asmTwo_of_numbers hx hy]
  refine ⟨fun hn hm => ?_, fun hwide => ?_⟩
  · rw [if_pos ⟨hn, hm⟩]; rfl
  · rw [if_neg (by omega)]

theorem threeOperandLine {make : Field → Field → Field → Instr}
    (hdispatch : ∀ line x y z, asmMnemonic (asmCode line) = mnemonic →
      asmOperands (asmCode line) = [x, y, z] → assembleLine line =
        (asmOperand 16 z).bind fun c => asmTwo (fun a b => make a b c) x y) :
    ThreeOperandLine mnemonic make := by
  intro n m k x y z hx hy hz
  obtain ⟨hmnemonic, hoperands⟩ := asm_parts hm (xs := [x, y, z])
    (by simpa using ⟨isAsmWord_of_asmNumber hx, isAsmWord_of_asmNumber hy,
      isAsmWord_of_asmNumber hz⟩) nofun
  have htext : (mnemonic ++ " ").toList ++ operandText [x, y, z] =
      (mnemonic ++ " ").toList ++ x ++ ", ".toList ++ y ++ ", ".toList ++ z := by
    simp [operandText]
  rw [htext] at hmnemonic hoperands
  rw [AssemblesTo, TooWide, hdispatch _ x y z hmnemonic hoperands, asmOperand_of_number hz]
  refine ⟨fun hn hm hk => ?_, fun hwide => ?_⟩
  · rw [if_pos hk, Except.bind, asmTwo_of_numbers hx hy, if_pos ⟨hn, hm⟩]; rfl
  · by_cases hk : k < 2 ^ 16
    · rw [if_pos hk, Except.bind, asmTwo_of_numbers hx hy, if_neg (by omega)]
    · rw [if_neg hk]; rfl

end

theorem asmOne_seek (x : List Char) :
    asmOne "seek" x = (asmOperand 48 x).map fun p => asmIssue (.seek p) := by
  rw [asmOne]
  cases asmOperand 48 x <;> rfl

/-- `none` and `all` are no numbers, so a number is the mask of CALCFG. -/
theorem asmOne_calcfg {x : List Char} {n : Nat} (hx : asmNumber x = .ok n) :
    asmOne "calcfg" x = (asmOperand 16 x).map fun mask => asmIssue (.calcfg mask) := by
  simp only [asmOne]
  split
  · cases hx
  · cases hx
  · cases asmOperand 16 x <;> rfl

end Sys2Proof.Machine

namespace Sys2Proof.Proofs

open Sys2Proof.Machine Sys2Proof.Claims

/-- Settles O60: each line is assembled by computation. -/
theorem pseudoInstructionsExpand : Obligations.PseudoInstructionsExpand :=
  ⟨rfl, rfl, rfl, rfl⟩

theorem fixedLines_assemble : ∀ p ∈ fixedLines, AssemblesTo p.1.toList p.2 := by
  simp only [fixedLines, List.forall_mem_cons]
  exact ⟨rfl, rfl, rfl, rfl, rfl, rfl, rfl, rfl, rfl, rfl, nofun⟩

/-- Settles O59: a line falls into its mnemonic and its operands, and each operand is held against
the width of its field. -/
theorem assemblerRefusesWideOperands : Obligations.AssemblerRefusesWideOperands := by
  refine ⟨fixedLines_assemble,
    oneOperandLine (isAsmWord_of_check rfl) fun _ x _ => asmOne_seek x,
    oneOperandLine (isAsmWord_of_check rfl) fun _ _ hx => asmOne_calcfg hx,
    twoOperandLine (isAsmWord_of_check rfl) fun line x y hm hops => ?_,
    twoOperandLine (isAsmWord_of_check rfl) fun line x y hm hops => ?_,
    threeOperandLine (isAsmWord_of_check rfl) fun line x y z hm hops => ?_,
    fun n => ⟨asmNumber_toDigits_ten n, asmNumber_toDigits_sixteen n⟩,
    fun line comment => ?_⟩
  · simp only [assembleLine, hm, hops]
  · simp only [assembleLine, hm, hops]
  · simp only [assembleLine, hm, hops]
    cases asmOperand 16 z <;> rfl
  · rw [assembleLine, asmCode_comment, assembleLine]

end Sys2Proof.Proofs
end

section
/-! The frame in the stream (40_framer.md R152, R156, R157). What a read of a run of stream bytes
gives is said once byte by byte: the marker search then finds the places of `Occurs`, a header field is
the `fieldAt` of its address, and a frame that stands in the stream passes every check of
`parse_frame`. -/

namespace Sys2Proof.Machine

open Sys2Proof.Claims

/-! ### A run of stream bytes -/

section
variable {m : Memory} {a n : Nat} {bytes : List Byte} (h : memRead m a n = some bytes)
include h

theorem memRead_length : bytes.length = n := by
  unfold memRead at h
  split at h
  · cases h
    simp
    omega
  · cases h

/-- A part of a run is a run. -/
theorem memRead_slice {off k : Nat} (hin : off + k ≤ n) :
    memRead m (a + off) k = some (slice bytes off k) := by
  unfold memRead at h
  split at h
  · next hle =>
    cases h
    rw [memRead, if_pos (by omega), slice, ← List.map_drop, ← List.map_take, List.drop_take,
      List.take_take, List.drop_drop, Nat.min_eq_left (by omega)]
  · cases h

theorem memRead_getElem? (hwf : m.wf = true) {j : Nat} (hj : j < n) :
    bytes[j]? = readByte m (a + j) := by
  obtain ⟨-, -, hbytes⟩ := (memRead_eq_some hwf).mp h
  exact hbytes j hj

/-- A run whose bytes are those of a text is the text. -/
theorem memRead_eq_of_bytes (hwf : m.wf = true) {text : List Byte} (hlen : text.length = n)
    (hbytes : ∀ j < n, readByte m (a + j) = text[j]?) : bytes = text := by
  obtain ⟨hle, -, -⟩ := (memRead_eq_some hwf).mp h
  have htext := (memRead_eq_some hwf).mpr ⟨hle, hlen, fun j hj => (hbytes j hj).symm⟩
  exact Option.some.inj (h.symm.trans htext)

/-- A text stands at a place of a run exactly when the stream bytes from there on are its bytes. -/
theorem isPrefix_drop_iff (hwf : m.wf = true) {text : List Byte} (hpos : 0 < text.length) {p : Nat} :
    text <+: bytes.drop p ↔
      p + text.length ≤ n ∧ ∀ j < text.length, readByte m (a + p + j) = text[j]? := by
  have hread : ∀ j, p + j < n → (bytes.drop p)[j]? = readByte m (a + p + j) := fun j hj => by
    rw [List.getElem?_drop, memRead_getElem? h hwf hj, Nat.add_assoc]
  rw [List.prefix_iff_getElem?]
  constructor
  · intro hpre
    have hlast : p + (text.length - 1) < bytes.length := by
      have hsome := hpre (text.length - 1) (by omega)
      rw [List.getElem?_drop] at hsome
      exact (List.getElem?_eq_some_iff.mp hsome).1
    rw [memRead_length h] at hlast
    refine ⟨by omega, fun j hj => ?_⟩
    rw [← hread j (by omega), hpre j hj, List.getElem?_eq_getElem hj]
  · rintro ⟨hfit, hbytes⟩ j hj
    rw [hread j (by omega), hbytes j hj, List.getElem?_eq_getElem hj]

end

/-! ### Header fields -/

theorem magicB_length {c : Config} (h : configOk c = true) : c.magicB.length = 2 := by
  simp only [configOk, Bool.and_eq_true, decide_eq_true_eq] at h
  tauto

theorem beNat_append (bytes : List Byte) (b : Byte) :
    beNat (bytes ++ [b]) = beNat bytes * 256 + b.toNat := by
  simp [beNat, Nat.mul_comm]

theorem beNat_cons (b : Byte) (bytes : List Byte) :
    beNat (b :: bytes) = b.toNat * 256 ^ bytes.length + beNat bytes := by
  induction bytes using List.reverseRecOn with
  | nil => simp [beNat]
  | append_singleton bytes c ih =>
    rw [← List.cons_append, beNat_append, ih, beNat_append, List.length_append,
      List.length_singleton]
    ring

theorem leNat_append (bytes : List Byte) (b : Byte) :
    leNat (bytes ++ [b]) = leNat bytes + b.toNat * 256 ^ bytes.length := by
  rw [leNat, List.reverse_append, List.reverse_singleton, List.singleton_append, beNat_cons,
    List.length_reverse, Nat.add_comm, leNat]

section
variable {m : Memory} (hwf : m.wf = true)
include hwf

/-- A run of `n + 1` bytes is one of `n` bytes and a byte. -/
theorem memRead_succ {a n : Nat} {bytes : List Byte} (h : memRead m a (n + 1) = some bytes) :
    ∃ front b, bytes = front ++ [b] ∧ memRead m a n = some front ∧ byteAt m (a + n) = b.toNat := by
  have hlen := memRead_length h
  obtain ⟨front, b, rfl⟩ : ∃ front b, bytes = front ++ [b] :=
    ⟨bytes.dropLast, bytes.getLast (List.ne_nil_of_length_eq_add_one hlen),
      (List.dropLast_append_getLast _).symm⟩
  have hfront : front.length = n := by simpa using hlen
  have hlast := memRead_getElem? h hwf (Nat.lt_succ_self n)
  have hpart := memRead_slice h (off := 0) (show 0 + n ≤ n + 1 by omega)
  refine ⟨front, b, rfl, by simpa [slice, ← hfront] using hpart, ?_⟩
  rw [List.getElem?_append_right (by omega), hfront, Nat.sub_self] at hlast
  rw [byteAt, ← hlast]
  rfl

theorem beNat_eq_bigAt {a n : Nat} : ∀ {bytes : List Byte}, memRead m a n = some bytes →
    beNat bytes = bigAt m a n := by
  induction n with
  | zero =>
    intro bytes h
    rw [List.length_eq_zero_iff.mp (memRead_length h)]
    rfl
  | succ n ih =>
    intro bytes h
    obtain ⟨front, b, rfl, hfront, hb⟩ := memRead_succ hwf h
    rw [beNat_append, ih hfront, bigAt, hb]

theorem leNat_eq_littleAt {a n : Nat} : ∀ {bytes : List Byte}, memRead m a n = some bytes →
    leNat bytes = littleAt m a n := by
  induction n with
  | zero =>
    intro bytes h
    rw [List.length_eq_zero_iff.mp (memRead_length h)]
    rfl
  | succ n ih =>
    intro bytes h
    obtain ⟨front, b, rfl, hfront, hb⟩ := memRead_succ hwf h
    rw [leNat_append, ih hfront, littleAt, hb, memRead_length hfront]

/-- A header field is the field at its address (00_scope.md R11). -/
theorem hfield_slice (c : Config) {a n : Nat} {h : List Byte} (hh : memRead m a n = some h)
    {off k : Nat} (hin : off + k ≤ n) :
    hfield c (slice h off k) = counterAt c m (a + off) k := by
  have hpart := memRead_slice hh hin
  unfold hfield counterAt fieldAt
  cases c.hdrByteOrder with
  | big => rw [beNat_eq_bigAt hwf hpart]
  | little => rw [leNat_eq_littleAt hwf hpart]

end

section
variable {c : Config} {m : Memory} (hwf : m.wf = true) {lay : Layout} {pos : Nat} {h : List Byte}
  (hh : memRead m pos (hdrLen c lay) = some h)
include hwf hh

/-- The header of the frame (30_encoding.md R102, R106). -/
theorem headerOf_eq_headerAt (hmagic : lay = .b → slice h 0 2 = c.magicB) :
    headerOf c lay h = headerAt c m lay pos := by
  cases lay with
  | a =>
    have hlen : hdrLen c .a = c.wEvA + c.wTrA + 8 + c.nSc * c.scW + 16 := rfl
    simp only [headerOf, headerA, headerAt]
    rw [hfield_slice hwf c hh (by omega), hfield_slice hwf c hh (by omega),
      hfield_slice hwf c hh (by omega)]
    simp only [Nat.add_zero, Nat.add_assoc]
  | b =>
    have hlen : hdrLen c .b =
      2 + c.wPps + c.w10M + c.wEvB + c.wTrB + c.w133 + 8 + c.nSc * c.scW := rfl
    simp only [headerOf, headerB, headerAt, hmagic, o133, oTrB, oEvB, o10M]
    rw [hfield_slice hwf c hh (by omega), hfield_slice hwf c hh (by omega),
      hfield_slice hwf c hh (by omega), hfield_slice hwf c hh (by omega),
      hfield_slice hwf c hh (by omega)]
    simp only [Nat.add_assoc]

/-- The stop-cell block of the frame, whose entries are below 4096 (30_encoding.md R111). -/
theorem stopCells_eq
    (hlt : ∀ k < c.nSc, fieldAt c m (stopAddress c lay pos k) c.scW < 4096) :
    stopCells c lay h =
      (List.range c.nSc).map fun k => fieldAt c m (stopAddress c lay pos k) c.scW := by
  refine List.map_congr_left fun k hk => ?_
  have hk := List.mem_range.mp hk
  have haddr : pos + (stopOffset c lay + k * c.scW) = stopAddress c lay pos k := by
    cases lay with
    | a => simp only [stopOffset, stopAddress]; omega
    | b => simp only [stopOffset, moffB, o133, oTrB, oEvB, o10M, stopAddress]; omega
  have hin : stopOffset c lay + k * c.scW + c.scW ≤ hdrLen c lay := by
    have hblock : (k + 1) * c.scW ≤ c.nSc * c.scW := Nat.mul_le_mul_right _ hk
    rw [Nat.add_mul, Nat.one_mul] at hblock
    cases lay with
    | a => simp only [stopOffset, hdrLen, hdrA, moffA]; omega
    | b => simp only [stopOffset, hdrLen, hdrB]; omega
  rw [hfield_slice hwf c hh hin, haddr, counterAt, BitVec.toNat_ofNat]
  exact Nat.mod_eq_of_lt ((hlt k hk).trans (by decide))

omit hh in
/-- The magic of Layout B stands at the start of the header. -/
theorem slice_magic (hcfg : configOk c = true) (hh : memRead m pos (hdrLen c .b) = some h)
    (hmagic : ∀ j < 2, readByte m (pos + j) = c.magicB[j]?) : slice h 0 2 = c.magicB := by
  have hin : 0 + 2 ≤ hdrLen c .b := by
    simp only [hdrLen, hdrB]
    omega
  exact memRead_eq_of_bytes (memRead_slice hh hin) hwf (magicB_length hcfg) hmagic

/-- The fixed bytes stand where the layout has them. -/
theorem fixedBytesOk_of_bytes (hcfg : configOk c = true)
    (hmagic : lay = .b → slice h 0 2 = c.magicB)
    (hmarker : ∀ j < markerLen lay,
      readByte m (markerAddress c lay pos + j) = (marker c lay)[j]?) :
    fixedBytesOk c lay h = true := by
  have haddr : pos + markerOffset c lay = markerAddress c lay pos := by
    cases lay with
    | a => simp only [markerOffset, moffA, markerAddress]; omega
    | b => simp only [markerOffset, moffB, o133, oTrB, oEvB, o10M, markerAddress]; omega
  have hin : markerOffset c lay + markerLen lay ≤ hdrLen c lay := by
    cases lay with
    | a => exact Nat.le_refl _
    | b => exact Nat.le_add_right _ _
  have hpart := memRead_slice hh hin
  rw [haddr] at hpart
  have hslice := memRead_eq_of_bytes hpart hwf (marker_length hcfg lay) hmarker
  cases lay with
  | a => simp [fixedBytesOk, hslice]
  | b => simp [fixedBytesOk, hslice, hmagic rfl]

end

theorem headerTicks_headerAt (c : Config) (m : Memory) (lay : Layout) (pos : Nat) :
    headerTicks (headerAt c m lay pos) = ticksAt c m lay pos := by
  cases lay <;> rfl

theorem secondsOf_eq_timestamp (c : Config) (lay : Layout) (ticks : Word) :
    secondsOf c lay ticks = timestamp c lay ticks := by
  cases lay <;> rfl

/-! ### The marker search -/

section
variable {s : State} (hcfg : configOk s.cfg = true) (hwf : s.stream.wf = true) {lay : Layout}
  {pos : Nat} {chunk : List Byte}
  (hchunk : memRead s.stream pos (chunkLen s lay pos) = some chunk)
include hcfg hwf hchunk

theorem marker_isPrefix_iff_occurs {p : Nat} :
    marker s.cfg lay <+: chunk.drop p ↔ Occurs s lay pos p := by
  have hlen := marker_length hcfg lay
  rw [isPrefix_drop_iff hchunk hwf (hlen ▸ markerLen_pos lay), hlen]

/-- The search from place `k` on finds the first occurrence from there on. -/
theorem findFrom_chunk_eq_some {k p : Nat} (hk : k ≤ p) (hocc : Occurs s lay pos p)
    (hfirst : ∀ q < p, k ≤ q → ¬ Occurs s lay pos q) :
    findFrom (marker s.cfg lay) (chunk.drop k) k = some p := by
  have hdrop : ∀ q, k ≤ q → (chunk.drop k).drop (q - k) = chunk.drop q := fun q hq => by
    rw [List.drop_drop, Nat.add_sub_cancel' hq]
  refine findFrom_eq_some.mpr ⟨hk, ?_, ?_, fun q hq hlt => ?_⟩
  · have hlen := memRead_length hchunk
    have hfit := hocc.1
    rw [List.length_drop]
    omega
  · rw [hdrop p hk]
    exact (marker_isPrefix_iff_occurs hcfg hwf hchunk).mpr hocc
  · rw [hdrop q hq, marker_isPrefix_iff_occurs hcfg hwf hchunk]
    exact hfirst q hlt hq

theorem findFrom_chunk_eq_none {k : Nat} (hnone : ∀ q, k ≤ q → ¬ Occurs s lay pos q) :
    findFrom (marker s.cfg lay) (chunk.drop k) k = none := by
  refine findFrom_eq_none.mpr fun q hq _ => ?_
  rw [List.drop_drop, Nat.add_sub_cancel' hq, marker_isPrefix_iff_occurs hcfg hwf hchunk]
  exact hnone q hq

end

section
variable {s : State} (hcfg : configOk s.cfg = true) (hwf : s.stream.wf = true) {lay : Layout}
  {pos fl len : Nat} (hpos : pos ≤ s.streamLen)
include hcfg hwf hpos

/-- `find_frame_length` measures the length that the markers give (40_framer.md R152). -/
theorem findFrameLength_of_frameLengthIs (h : FrameLengthIs s lay pos fl) :
    findFrameLength s lay pos = .ok fl := by
  obtain ⟨p1, ⟨hocc1, hfirst1⟩, hcase⟩ := h
  obtain ⟨chunk, hchunk, -⟩ := memRead_isSome (m := s.stream) (a := pos)
    (n := chunkLen s lay pos) (by
      have hle : chunkLen s lay pos ≤ s.streamLen - pos := Nat.min_le_right _ _
      change _ ≤ s.streamLen
      omega)
  have h1 : findFrom (marker s.cfg lay) chunk 0 = some p1 :=
    findFrom_chunk_eq_some hcfg hwf hchunk (Nat.zero_le _) hocc1 fun q hq _ => hfirst1 q hq
  have hchunk' : memRead s.stream pos (min (lookahead s.cfg lay) (s.streamLen - pos)) =
    some chunk := hchunk
  obtain ⟨p2, ⟨hk, hocc2, hfirst2⟩, rfl⟩ | ⟨hnone, hpolicy, hvalid, hfit, rfl⟩ := hcase
  · have h2 := findFrom_chunk_eq_some hcfg hwf hchunk hk hocc2 hfirst2
    simp only [findFrameLength, hchunk', markerPair, h1, h2]
  · have h2 := findFrom_chunk_eq_none hcfg hwf hchunk hnone
    simp only [findFrameLength, hchunk', markerPair, h1, h2, reusePrev, if_pos,
      hpolicy, hvalid, hfit, and_self]

end

/-! ### The frame record -/

/-- The capture length of a frame whose length is that of its header and samples
(30_encoding.md R116). -/
theorem captureLength_of_divides {c : Config} {lay : Layout} {fl len : Nat}
    (hcfg : configOk c = true) (hfl : fl = hdrLen c lay + 2 * 2 * c.nCh * len) (hpos : 1 ≤ len)
    (hle : len ≤ c.maxCapture) : captureLength c lay fl = some len := by
  have hstride : 0 < sampleStride c := by
    obtain ⟨hch, -, -⟩ := configOk_deint hcfg
    simp only [sampleStride, nGain]
    omega
  have hsamples : fl - hdrLen c lay = sampleStride c * len := by
    rw [hfl, Nat.add_sub_cancel_left]
    rfl
  refine captureLength_eq_some.mpr ⟨by omega, ?_, ?_, hpos, hle⟩
  · rw [hsamples, Nat.mul_mod_right]
  · rw [hsamples, Nat.mul_div_cancel_left len hstride]

/-- A sample is the big-endian word that DEINT selects (30_encoding.md R117, R118). -/
theorem sampleAt_ok {s : State} (hwf : s.stream.wf = true) {lay : Layout} {pos len ch g i : Nat}
    {x : Sample} (h : sampleAt s lay pos len ch g i = .ok x) :
    ∃ w, deintAt s.cfg ch g i len = some w ∧
      x = BitVec.ofNat 16 (byteAt s.stream (pos + hdrLen s.cfg lay + 2 * w) * 256 +
        byteAt s.stream (pos + hdrLen s.cfg lay + 2 * w + 1)) := by
  simp only [sampleAt] at h
  split at h
  · cases h
  · next w hw =>
    split at h
    · next b0 b1 hbytes =>
      cases h
      have h0 := memRead_getElem? hbytes hwf (show 0 < 2 by decide)
      rw [Nat.add_zero] at h0
      have h1 := memRead_getElem? hbytes hwf (show 1 < 2 by decide)
      have hlt0 := b0.isLt
      have hlt1 := b1.isLt
      refine ⟨w, hw, BitVec.eq_of_toNat_eq ?_⟩
      rw [byteAt, byteAt, ← h1, ← h0, sample16, toNat_append_add, BitVec.toNat_ofNat]
      simp
      omega
    · cases h

/-- `parse_frame` when each of its checks passes (40_framer.md R156). -/
theorem parseFrame_of_checks {s : State} {lay : Layout} {pos fl len : Nat} {hdr : List Byte}
    {rows : List (List Sample)} (hfits : hdrLen s.cfg lay ≤ s.streamLen - pos)
    (hfl : findFrameLength s lay pos = .ok fl)
    (hhdr : memRead s.stream pos (hdrLen s.cfg lay) = some hdr)
    (hfixed : fixedBytesOk s.cfg lay hdr = true) (hcap : captureLength s.cfg lay fl = some len)
    (hstop : (stopCells s.cfg lay hdr).all cellOk = true)
    (hrows : frameSamples s lay pos len = .ok rows) :
    parseFrame s lay pos = .ok
      { layout := lay
        hdr := headerOf s.cfg lay hdr
        ticks := headerTicks (headerOf s.cfg lay hdr)
        t := timestamp s.cfg lay (headerTicks (headerOf s.cfg lay hdr))
        stop := stopCells s.cfg lay hdr
        len := len
        fl := BitVec.ofNat 64 fl
        samples := rows } := by
  simp only [parseFrame, frameRecord, if_neg hfits.not_gt, hfl, hhdr, hfixed, hcap, hstop, hrows,
    if_true]

/-- A frame that stands in the stream passes every check of `parse_frame`, and the record holds what
stands there (40_framer.md R156, R157). -/
theorem parseFrame_of_frameAt {s : State} (hcfg : configOk s.cfg = true)
    (hwf : s.stream.wf = true) {lay : Layout} {pos fl len : Nat} (hpos : pos ≤ s.streamLen)
    (h : FrameAt s lay pos fl len) :
    ∃ r, parseFrame s lay pos = .ok r ∧ RecordOf s lay pos fl len r := by
  have hfl := findFrameLength_of_frameLengthIs hcfg hwf hpos h.length
  obtain ⟨hdr, hhdr, -⟩ := memRead_isSome (m := s.stream) (a := pos) (n := hdrLen s.cfg lay) (by
    have hfits := h.header_fits
    change _ ≤ s.streamLen
    omega)
  have hmagic : lay = .b → slice hdr 0 2 = s.cfg.magicB := fun hb =>
    slice_magic hwf hcfg (hb ▸ hhdr) (h.magic hb)
  have hstops := stopCells_eq hwf hhdr h.stop_cells
  have hheader := headerOf_eq_headerAt hwf hhdr hmagic
  obtain ⟨rows, hrows⟩ := frameSamples_exists (lay := lay) (pos := pos) hcfg h.capture_le (by
    have hin := findFrameLength_in_stream hcfg hpos hfl
    rw [h.divides] at hin
    rw [Nat.add_assoc]
    exact hin)
  obtain ⟨hcount, hlen, hsample⟩ := frameSamples_ok hrows
  refine ⟨_, parseFrame_of_checks h.header_fits hfl hhdr
    (fixedBytesOk_of_bytes hwf hhdr hcfg hmagic h.marker_bytes)
    (captureLength_of_divides hcfg h.divides h.capture_pos h.capture_le) ?_ hrows, ?_⟩
  · rw [hstops, List.all_eq_true]
    exact List.forall_mem_map.mpr fun k hk =>
      decide_eq_true (h.stop_cells k (List.mem_range.mp hk))
  · exact
      { layout := rfl
        hdr := hheader
        ticks := by rw [hheader, headerTicks_headerAt]
        time := (secondsOf_eq_timestamp _ _ _).symm
        stop_count := by simp [hstops]
        stop := fun k hk => by simp [hstops, hk]
        capture_len := rfl
        frame_len := rfl
        row_count := hcount
        row_length := hlen
        samples := fun ch g i ⟨hc, hg, hi⟩ => by
          obtain ⟨row, x, hrow, hx, hread⟩ := hsample ch g i hc hg hi
          obtain ⟨w, hw, rfl⟩ := sampleAt_ok hwf hread
          obtain ⟨w', hw', hlt⟩ := deintAt_lt hcfg hc hg hi h.capture_le
          cases hw.symm.trans hw'
          refine ⟨w, hw, hlt, ?_⟩
          rw [element_eq_rowElem]
          simp only [rowElem, hrow, hx] }

/-- A DECODE whose frame is parsed commits it (40_framer.md R160). -/
theorem execDecode_of_parseFrame {s : State} {lay : Layout} {r : FrameBody}
    (hlay : s.layout = some lay) (hfatal : s.fatal = false)
    (h : parseFrame s lay s.pos.toNat = .ok r) :
    execDecode s = .next ((commitFrame s r).withStatus 0) := by
  simp only [execDecode, hlay, hfatal, h, complete, codeBits_ok, Bool.false_eq_true, if_false]

end Sys2Proof.Machine

namespace Sys2Proof.Proofs

open Sys2Proof.Machine

/-- Settles O19: the frame passes every check of `parse_frame`, and DECODE commits its record. -/
theorem decodedFrameHoldsStreamBytes : Obligations.DecodedFrameHoldsStreamBytes := by
  intro s lay fl len hg hlay hfatal hframe
  obtain ⟨hwf, -, hpos⟩ := hg.stream
  obtain ⟨r, hparse, hrecord⟩ := parseFrame_of_frameAt hg.config hwf hpos hframe
  refine ⟨(commitFrame s r).withStatus 0, ⟨s.fseq + 1, r⟩, ?_, rfl, hrecord⟩
  exact execDecode_of_parseFrame hlay hfatal hparse

end Sys2Proof.Proofs
end

section
/-! The framer's commands, outcome by outcome (40_framer.md R150 to R171). `find_frame_length` and
`parse_frame` are first tied in both directions to the frames of the stream: `FrameLengthIs`,
`FrameAt` and `ParseFails` then say which branch of SYNC, DECODE and PROBE runs. -/

namespace Sys2Proof.Machine

open Sys2Proof.Claims

/-! ### The frame length -/

section
variable {s : State} (hcfg : configOk s.cfg = true) (hwf : s.stream.wf = true) {lay : Layout}
  {pos : Nat}

section
variable {chunk : List Byte} (hchunk : memRead s.stream pos (chunkLen s lay pos) = some chunk)
include hcfg hwf hchunk

/-- What the search from place `k` on finds is the first occurrence from there on. -/
theorem occurs_of_findFrom_chunk {k p : Nat}
    (h : findFrom (marker s.cfg lay) (chunk.drop k) k = some p) :
    k ≤ p ∧ Occurs s lay pos p ∧ ∀ q < p, k ≤ q → ¬ Occurs s lay pos q := by
  obtain ⟨hk, -, hpre, hfirst⟩ := findFrom_eq_some.mp h
  have hocc : ∀ q, k ≤ q →
      (marker s.cfg lay <+: (chunk.drop k).drop (q - k) ↔ Occurs s lay pos q) := fun q hq => by
    rw [List.drop_drop, Nat.add_sub_cancel' hq, marker_isPrefix_iff_occurs hcfg hwf hchunk]
  exact ⟨hk, (hocc p hk).mp hpre, fun q hlt hq => mt (hocc q hq).mpr (hfirst q hq hlt)⟩

theorem not_occurs_of_findFrom_chunk {k : Nat}
    (h : findFrom (marker s.cfg lay) (chunk.drop k) k = none) :
    ∀ q, k ≤ q → ¬ Occurs s lay pos q := by
  intro q hq hocc
  have hlen := memRead_length hchunk
  have hfit := hocc.1
  refine findFrom_eq_none.mp h q hq (by rw [List.length_drop]; omega) ?_
  rw [List.drop_drop, Nat.add_sub_cancel' hq]
  exact (marker_isPrefix_iff_occurs hcfg hwf hchunk).mpr hocc

end

include hcfg hwf

/-- A measured length is one that the markers give (40_framer.md R152). -/
theorem frameLengthIs_of_findFrameLength {fl : Nat} (h : findFrameLength s lay pos = .ok fl) :
    FrameLengthIs s lay pos fl := by
  obtain ⟨chunk, p1, hread, h1, hcase⟩ := findFrameLength_ok h
  have hchunk : memRead s.stream pos (chunkLen s lay pos) = some chunk := hread
  obtain ⟨-, hocc1, hfirst1⟩ := occurs_of_findFrom_chunk hcfg hwf hchunk (k := 0) h1
  refine ⟨p1, ⟨hocc1, fun q hq => hfirst1 q hq (Nat.zero_le q)⟩, ?_⟩
  obtain ⟨p2, h2, rfl⟩ | ⟨h2, hpolicy, hvalid, hfit, rfl⟩ := hcase
  · exact .inl ⟨p2, occurs_of_findFrom_chunk hcfg hwf hchunk h2, rfl⟩
  · exact .inr ⟨not_occurs_of_findFrom_chunk hcfg hwf hchunk h2, hpolicy, hvalid, hfit, rfl⟩

variable (hpos : pos ≤ s.streamLen)
include hpos

theorem findFrameLength_eq_ok_iff {fl : Nat} :
    findFrameLength s lay pos = .ok fl ↔ FrameLengthIs s lay pos fl :=
  ⟨frameLengthIs_of_findFrameLength hcfg hwf, findFrameLength_of_frameLengthIs hcfg hwf hpos⟩

/-- Where the markers give no length, `find_frame_length` fails (40_framer.md R152). -/
theorem findFrameLength_of_no_length (h : ∀ fl, ¬ FrameLengthIs s lay pos fl) :
    findFrameLength s lay pos = .error (.code .framingError) := by
  cases hf : findFrameLength s lay pos with
  | ok fl => exact absurd (frameLengthIs_of_findFrameLength hcfg hwf hf) (h fl)
  | error e =>
    obtain rfl | ⟨-, hbeyond⟩ := findFrameLength_error hf
    · rfl
    · exact absurd hpos hbeyond.not_ge

end

/-- A frame is longer than the marker of either layout: REUSE_PREV may reuse the length of a frame of
the other one. -/
theorem FrameOk.markerLen_le {c : Config} {f : FrameBody} (hcfg : configOk c = true)
    (hf : FrameOk c f) (lay : Layout) : markerLen lay ≤ f.fl.toNat := by
  have hheader : 8 ≤ hdrLen c f.layout := by
    cases f.layout with
    | a => exact (by decide : 8 ≤ 16).trans (Nat.le_add_left _ _)
    | b => simp only [hdrLen, hdrB]; omega
  have hsamples : 8 * 1 ≤ sampleStride c * f.len := by
    obtain ⟨hch, -, -⟩ := configOk_deint hcfg
    exact Nat.mul_le_mul (by simp only [sampleStride, nGain]; omega) hf.len_pos
  have hmarker : markerLen lay ≤ 16 := by cases lay <;> decide
  rw [hf.fl_eq]
  omega

/-- A measured length is at least the marker's: the two markers do not overlap, and a reused length is
that of the frame in FB (40_framer.md R152, R153). -/
theorem State.Good.markerLen_le_findFrameLength {s : State} (hg : s.Good) {lay : Layout}
    {pos fl : Nat} (h : findFrameLength s lay pos = .ok fl) : markerLen lay ≤ fl := by
  obtain ⟨_, p1, -, -, ⟨p2, h2, rfl⟩ | ⟨-, -, hvalid, -, rfl⟩⟩ := findFrameLength_ok h
  · have hle := (findFrom_eq_some.mp h2).1
    omega
  · obtain ⟨f, hf⟩ := Option.isSome_iff_exists.mp (hg.tags.prev_valid.symm.trans hvalid)
    rw [hg.tags.prev_fl f hf]
    exact (hg.frame f hf).markerLen_le hg.config lay

/-! ### The frame that `parse_frame` accepts -/

/-- A field of at most `n` bytes is below `256 ^ n`. -/
theorem fieldAt_lt (c : Config) (m : Memory) (a n : Nat) : fieldAt c m a n < 256 ^ n := by
  have hbyte : ∀ k, byteAt m (a + k) < 256 := fun k => BitVec.isLt _
  unfold fieldAt
  cases c.hdrByteOrder with
  | big =>
    induction n with
    | zero => exact Nat.one_pos
    | succ n ih =>
      have := hbyte n
      simp only [bigAt, Nat.pow_succ] at ih ⊢
      omega
  | little =>
    induction n with
    | zero => exact Nat.one_pos
    | succ n ih =>
      have htop := Nat.mul_le_mul_right (256 ^ n) (Nat.le_of_lt_succ (hbyte n))
      simp only [littleAt, Nat.pow_succ] at ih htop ⊢
      omega

/-- The marker stands in the header, at its address. -/
theorem markerOffset_spec (c : Config) (lay : Layout) (pos : Nat) :
    pos + markerOffset c lay = markerAddress c lay pos ∧
      markerOffset c lay + markerLen lay ≤ hdrLen c lay := by
  cases lay with
  | a => exact ⟨by simp only [markerOffset, moffA, markerAddress]; omega, Nat.le_refl _⟩
  | b =>
    exact ⟨by simp only [markerOffset, moffB, o133, oTrB, oEvB, o10M, markerAddress]; omega,
      Nat.le_add_right _ _⟩

/-- Entry `k` of the stop-cell block stands in the header, at its address. -/
theorem stopOffset_spec {c : Config} {k : Nat} (hk : k < c.nSc) (lay : Layout) (pos : Nat) :
    pos + (stopOffset c lay + k * c.scW) = stopAddress c lay pos k ∧
      stopOffset c lay + k * c.scW + c.scW ≤ hdrLen c lay := by
  have hblock : (k + 1) * c.scW ≤ c.nSc * c.scW := Nat.mul_le_mul_right _ hk
  rw [Nat.add_mul, Nat.one_mul] at hblock
  cases lay with
  | a =>
    simp only [stopOffset, stopAddress, hdrLen, hdrA, moffA]
    omega
  | b =>
    simp only [stopOffset, stopAddress, hdrLen, hdrB, moffB, o133, oTrB, oEvB, o10M]
    omega

theorem configOk_scW {c : Config} (h : configOk c = true) : c.scW ≤ 8 := by
  simp only [configOk, Bool.and_eq_true, decide_eq_true_eq] at h
  tauto

section
variable {c : Config} {m : Memory} (hwf : m.wf = true) {lay : Layout} {pos : Nat} {h : List Byte}
  (hh : memRead m pos (hdrLen c lay) = some h)
include hwf hh

/-- The fixed bytes that are checked are bytes of the stream. -/
theorem bytes_of_fixedBytesOk (hok : fixedBytesOk c lay h = true) :
    (lay = .b → ∀ j < 2, readByte m (pos + j) = c.magicB[j]?) ∧
      ∀ j < markerLen lay, readByte m (markerAddress c lay pos + j) = (marker c lay)[j]? := by
  have hbytes : ∀ {off n : Nat} {text : List Byte}, off + n ≤ hdrLen c lay →
      slice h off n = text → ∀ j < n, readByte m (pos + off + j) = text[j]? :=
    fun hin htext j hj => by rw [← htext, memRead_getElem? (memRead_slice hh hin) hwf hj]
  simp only [fixedBytesOk, Bool.and_eq_true, beq_iff_eq] at hok
  obtain ⟨hmagic, hmarker⟩ := hok
  obtain ⟨haddr, hin⟩ := markerOffset_spec c lay pos
  refine ⟨fun hb => ?_, haddr ▸ hbytes hin hmarker⟩
  subst hb
  exact hbytes (off := 0) (by simp only [hdrLen, hdrB]; omega) (beq_iff_eq.mp hmagic)

/-- The stop cells that are checked are fields of the stream (30_encoding.md R111). -/
theorem fieldAt_lt_of_stopCells (hw : c.scW ≤ 8) (hok : (stopCells c lay h).all cellOk = true) :
    ∀ k < c.nSc, fieldAt c m (stopAddress c lay pos k) c.scW < 4096 := by
  intro k hk
  obtain ⟨haddr, hin⟩ := stopOffset_spec hk lay pos
  have hlt : fieldAt c m (stopAddress c lay pos k) c.scW < 2 ^ 64 :=
    (fieldAt_lt _ _ _ _).trans_le (Nat.pow_le_pow_right (n := 256) (by decide) hw)
  have hcell := List.all_eq_true.mp hok _ (List.mem_map_of_mem (List.mem_range.mpr hk))
  rw [hfield_slice hwf c hh hin, haddr, counterAt, BitVec.toNat_ofNat, Nat.mod_eq_of_lt hlt] at hcell
  exact of_decide_eq_true hcell

end

section
variable {s : State} (hcfg : configOk s.cfg = true) (hwf : s.stream.wf = true) {lay : Layout}
  {pos : Nat}
include hcfg hwf

/-- A frame that passes the checks of `parse_frame` stands in the stream (40_framer.md R156). -/
theorem frameAt_of_parseFrame {r : FrameBody} (h : parseFrame s lay pos = .ok r) :
    ∃ fl len, FrameAt s lay pos fl len := by
  obtain ⟨fl, len, hdr, _, hfits, hfl, hhdr, hfixed, hcap, hstop, -, -⟩ := parseFrame_ok h
  obtain ⟨-, -, -, hlen, hle⟩ := captureLength_eq_some.mp hcap
  obtain ⟨hmagic, hmarker⟩ := bytes_of_fixedBytesOk hwf hhdr hfixed
  exact ⟨fl, len,
    { header_fits := hfits
      length := frameLengthIs_of_findFrameLength hcfg hwf hfl
      magic := hmagic
      marker_bytes := hmarker
      divides := (captureLength_fl hcap).2
      capture_pos := hlen
      capture_le := hle
      stop_cells := fieldAt_lt_of_stopCells hwf hhdr (configOk_scW hcfg) hstop }⟩

variable (hpos : pos ≤ s.streamLen)
include hpos

omit hwf in
/-- Once the header fits and the length is measured, only a header check can fail
(40_framer.md R156). -/
theorem parseFrame_of_length {fl : Nat} (hfits : hdrLen s.cfg lay ≤ s.streamLen - pos)
    (hfl : findFrameLength s lay pos = .ok fl) :
    (∃ r, parseFrame s lay pos = .ok r) ∨
      parseFrame s lay pos = .error (.code .headerFormatError) := by
  obtain ⟨hdr, hhdr, -⟩ := memRead_isSome (m := s.stream) (a := pos) (n := hdrLen s.cfg lay) (by
    change _ ≤ s.streamLen
    omega)
  simp only [parseFrame, if_neg hfits.not_gt, hfl, hhdr]
  split
  · split
    · exact .inr rfl
    · next len hcap =>
      split
      · obtain ⟨hle, hsize⟩ := captureLength_fl hcap
        have hin := findFrameLength_in_stream hcfg hpos hfl
        obtain ⟨rows, hrows⟩ := frameSamples_exists (lay := lay) (pos := pos) hcfg hle (by omega)
        simp [frameRecord, hrows]
      · exact .inr rfl
  · exact .inr rfl

/-- The code with which `parse_frame` fails (40_framer.md R156). -/
theorem parseFrame_of_parseFails {code : Byte} (h : ParseFails s lay pos code) :
    ∃ c, parseFrame s lay pos = .error (.code c) ∧ codeBits c = code := by
  obtain ⟨hshort, rfl⟩ | ⟨hfits, hnone, rfl⟩ | ⟨hfits, ⟨fl, hfl, hnot⟩, rfl⟩ := h
  · exact ⟨.endOfStream, by simp only [parseFrame, if_pos hshort], rfl⟩
  · have hfl := findFrameLength_of_no_length hcfg hwf hpos hnone
    exact ⟨.framingError, by simp only [parseFrame, if_neg hfits.not_gt, hfl], rfl⟩
  · have hlen := findFrameLength_of_frameLengthIs hcfg hwf hpos hfl
    obtain ⟨r, hr⟩ | he := parseFrame_of_length hcfg hpos hfits hlen
    · obtain ⟨fl', len, hframe⟩ := frameAt_of_parseFrame hcfg hwf hr
      cases hlen.symm.trans (findFrameLength_of_frameLengthIs hcfg hwf hpos hframe.length)
      exact absurd hframe (hnot len)
    · exact ⟨.headerFormatError, he, rfl⟩

/-- Where no frame stands, `parse_frame` fails with a code. -/
theorem parseFrame_of_no_frame (h : ∀ fl len, ¬ FrameAt s lay pos fl len) :
    ∃ c, parseFrame s lay pos = .error (.code c) := by
  cases hp : parseFrame s lay pos with
  | ok r =>
    obtain ⟨fl, len, hframe⟩ := frameAt_of_parseFrame hcfg hwf hp
    exact absurd hframe (h fl len)
  | error e =>
    cases e with
    | code c => exact ⟨c, rfl⟩
    | fault r => exact absurd hp (parseFrame_ne_fault hcfg hpos r)

end

/-! ### The branches of SYNC, DECODE and PROBE -/

theorem findFrameLength_withStatus (s : State) (b : Byte) (lay : Layout) (pos : Nat) :
    findFrameLength (s.withStatus b) lay pos = findFrameLength s lay pos :=
  findFrameLength_congr rfl rfl rfl rfl lay pos

theorem parseFrame_withStatus (s : State) (b : Byte) (lay : Layout) (pos : Nat) :
    parseFrame (s.withStatus b) lay pos = parseFrame s lay pos :=
  parseFrame_congr rfl rfl rfl rfl lay pos

section
variable {s : State} {c : Code}

theorem execSync_of_no_layout (h : s.layout = none) : execSync s = raise .sequenceError s := by
  simp only [execSync, h]

theorem execDecode_of_no_layout (h : s.layout = none) : execDecode s = raise .sequenceError s := by
  simp only [execDecode, h]

variable (hfatal : s.fatal = false)
include hfatal

section
variable {lay : Layout} (hlay : s.layout = some lay)
include hlay

theorem execSync_of_length {fl : Nat} (h : findFrameLength s lay s.pos.toNat = .ok fl) :
    execSync s = complete (s.withRes (BitVec.ofNat 64 fl)) := by
  simp only [execSync, hlay, hfatal, h, Bool.false_eq_true, if_false]

theorem execSync_of_code (h : findFrameLength s lay s.pos.toNat = .error (.code c)) :
    execSync s = raise c s := by
  simp only [execSync, hlay, hfatal, h, Bool.false_eq_true, if_false, finish_code]

theorem execDecode_of_headerError
    (h : parseFrame s lay s.pos.toNat = .error (.code .headerFormatError)) :
    execDecode s = raise .headerFormatError (s.withFatal true) := by
  simp only [execDecode, hlay, hfatal, h, Bool.false_eq_true, if_false]

/-- A code of DECODE other than a header error leaves FATAL alone (40_framer.md R162). -/
theorem execDecode_of_code (h : parseFrame s lay s.pos.toNat = .error (.code c))
    (hc : c ≠ .headerFormatError) : execDecode s = raise c s := by
  simp only [execDecode, hlay, hfatal, h, Bool.false_eq_true, if_false]
  split
  · next heq => cases heq
  · next heq => cases heq; exact absurd rfl hc
  · next heq => cases heq; exact finish_code s c

end

theorem execProbe_of_a {r : FrameBody} (h : parseFrame s .a s.pos.toNat = .ok r) :
    execProbe s = complete (probed .a s) := by
  simp only [execProbe, hfatal, h, Bool.false_eq_true, if_false]

variable {d : Code} (ha : parseFrame s .a s.pos.toNat = .error (.code d))
include ha

theorem execProbe_of_b {r : FrameBody} (h : parseFrame s .b s.pos.toNat = .ok r) :
    execProbe s = complete (probed .b s) := by
  simp only [execProbe, hfatal, ha, h, Bool.false_eq_true, if_false]

theorem execProbe_of_code (h : parseFrame s .b s.pos.toNat = .error (.code c)) :
    execProbe s = raise c s := by
  simp only [execProbe, hfatal, ha, h, Bool.false_eq_true, if_false, finish_code]

end

/-- A layout that PROBE selected is one under which DECODE parses the same frame
(40_framer.md R166). -/
theorem execDecode_of_probed {s : State} {lay : Layout} {r : FrameBody} (hfatal : s.fatal = false)
    (h : parseFrame s lay s.pos.toNat = .ok r) :
    ∃ u, execDecode ((probed lay s).withStatus 0) = .next u ∧ u.status = 0 ∧
      u.fseq = s.fseq + 1 := by
  have hparse : parseFrame ((probed lay s).withStatus 0) lay s.pos.toNat = .ok r :=
    (parseFrame_congr rfl rfl rfl rfl lay s.pos.toNat).trans h
  exact ⟨_, execDecode_of_parseFrame (s := (probed lay s).withStatus 0) rfl hfatal hparse, rfl, rfl⟩

/-- The frame counter being below its last value, the number of a committed frame is the tag of no
buffer (40_framer.md R160). -/
theorem TagsOk.committed_not_current {s : State} (htags : TagsOk s) (hroom : CounterRoom s)
    (r : FrameBody) (b : Byte) : ¬ TimesCurrent ((commitFrame s r).withStatus b) ∧
      ¬ CorrectionCurrent ((commitFrame s r).withStatus b) := by
  have hfresh : ∀ {q : Word}, q.toNat ≤ s.fseq.toNat → q ≠ s.fseq + 1 := by
    rintro q hq rfl
    have hone : (1 : Word).toNat = 1 := rfl
    unfold CounterRoom at hroom
    rw [BitVec.toNat_add, hone, Nat.mod_eq_of_lt hroom] at hq
    omega
  constructor
  · rintro ⟨e, f, he, hf, hseq⟩
    cases hf
    exact hfresh (htags.eb_old e he) hseq
  · rintro ⟨g, f, hcb, hf, hseq⟩
    cases hf
    exact hfresh (htags.cb_old g hcb) hseq

end Sys2Proof.Machine

namespace Sys2Proof.Proofs

open Sys2Proof.Machine Sys2Proof.Claims

/-- Settles O15: the search finds the places of the markers, and outside the stream alone the chunk is
not there. -/
theorem frameLengthFollowsMarkers : Obligations.FrameLengthFollowsMarkers :=
  fun _ _ _ hcfg hwf hpos => ⟨fun _ => findFrameLength_eq_ok_iff hcfg hwf hpos,
    findFrameLength_of_no_length hcfg hwf hpos⟩

/-- Settles O16. -/
theorem frameLengthIsInStream : Obligations.FrameLengthIsInStream :=
  fun _ _ _ _ hg hpos h =>
    ⟨hg.markerLen_le_findFrameLength h, findFrameLength_in_stream hg.config hpos h⟩

/-- Settles O17, branch by branch of SYNC. -/
theorem syncMeasuresFrame : Obligations.SyncMeasuresFrame := by
  refine ⟨by decide, fun s hg => ⟨execSync_of_no_layout, fun lay hlay => ⟨fun hfatal => ?_,
    fun hfatal => ⟨fun fl hfl => ?_, fun hnone => ?_⟩⟩⟩⟩
  all_goals obtain ⟨hwf, -, hpos⟩ := hg.stream
  · exact execSync_of_fatal hfatal (by simp [hlay])
  · exact execSync_of_length hfatal hlay
      (findFrameLength_of_frameLengthIs hg.config hwf hpos hfl)
  · exact execSync_of_code hfatal hlay (findFrameLength_of_no_length hg.config hwf hpos hnone)

/-- Settles O18: the frame is parsed and committed, and its number is one above every tag. -/
theorem decodeCommitsFrame : Obligations.DecodeCommitsFrame := by
  intro s lay fl len hg hlay hfatal hframe
  obtain ⟨hwf, -, hpos⟩ := hg.stream
  obtain ⟨r, hparse, hrecord⟩ := parseFrame_of_frameAt hg.config hwf hpos hframe
  have hexec := execDecode_of_parseFrame hlay hfatal hparse
  refine ⟨r, hexec.trans ?_, hrecord.frame_len, fun hroom t ht => ?_⟩
  · rw [← hrecord.frame_len]
    rfl
  · cases hexec.symm.trans ht
    exact hg.tags.committed_not_current hroom r 0

/-- Settles O20: an illegal word does not reach DECODE, and of the codes of `parse_frame` the header
error alone sets FATAL. -/
theorem decodeReportsFirstFailure : Obligations.DecodeReportsFirstFailure := by
  refine ⟨illegalWordsRaiseIllegalCommand.2, fun s hg => ⟨execDecode_of_no_layout,
    fun lay hlay => ⟨fun hfatal => execDecode_of_fatal hfatal (by simp [hlay]), fun hfatal => ?_⟩⟩⟩
  obtain ⟨hwf, -, hpos⟩ := hg.stream
  have hcode : ∀ c, ParseFails s lay s.pos.toNat (codeBits c) →
      parseFrame s lay s.pos.toNat = .error (.code c) := fun c hfails => by
    obtain ⟨d, hd, hbits⟩ := parseFrame_of_parseFails hg.config hwf hpos hfails
    rw [hd, codeBits_injective hbits]
  exact ⟨fun h => execDecode_of_code hfatal hlay (hcode .endOfStream h) nofun,
    fun h => execDecode_of_code hfatal hlay (hcode .framingError h) nofun,
    fun h => execDecode_of_headerError hfatal hlay (hcode .headerFormatError h)⟩

/-- Settles O22: `parse_frame` does not read STATUS. -/
theorem endOfStreamRepeats : Obligations.EndOfStreamRepeats := by
  intro s t h ht
  obtain ⟨-, rfl⟩ | ⟨lay, hlay, ⟨-, rfl⟩ | ⟨hfatal, ⟨_, -, rfl⟩ | ⟨-, rfl⟩ | ⟨hp, rfl⟩ | ⟨-, rfl⟩⟩⟩ :=
    execDecode_next h
  case inr.inr.inr.inr.inl =>
    exact ⟨rfl, execDecode_of_code hfatal hlay ((parseFrame_withStatus s 1 _ _).trans hp) nofun⟩
  all_goals cases ht

/-- Settles O23: neither `parse_frame` nor `find_frame_length` reads STATUS. -/
theorem framingErrorRepeats : Obligations.FramingErrorRepeats := by
  rintro s t i (rfl | rfl) h ht
  · obtain ⟨-, rfl⟩ |
      ⟨lay, hlay, ⟨-, rfl⟩ | ⟨hfatal, ⟨_, -, rfl⟩ | ⟨-, rfl⟩ | ⟨-, rfl⟩ | ⟨hp, rfl⟩⟩⟩ :=
      execDecode_next h
    case inr.inr.inr.inr.inr =>
      exact ⟨rfl, execDecode_of_code hfatal hlay ((parseFrame_withStatus s 2 _ _).trans hp) nofun⟩
    all_goals cases ht
  · obtain ⟨-, rfl⟩ | ⟨lay, hlay, ⟨-, rfl⟩ | ⟨hfatal, ⟨_, -, rfl⟩ | ⟨hfl, rfl⟩⟩⟩ := execSync_next h
    case inr.inr.inr =>
      exact ⟨rfl, execSync_of_code hfatal hlay ((findFrameLength_withStatus s 2 _ _).trans hfl)⟩
    all_goals cases ht

/-- Settles O24: a layout's attempt succeeds exactly where a frame of it stands. -/
theorem probeTriesBothLayouts : Obligations.ProbeTriesBothLayouts := by
  refine ⟨by decide, fun s hg => ⟨execProbe_of_fatal, fun hfatal => ?_⟩⟩
  obtain ⟨hwf, -, hpos⟩ := hg.stream
  refine ⟨fun ⟨fl, len, ha⟩ => ?_, fun hnot => ?_⟩
  · obtain ⟨r, hr, -⟩ := parseFrame_of_frameAt hg.config hwf hpos ha
    exact execProbe_of_a hfatal hr
  obtain ⟨d, hd⟩ := parseFrame_of_no_frame hg.config hwf hpos hnot
  refine ⟨fun ⟨fl, len, hb⟩ => ?_, fun code hfails => ?_⟩
  · obtain ⟨r, hr, -⟩ := parseFrame_of_frameAt hg.config hwf hpos hb
    exact execProbe_of_b hfatal hd hr
  · obtain ⟨c, hc, rfl⟩ := parseFrame_of_parseFails hg.config hwf hpos hfails
    exact execProbe_of_code hfatal hd hc

/-- Settles O25: PROBE reports OK only after it parsed the frame under the layout it selects. -/
theorem probedLayoutDecodes : Obligations.ProbedLayoutDecodes := by
  intro s t h ht
  obtain ⟨-, rfl⟩ | ⟨hfatal, ⟨_, hr, rfl⟩ | ⟨-, ⟨_, hr, rfl⟩ | ⟨c, hc, rfl⟩⟩⟩ := execProbe_next h
  · cases ht
  · exact execDecode_of_probed hfatal hr
  · exact execDecode_of_probed hfatal hr
  · cases codeBits_injective (d := .ok) ht
    simpa using parseFrame_error hc

/-- Settles O14: an operand of SETLAYOUT outside 1 and 2 is a clause of R133. -/
theorem setlayoutSelectsLayout : Obligations.SetlayoutSelectsLayout :=
  ⟨by decide, by decide, fun _ => rfl, fun _ => rfl, fun _ hop ha =>
    illegal_iff_decode_error.mp (.inr (.inr (.inr (.inr (.inr (.inl ⟨hop, ha⟩))))))⟩

/-- Settles O26: the operand keeps its value when it is zero-extended, so the three cases are those of
the model. -/
theorem seekMovesPosition : Obligations.SeekMovesPosition := by
  refine ⟨by decide, fun s p => ?_⟩
  have htarget : seekTarget p = s.pos ↔ p.toNat = s.pos.toNat := by
    rw [← BitVec.toNat_inj, seekTarget_toNat]
  have hvalue : BitVec.ofNat 64 p.toNat = seekTarget p := by
    rw [← seekTarget_toNat, BitVec.ofNat_toNat, BitVec.setWidth_eq]
  refine ⟨fun hbeyond => ?_, fun hin => ⟨fun heq => ?_, fun hne => ?_⟩⟩ <;>
    change execSeek p s = _
  · rw [execSeek, seekTarget_toNat, if_pos hbeyond]
    rfl
  · rw [execSeek, seekTarget_toNat, if_neg hin.not_gt, if_pos (htarget.mpr heq)]
    rfl
  · rw [execSeek, seekTarget_toNat, if_neg hin.not_gt, if_neg (mt htarget.mp hne), hvalue]
    rfl

end Sys2Proof.Proofs
end

section
/-! Binary64 rounding (00_scope.md section 4; log 5). `f64Round` rounds a quotient to a whole number
`m` of units `2 ^ k`, chosen so that `m` is a significand of 53 bits, and holds it as the code
`2 ^ 52 * k + m`. What is said of `m` and `k` (`IsSignificand`) gives the value of the code, that no
finite value is nearer, and where the code leaves the format. -/

namespace Sys2Proof.Machine

open Sys2Proof.Claims

/-! ### Division to nearest, ties to even -/

/-- The rounded quotient is at most half a unit away, and even when it is just half a unit away. -/
theorem divRne_spec (n : Nat) {d : Nat} (hd : 0 < d) :
    2 * |(n : Int) - divRne n d * d| ≤ d ∧
      (2 * |(n : Int) - divRne n d * d| = d → divRne n d % 2 = 0) := by
  have hdiv : (n : Int) = n / d * d + n % d := by
    exact_mod_cast (Nat.div_add_mod' n d).symm
  have hmod : n % d < d := Nat.mod_lt n hd
  simp only [divRne]
  split
  · next hup =>
    have hdist : |(n : Int) - ((n / d + 1 : Nat) : Int) * d| = d - (n % d : Nat) := by
      rw [abs_of_nonpos] <;> push_cast <;> rw [Int.add_mul] <;> omega
    rw [hdist]
    omega
  · next hdown =>
    have hdist : |(n : Int) - ((n / d : Nat) : Int) * d| = (n % d : Nat) := by
      rw [abs_of_nonneg] <;> push_cast <;> omega
    rw [hdist]
    omega

/-! ### The significand -/

/-- `m` units `2 ^ k` are `num / den` rounded to nearest, ties to even, and `m` has 53 significant
bits, or fewer where the unit is the least one; `2 ^ 53` is a carry out of them. -/
structure IsSignificand (num den k m : Nat) : Prop where
  le : m ≤ 2 ^ 53
  ge : k ≠ 0 → 2 ^ 52 ≤ m
  num_lt : num < 2 ^ 53 * (den * 2 ^ k)
  le_num : k ≠ 0 → 2 ^ 52 * (den * 2 ^ k) ≤ num
  near : 2 * |(num : Int) - m * (den * 2 ^ k : Nat)| ≤ (den * 2 ^ k : Nat)
  even : 2 * |(num : Int) - m * (den * 2 ^ k : Nat)| = (den * 2 ^ k : Nat) → m % 2 = 0

/-- The unit is so chosen that the quotient has 53 significant bits. -/
theorem quotient_bounds (num : Nat) {den : Nat} (hden : 0 < den) :
    num < 2 ^ 53 * (den * 2 ^ ((num / den).log2 - 52)) ∧
      ((num / den).log2 - 52 ≠ 0 → 2 ^ 52 * (den * 2 ^ ((num / den).log2 - 52)) ≤ num) := by
  have hscale : ∀ n k, 2 ^ n * (den * 2 ^ k) = 2 ^ (n + k) * den := fun n k => by
    rw [Nat.pow_add]
    ring
  rw [hscale, hscale]
  refine ⟨(Nat.div_lt_iff_lt_mul hden).mp ?_, fun hk => (Nat.le_div_iff_mul_le hden).mp ?_⟩
  · exact (Nat.lt_log2_self).trans_le (Nat.pow_le_pow_right Nat.two_pos (by omega))
  · rw [Nat.add_sub_cancel' (by omega)]
    refine Nat.log2_self_le fun h0 => hk ?_
    rw [h0]
    rfl

/-- `f64Round` rounds to a significand. -/
theorem divRne_isSignificand (num : Nat) {den : Nat} (hden : 0 < den) :
    IsSignificand num den ((num / den).log2 - 52)
      (divRne num (den * 2 ^ ((num / den).log2 - 52))) := by
  obtain ⟨hlt, hle⟩ := quotient_bounds num hden
  generalize (num / den).log2 - 52 = k at *
  have hD : 0 < den * 2 ^ k := Nat.mul_pos hden (Nat.two_pow_pos k)
  obtain ⟨hnear, heven⟩ := divRne_spec num hD
  generalize divRne num (den * 2 ^ k) = m at *
  have hbound := abs_le.mp (show
    |(num : Int) - m * (den * 2 ^ k : Nat)| ≤ (den * 2 ^ k : Nat) / 2 by omega)
  refine ⟨?_, fun hk => ?_, hlt, hle, hnear, heven⟩
  · by_contra hgt
    have hmul := Nat.mul_le_mul_right (den * 2 ^ k) (show 2 ^ 53 + 1 ≤ m by omega)
    zify at *
    omega
  · by_contra hgt
    have hmul := Nat.mul_le_mul_right (den * 2 ^ k) (show m + 1 ≤ 2 ^ 52 by omega)
    have hnum := hle hk
    zify at *
    rw [Int.add_mul] at hmul
    omega

/-! ### The values of the format -/

theorem f64Units_eq_magnitude (e : Fin 2047) (f : BitVec 52) : f64Units e f = magnitude e f := by
  simp only [f64Units, magnitude]
  split
  · next he => simp [he]
  · rfl

/-- A finite value is a multiple of the unit `2 ^ k`, or below every significand of 53 bits in that
unit. -/
theorem magnitude_multiple_or_lt (e : Fin 2047) (f : BitVec 52) (k : Nat) :
    (∃ n, magnitude e f = n * 2 ^ k) ∨ (k ≠ 0 ∧ magnitude e f < 2 ^ 52 * 2 ^ k) := by
  have hf := f.isLt
  obtain hk | hk := le_or_gt k (e.val - 1)
  · refine .inl ⟨((if e.val = 0 then 0 else 2 ^ 52) + f.toNat) * 2 ^ (e.val - 1 - k), ?_⟩
    rw [magnitude, Nat.mul_assoc, ← Nat.pow_add, Nat.sub_add_cancel hk]
  · refine .inr ⟨by omega, ?_⟩
    calc magnitude e f
        < 2 ^ 53 * 2 ^ (e.val - 1) :=
          Nat.mul_lt_mul_of_pos_right (by split <;> omega) (Nat.two_pow_pos _)
      _ ≤ 2 ^ 53 * 2 ^ (k - 1) :=
          Nat.mul_le_mul_left _ (Nat.pow_le_pow_right Nat.two_pos (by omega))
      _ = 2 ^ 52 * 2 ^ k := by
          rw [show k = k - 1 + 1 by omega, Nat.pow_succ, Nat.add_sub_cancel]
          ring

section
variable {num den k m : Nat} (h : IsSignificand num den k m)
include h

/-- The value of the code of a significand, a carry out of its bits having moved the exponent up. -/
theorem IsSignificand.magnitude_code {e : Fin 2047} (he : e.val = (2 ^ 52 * k + m) / 2 ^ 52) :
    magnitude e (BitVec.ofNat 52 (2 ^ 52 * k + m)) = m * 2 ^ k := by
  have hle := h.le
  have hge := h.ge
  rw [Nat.mul_add_div (by decide)] at he
  rw [magnitude, BitVec.toNat_ofNat, Nat.mul_add_mod]
  obtain hsub | hnormal | hcarry :
      m < 2 ^ 52 ∨ (2 ^ 52 ≤ m ∧ m < 2 ^ 53) ∨ m = 2 ^ 53 := by omega
  · obtain rfl : k = 0 := by omega
    rw [if_pos (by omega), show e.val - 1 = 0 by omega, Nat.mod_eq_of_lt hsub, Nat.zero_add]
  · rw [if_neg (by omega), show e.val - 1 = k by omega, show m % 2 ^ 52 = m - 2 ^ 52 by omega,
      Nat.add_sub_cancel' hnormal.1]
  · subst hcarry
    rw [if_neg (by omega), show e.val - 1 = k + 1 by omega, Nat.pow_succ]
    omega

/-- No multiple of the unit is nearer, and one as near leaves `m` even. -/
theorem IsSignificand.le_multiple (n : Nat) :
    |(num : Int) - m * (den * 2 ^ k : Nat)| ≤ |(num : Int) - n * (den * 2 ^ k : Nat)| ∧
      (|(num : Int) - m * (den * 2 ^ k : Nat)| = |(num : Int) - n * (den * 2 ^ k : Nat)| →
        m ≠ n → m % 2 = 0) := by
  have hnear := h.near
  have heven := h.even
  by_cases hmn : m = n
  · subst hmn
    exact ⟨le_rfl, fun _ hne => absurd rfl hne⟩
  · have hone : 1 ≤ |(m : Int) - n| := Int.one_le_abs (by omega)
    have hapart : ((den * 2 ^ k : Nat) : Int) ≤
        |(num : Int) - n * (den * 2 ^ k : Nat)| + |(num : Int) - m * (den * 2 ^ k : Nat)| := by
      generalize den * 2 ^ k = unit
      calc (unit : Int)
          ≤ |(m : Int) - n| * unit := le_mul_of_one_le_left (Int.natCast_nonneg _) hone
        _ = |((num : Int) - n * unit) - (num - m * unit)| := by
            rw [show ((num : Int) - n * unit) - (num - m * unit) = (m - n) * unit by ring,
              abs_mul, Nat.abs_cast]
        _ ≤ |(num : Int) - n * unit| + |(num : Int) - m * unit| := abs_sub _ _
    exact ⟨by omega, fun heq _ => heven (by omega)⟩

variable (hden : 0 < den)
include hden

/-- No finite value is nearer, and one as near leaves `m` even. -/
theorem IsSignificand.nearest (e : Fin 2047) (f : BitVec 52) :
    |(num : Int) - (m * 2 ^ k : Nat) * den| ≤ |(num : Int) - magnitude e f * den| ∧
      (|(num : Int) - (m * 2 ^ k : Nat) * den| = |(num : Int) - magnitude e f * den| →
        m * 2 ^ k ≠ magnitude e f → m % 2 = 0) := by
  have hunit : ∀ n : Nat, ((n * 2 ^ k : Nat) : Int) * den = n * (den * 2 ^ k : Nat) := fun n => by
    push_cast
    ring
  rw [hunit m]
  obtain ⟨n, hn⟩ | ⟨hk, hlt⟩ := magnitude_multiple_or_lt e f k
  · obtain ⟨hle, htie⟩ := h.le_multiple n
    rw [hn, hunit n]
    exact ⟨hle, fun heq hne => htie heq fun hmn => hne (by rw [hmn])⟩
  · have hleast := (h.le_multiple (2 ^ 52)).1
    have hnum := h.le_num hk
    have hbelow : magnitude e f * den < 2 ^ 52 * (den * 2 ^ k) :=
      (Nat.mul_lt_mul_of_pos_right hlt hden).trans_eq (by ring)
    zify at hnum hbelow
    rw [abs_of_nonneg (a := (num : Int) - (2 ^ 52 : Nat) * _) (by push_cast; omega)] at hleast
    rw [abs_of_nonneg (a := (num : Int) - magnitude e f * den) (by omega)]
    push_cast at hleast ⊢
    omega

omit hden in
/-- The rounding carries out of the 53 bits exactly from half a unit below `2 ^ 53` units on. -/
theorem IsSignificand.lt_carry_iff {half : Nat} (hhalf : den * 2 ^ k = half * 2)
    (hpos : 0 < half) : m < 2 ^ 53 ↔ num < (2 ^ 54 - 1) * half := by
  have hle := h.le
  have hnear := h.near
  have heven := h.even
  have habove := le_abs_self ((num : Int) - m * (den * 2 ^ k : Nat))
  have hbelow := neg_abs_le ((num : Int) - m * (den * 2 ^ k : Nat))
  rw [hhalf] at hnear heven habove hbelow
  generalize |(num : Int) - m * (half * 2 : Nat)| = dist at *
  obtain hm | rfl | rfl : m + 2 ≤ 2 ^ 53 ∨ m = 2 ^ 53 - 1 ∨ m = 2 ^ 53 := by omega
  · have hmul := Nat.mul_le_mul_right (half * 2) hm
    rw [Nat.add_mul] at hmul
    omega
  · omega
  · omega

/-- The code is that of a finite value exactly below half a last place above the largest one. -/
theorem IsSignificand.code_lt_iff :
    (2 ^ 52 * k + m) / 2 ^ 52 < 2047 ↔ num < (2 ^ 54 - 1) * 2 ^ 2044 * den := by
  have hlt := h.num_lt
  have hle := h.le
  have hunit : ∀ n, 0 < den * 2 ^ n := fun n => Nat.mul_pos hden (Nat.two_pow_pos n)
  have hpos := hunit 2044
  have hmono : ∀ {n n'}, n ≤ n' → den * 2 ^ n ≤ den * 2 ^ n' := fun hn =>
    Nat.mul_le_mul_left _ (Nat.pow_le_pow_right Nat.two_pos hn)
  have hshift : ∀ n j, den * 2 ^ (n + j) = den * 2 ^ n * 2 ^ j := fun n j => by
    rw [Nat.pow_add, Nat.mul_assoc]
  rw [Nat.mul_assoc, Nat.mul_comm (2 ^ 2044) den]
  obtain hk | rfl | hk := lt_trichotomy k (2044 + 1)
  · have hpow := hmono (show k ≤ 2044 by omega)
    exact iff_of_true (by omega) (by omega)
  · rw [← h.lt_carry_iff (hshift 2044 1) hpos]
    omega
  · have hpow := hmono (show 2044 + 2 ≤ k by omega)
    have hge := h.ge (by omega)
    have hnum := h.le_num (by omega)
    rw [hshift 2044 2] at hpow
    exact iff_of_false (by omega) (by omega)

end

/-- `f64Round` is the exact quotient rounded once. -/
theorem f64Round_roundsExact (neg : Bool) (num : Nat) {den : Nat} (hden : 0 < den) :
    RoundsExact neg num den (f64Round neg num den) := by
  have hsig := divRne_isSignificand num hden
  simp only [f64Round]
  generalize (num / den).log2 - 52 = k at *
  generalize divRne num (den * 2 ^ k) = m at *
  split
  · next hfin =>
    refine ⟨rfl, (hsig.code_lt_iff hden).mp hfin, fun e f => ?_⟩
    rw [hsig.magnitude_code rfl]
    obtain ⟨hle, htie⟩ := hsig.nearest hden e f
    refine ⟨hle, fun heq hne => ?_⟩
    have heven := htie heq hne
    have hlast : ¬ (2 ^ 52 * k + m) % 2 = 1 := by omega
    rw [BitVec.getLsbD_ofNat, Nat.testBit_zero, decide_eq_false hlast, Bool.and_false]
  · next hinf => exact ⟨rfl, Nat.le_of_not_lt (mt (hsig.code_lt_iff hden).mpr hinf)⟩

/-! ### The operations -/

theorem unitsPerOne_eq : unitsPerOne = 2 ^ 1074 := rfl

theorem f64Round_zero : f64Round false 0 1 = .fin false 0 0 := rfl

theorem unitsOf_eq_exactUnits (neg : Bool) (e : Fin 2047) (f : BitVec 52) :
    unitsOf neg e f = exactUnits neg e f := by
  simp only [unitsOf, signedInt, exactUnits, f64Units_eq_magnitude]

theorem exactUnits_not (neg : Bool) (e : Fin 2047) (f : BitVec 52) :
    exactUnits (!neg) e f = -exactUnits neg e f := by
  cases neg <;> simp [exactUnits]

/-- The sum of finite values is the exact sum rounded once. -/
theorem fadd_fin_rounds (m : Bool) (e : Fin 2047) (f : BitVec 52) (n : Bool) (e' : Fin 2047)
    (f' : BitVec 52) : RoundsUnits (m && n) (exactUnits m e f + exactUnits n e' f')
      (fadd (.fin m e f) (.fin n e' f')) := by
  rw [← unitsOf_eq_exactUnits, ← unitsOf_eq_exactUnits, RoundsUnits]
  split
  · next hz => exact if_pos hz
  · next hz =>
    rw [show fadd (.fin m e f) (.fin n e' f') = f64Round _ _ 1 from if_neg hz]
    exact f64Round_roundsExact _ _ Nat.one_pos

theorem fadd_addsExactly : AddsExactly fadd := by
  refine ⟨fun x => ?_, fadd_fin_rounds, fun m => ?_, fun m n e f => ⟨rfl, rfl⟩⟩
  · cases x <;> exact ⟨rfl, rfl⟩
  · cases m <;> exact ⟨rfl, rfl⟩

theorem fsub_subtractsExactly : SubtractsExactly fsub := by
  refine ⟨fun x => ?_, fun m e f n e' f' => ?_, fun m => ?_, fun m n e f => ⟨rfl, rfl⟩⟩
  · cases x <;> exact ⟨rfl, rfl⟩
  · have hsum := fadd_fin_rounds m e f (!n) e' f'
    rwa [exactUnits_not, ← sub_eq_add_neg] at hsum
  · cases m <;> exact ⟨rfl, rfl⟩

theorem fmul_multipliesExactly : MultipliesExactly fmul := by
  refine ⟨fun x => ?_, fun m e f n e' f' => ?_, fun m n => rfl, fun m n e f => ⟨fun hz => ?_,
    fun hz => ?_⟩⟩
  · cases x <;> exact ⟨rfl, rfl⟩
  · simp only [fmul, f64Units_eq_magnitude, unitsPerOne_eq]
    exact f64Round_roundsExact _ _ (pow_pos two_pos 1074)
  · simp only [fmul, f64Units_eq_magnitude, if_pos hz, and_self]
  · simp only [fmul, f64Units_eq_magnitude, if_neg hz, bne_comm, and_self]

theorem fdiv_dividesExactly : DividesExactly fdiv := by
  refine ⟨fun x => ?_, fun m e f n e' f' => ⟨fun hd => ?_, fun hd hn => ?_, fun hd hn => ?_⟩,
    fun m n => rfl, fun m n e f => ⟨rfl, congrArg (F64.fin · 0 0) bne_comm⟩⟩
  · cases x <;> exact ⟨rfl, rfl⟩
  all_goals simp only [fdiv, unitsPerOne_eq, f64Units_eq_magnitude]
  · rw [if_neg hd]
    exact f64Round_roundsExact _ _ (Nat.pos_of_ne_zero hd)
  · rw [if_pos hd, if_neg hn]
  · rw [if_pos hd, if_pos hn]

/-- The conversion of an integer is the integer rounded once. -/
theorem toF64_rounds (n : Int) : RoundsUnits false (2 ^ 1074 * n) (toF64 n) := by
  have hunit : (0 : Int) < 2 ^ 1074 := by positivity
  obtain rfl | hn := eq_or_ne n 0
  · rw [RoundsUnits, if_pos (Int.mul_zero _), toF64, Int.natAbs_zero, Nat.mul_zero]
    exact f64Round_zero
  · have hsign : decide (2 ^ 1074 * n < 0) = decide (n < 0) :=
      decide_eq_decide.mpr (lt_iff_lt_of_le_iff_le (mul_nonneg_iff_of_pos_left hunit))
    have hmagnitude : ∀ k : Nat, ((2 : Int) ^ k * n).natAbs = 2 ^ k * n.natAbs := fun k => by
      rw [Int.natAbs_mul, Int.natAbs_pow]
      rfl
    rw [RoundsUnits, if_neg (mul_ne_zero hunit.ne' hn), hsign, hmagnitude 1074, toF64,
      unitsPerOne_eq]
    exact f64Round_roundsExact _ _ Nat.one_pos

end Sys2Proof.Machine

namespace Sys2Proof.Proofs

open Sys2Proof.Machine

/-- Settles O47: the shared rounding rounds every quotient once, and each operation is one rounding of
its exact result. -/
theorem roundingIsNearestEven : Obligations.RoundingIsNearestEven :=
  ⟨fun neg num _ hden => f64Round_roundsExact neg num hden, unitsOf_eq_exactUnits,
    fadd_addsExactly, fsub_subtractsExactly, fmul_multipliesExactly, fdiv_dividesExactly,
    toF64_rounds⟩

end Sys2Proof.Proofs
end

section
/-! The capacitor-address translator (41_translator.md R200 to R211). The one fact about the ring is
that `cellToSample` and `sampleToCell` undo each other; what a window holds follows from it. The three
commands differ only in their operand ranges and in the number they leave in RES. -/

namespace Sys2Proof.Machine

/-! ### The translations -/

section
variable {n i stop len : Nat}

/-- `cell_to_sample` in integers, as R201 writes it. -/
theorem natCast_cellToSample (cell stop : Nat) :
    (cellToSample cell stop : Int) = ((cell : Int) - stop) % 4096 :=
  Int.toNat_of_nonneg (Int.emod_nonneg _ (by decide))

theorem sampleToCell_cellToSample (hn : n < 4096) :
    sampleToCell (cellToSample n stop) stop = n := by
  have hsample := natCast_cellToSample n stop
  simp only [sampleToCell, totalCap]
  omega

theorem cellToSample_sampleToCell (hn : n < 4096) :
    cellToSample (sampleToCell n stop) stop = n := by
  have hsample := natCast_cellToSample (sampleToCell n stop) stop
  simp only [sampleToCell, totalCap] at hsample ⊢
  omega

/-- A window holds the cell of a sample index exactly when the index is below its length. -/
theorem cellInWindow_sampleToCell (hi : i < 4096) :
    cellInWindow (sampleToCell i stop) stop len = decide (i < len) := by
  rw [cellInWindow, cellToSample_sampleToCell hi]

end

/-! ### The operand ranges -/

theorem cellOk_iff {n : Nat} : cellOk n = true ↔ n < 4096 := decide_eq_true_iff

theorem lengthOk_iff {n : Nat} : lengthOk n = true ↔ n ≤ 4096 := decide_eq_true_iff

theorem cellsOk_iff {a b : Nat} : (cellOk a && cellOk b) = true ↔ a < 4096 ∧ b < 4096 := by
  rw [Bool.and_eq_true, cellOk_iff, cellOk_iff]

theorem not_cellsOk_iff {a b : Nat} :
    ¬ (cellOk a && cellOk b) = true ↔ 4096 ≤ a ∨ 4096 ≤ b := by
  rw [cellsOk_iff]
  omega

theorem windowOk_iff {a b n : Nat} :
    (cellOk a && cellOk b && lengthOk n) = true ↔ (a < 4096 ∧ b < 4096) ∧ n ≤ 4096 := by
  rw [Bool.and_eq_true, cellsOk_iff, lengthOk_iff]

theorem not_windowOk_iff {a b n : Nat} :
    ¬ (cellOk a && cellOk b && lengthOk n) = true ↔ 4096 ≤ a ∨ 4096 ≤ b ∨ 4096 < n := by
  rw [windowOk_iff]
  omega

/-! ### The end of a translator command -/

section
variable {inRange : Bool} {result : Nat} {s : State}

theorem translated_of_inRange (h : inRange = true) :
    translated inRange result s =
      .next { s with res := BitVec.ofNat 64 result, status := 0 } := by
  rw [translated, if_pos h]
  rfl

theorem translated_of_not_inRange (h : ¬ inRange = true) :
    translated inRange result s = .next { s with status := 4 } := by
  rw [translated, if_neg h]
  rfl

end

/-! ### The numbers in RES -/

/-- C2S: the remainder of R201 as a word. -/
theorem ofNat_cellToSample (cell stop : Nat) :
    BitVec.ofNat 64 (cellToSample cell stop) =
      BitVec.ofInt 64 (((cell : Int) - stop) % 4096) := by
  rw [← natCast_cellToSample, BitVec.ofInt_natCast]

/-- INWIN: the comparison of R203 as a word. -/
theorem ofNat_cellInWindow (cell stop len : Nat) :
    BitVec.ofNat 64 (cellInWindow cell stop len).toNat =
      if ((cell : Int) - stop) % 4096 < len then 1 else 0 := by
  rw [← natCast_cellToSample, cellInWindow]
  split
  · next hlt => rw [decide_eq_true (Int.ofNat_lt.mp hlt)]; rfl
  · next hge => rw [decide_eq_false (mt Int.ofNat_lt.mpr hge)]; rfl

end Sys2Proof.Machine

namespace Sys2Proof.Proofs

open Sys2Proof.Machine

/-- Settles O28: both operands are cells, or the command raises. -/
theorem cellToSampleCommand : Obligations.CellToSampleCommand := by
  refine ⟨by decide, fun s cell stop => ⟨fun hout => ?_, fun hcell hstop => ?_⟩⟩ <;>
    change execC2s cell stop s = _
  · exact translated_of_not_inRange (not_cellsOk_iff.mpr hout)
  · rw [← ofNat_cellToSample]
    exact translated_of_inRange (cellsOk_iff.mpr ⟨hcell, hstop⟩)

/-- Settles O29: the sample index is held against the same range as a cell. -/
theorem sampleToCellCommand : Obligations.SampleToCellCommand := by
  refine ⟨by decide, fun s index stop => ⟨fun hout => ?_, fun hindex hstop => ?_⟩⟩ <;>
    change execS2c index stop s = _
  · exact translated_of_not_inRange (not_cellsOk_iff.mpr hout)
  · exact translated_of_inRange (cellsOk_iff.mpr ⟨hindex, hstop⟩)

/-- Settles O30: a length of 4096 is in range, unlike a cell of 4096. -/
theorem windowCommand : Obligations.WindowCommand := by
  refine ⟨by decide, fun s cell stop len => ⟨fun hout => ?_, fun hcell hstop hlen => ?_⟩⟩ <;>
    change execInwin cell stop len s = _
  · exact translated_of_not_inRange (not_windowOk_iff.mpr hout)
  · rw [← ofNat_cellInWindow]
    exact translated_of_inRange (windowOk_iff.mpr ⟨⟨hcell, hstop⟩, hlen⟩)

/-- Settles O31. -/
theorem translationsAreInverse : Obligations.TranslationsAreInverse := fun _ _ hn _ =>
  ⟨sampleToCell_cellToSample hn, cellToSample_sampleToCell hn⟩

/-- Settles O32: translating a cell back gives its sample index, so indices that share a cell are
equal. -/
theorem windowHoldsItsSamples : Obligations.WindowHoldsItsSamples := by
  intro stop len _ hlen
  refine ⟨fun i hi => ?_, fun i hge hi => ?_, fun i j hi hj heq => ?_⟩
  · exact (cellInWindow_sampleToCell (hi.trans_le hlen)).trans (decide_eq_true hi)
  · exact (cellInWindow_sampleToCell hi).trans (decide_eq_false hge.not_gt)
  · calc i = cellToSample (sampleToCell i stop) stop :=
          (cellToSample_sampleToCell (hi.trans_le hlen)).symm
      _ = cellToSample (sampleToCell j stop) stop := by rw [heq]
      _ = j := cellToSample_sampleToCell (hj.trans_le hlen)

end Sys2Proof.Proofs
end

section
/-! The recency tracker (42_tracker.md R220 to R230). The windows of a frame are tied once to the
cells that the statements name; what a successful OBSERVE computes and stamps is then one lemma, of
which the statements about a second OBSERVE and about an invalidation are readings. -/

namespace Sys2Proof.Machine

open Sys2Proof.Claims

/-! ### The cells of a frame -/

theorem stopOf_of_frameStop {c : Config} {f : FrameBody} {ch g stop : Nat}
    (h : frameStop c f ch g = some stop) : stopOf c f ch g = stop := by
  simp only [frameStop, scMapAt, nGain] at h
  split at h
  · next hmap => simp [stopOf, hmap, h]
  · cases h

/-- Sample `i` of a window lies in the ring at the cell of `i`. -/
theorem windowKey_eq_cellIndex {c : Config} {f : FrameBody} {ch g stop : Nat}
    (h : frameStop c f ch g = some stop) (i : Nat) :
    windowKey ⟨ch, g, stop⟩ i = cellIndex ch g (cellOf c f ch g i) := by
  rw [cellOf, stopOf_of_frameStop h]
  rfl

theorem cellOf_lt (c : Config) (f : FrameBody) (ch g i : Nat) : cellOf c f ch g i < 4096 :=
  Nat.mod_lt _ (by decide)

/-! ### What OBSERVE computes and stamps -/

section
variable {c : Config} {f : FrameBody} {ws : List Window} (hws : windowsOf c f = .ok ws)
include hws

/-- An entry outside the frame's cells is at no key of its windows, keys being injective. -/
theorem windowKey_ne_of_uncovered {ch g cell : Nat} (hg : g < 2) (hcell : cell < 4096)
    (hout : ∀ i < f.len, cellOf c f ch g i ≠ cell) :
    ∀ w ∈ ws, ∀ i < f.len, windowKey w i ≠ cellIndex ch g cell := by
  intro w hw i hi hkey
  obtain ⟨-, hwg, hstop⟩ := windowsOf_mem hws hw
  rw [windowKey_eq_cellIndex hstop] at hkey
  obtain ⟨hch, hgain, heq⟩ := cellIndex_inj hwg (cellOf_lt ..) hg hcell hkey
  rw [hch, hgain] at heq
  exact hout i hi heq

theorem stamped_stampWindows {rb : Runs F64} (hrb : TableOk .nan (cellCount c) rb) :
    Stamped c f rb (stampWindows f.t f.len ws rb) := by
  obtain ⟨-, hin, hout⟩ := stampWindows_spec f.t f.len _ ws rb hrb fun w hw i _ =>
    have ⟨hch, hg, _⟩ := windowsOf_mem hws hw
    windowKey_lt hch hg i
  refine ⟨fun ch g i ⟨hch, hg, hi⟩ => ?_, fun ch g cell _ hg hcell hun => ?_⟩
  · obtain ⟨stop, hstop, hrow⟩ := windowsOf_getElem? hws hch hg
    rw [ringAt, ← windowKey_eq_cellIndex hstop]
    exact hin _ (List.mem_of_getElem? hrow) i hi
  · exact hout _ (windowKey_ne_of_uncovered hws hg hcell hun)

end

/-- The elapsed times of a frame, element by element, by the ring of the state. -/
theorem element_elapsedRows {s : State} {f : FrameBody} {ws : List Window}
    (hws : windowsOf s.cfg f = .ok ws) {ch g i : Nat} (hin : InFrame s.cfg f.len ch g i) :
    element (elapsedRows s.trk s.rb f.t f.len ws) ch g i = some (elapsedAt s f ch g i) := by
  obtain ⟨hch, hg, hi⟩ := hin
  obtain ⟨stop, hstop, hw⟩ := windowsOf_getElem? hws hch hg
  have helapsed : elapsedOf s.trk s.rb f.t (windowKey ⟨ch, g, stop⟩ i) = elapsedAt s f ch g i := by
    rw [elapsedOf, windowKey_eq_cellIndex hstop]
    exact if_congr (or_congr_right decide_eq_true_iff) rfl rfl
  rw [element_eq_rowElem, rowElem_eq_some, ← helapsed]
  exact elapsedRows_getElem? s.trk s.rb f.t f.len hw hi

/-! ### The elapsed time of one sample -/

theorem fsub_nan (x : F64) : fsub x .nan = .nan := by cases x <;> rfl

theorem elapsedAt_of_invalidated {s : State} (h : s.trk = .invalidatedOnce) (f : FrameBody)
    (ch g i : Nat) : elapsedAt s f ch g i = .nan := if_pos (.inl h)

/-- In tracking the difference alone decides, since it is NaN at a first touch. -/
theorem elapsedAt_of_tracking {s : State} (h : s.trk = .tracking) (f : FrameBody) (ch g i : Nat) :
    elapsedAt s f ch g i = fsub f.t (ringAt s.rb ch g (cellOf s.cfg f ch g i)) := by
  by_cases hnan : ringAt s.rb ch g (cellOf s.cfg f ch g i) = .nan
  · rw [elapsedAt, if_pos (.inr hnan), hnan, fsub_nan]
  · exact if_neg (by simp [h, hnan])

/-! ### OBSERVE, outcome by outcome -/

section
variable {s t : State} {f : Frame} (hf : s.fb = some f)

theorem execObserve_of_no_frame (h : s.fb = none) : execObserve s = raise .sequenceError s := by
  simp only [execObserve, h]

include hf

theorem execObserve_of_current (h : ebCur s = true) : execObserve s = raise .sequenceError s := by
  simp only [execObserve, hf, h, if_true]

theorem execObserve_of_windows {ws : List Window} (h : ¬ ebCur s = true)
    (hws : windowsOf s.cfg f.body = .ok ws) : execObserve s = complete (observed s f ws) := by
  simp only [execObserve, hf, if_neg h, hws]

/-- What an OBSERVE that reports OK leaves in EB, TRK and RB. -/
theorem execObserve_ok (hg : s.Good) (h : execObserve s = .next t) (hok : t.status = 0) :
    (∃ e, t.eb = some e ∧ ∀ ch g i, InFrame s.cfg f.body.len ch g i →
      element e.dt ch g i = some (elapsedAt s f.body ch g i)) ∧
    t.trk = .tracking ∧ Stamped s.cfg f.body s.rb t.rb := by
  obtain ⟨-, rfl⟩ | ⟨f', ws, hf', -, hws, rfl⟩ := execObserve_next h
  · cases hok
  · cases hf.symm.trans hf'
    exact ⟨⟨_, rfl, fun ch g i => element_elapsedRows hws⟩, rfl, stamped_stampWindows hws hg.ring⟩

end

/-! ### Which command moves the tracker -/

/-- Forward consumption never invalidates: only SEEK, INVALIDATE, OBSERVE and RESET write TRK
(42_tracker.md R226). -/
theorem Effect.keeps_trk {s t : State} {i : Instr} (h : Effect s i t) (hi : i ≠ .invalidate)
    (hs : ∀ p, i ≠ .seek p) (ho : i ≠ .observe) (hr : i ≠ .reset) : t.trk = s.trk := by
  cases h with
  | invalidated => exact absurd rfl hi
  | moved p => exact absurd rfl (hs p)
  | observed => exact absurd rfl ho
  | reset => exact absurd rfl hr
  | _ => simp

theorem execSeek_trk {p : BitVec 48} {s t : State} (h : execSeek p s = .next t) :
    t.trk = if t.pos = s.pos then s.trk else .invalidatedOnce := by
  obtain ⟨-, rfl⟩ | ⟨-, ⟨-, rfl⟩ | ⟨hmoved, rfl⟩⟩ := execSeek_next h
  · simp
  · simp
  · exact (if_neg hmoved).symm

theorem execObserve_trk {s t : State} (h : execObserve s = .next t) :
    t.trk = if t.status = 0 then .tracking else s.trk := by
  obtain ⟨-, rfl⟩ | ⟨f, ws, -, -, -, rfl⟩ := execObserve_next h <;> rfl

end Sys2Proof.Machine

namespace Sys2Proof.Proofs

open Sys2Proof.Machine Sys2Proof.Claims

/-- Settles O33: the windows of a good state's frame are there, so OBSERVE raises or writes what
`element_elapsedRows` and `stamped_stampWindows` say. -/
theorem observeComputesAndStamps : Obligations.ObserveComputesAndStamps := by
  refine ⟨by decide, fun s hg => ⟨execObserve_of_no_frame, fun f hf => ?_⟩⟩
  refine ⟨fun hcur => ?_, fun hnew => ?_⟩
  · exact execObserve_of_current hf (ebCur_eq_true.mpr hcur)
  · obtain ⟨ws, hws⟩ := windowsOf_exists hg.config (hg.frame f hf)
    exact ⟨_, _, execObserve_of_windows hf (mt ebCur_eq_true.mp hnew) hws,
      (elapsedRows_length ..).trans (windowsOf_length hws), elapsedRows_row _ _ _ _ _,
      fun _ _ _ => element_elapsedRows hws, stamped_stampWindows hws hg.ring⟩

/-- Settles O34: in tracking the elapsed time is the difference to the ring entry, which is what the
first OBSERVE left there: NaN, unstamped, or the timestamp of `f`. -/
theorem secondObserveGivesDifference : Obligations.SecondObserveGivesDifference := by
  intro s t u v f h e hs hu hcfg hf hst ht htrk hh huv hv hve ch g i hin hkept
  obtain ⟨-, -, hstamp, hother⟩ := execObserve_ok hf hs hst ht
  obtain ⟨⟨e', he', helem⟩, -⟩ := execObserve_ok hh hu huv hv
  cases hve.symm.trans he'
  rw [← hcfg] at hin
  have hdiff : element e.dt ch g i =
      some (fsub h.body.t (ringAt t.rb ch g (cellOf s.cfg h.body ch g i))) := by
    rw [helem ch g i hin, elapsedAt_of_tracking htrk, hcfg, hkept]
  obtain ⟨hch, hg, -⟩ := hcfg ▸ hin
  refine ⟨fun hout hnan => ?_, fun ⟨j, hj, hcell⟩ => ?_⟩
  · rw [hdiff, hother ch g _ hch hg (cellOf_lt ..) hout, hnan, fsub_nan]
  · rw [hdiff, ← hcell, hstamp ch g j ⟨hch, hg, hj⟩]

/-- Settles O36: the elapsed times of an invalidated tracker do not look at the ring. -/
theorem invalidatedObserveGivesNaN : Obligations.InvalidatedObserveGivesNaN := by
  intro s t f hg htrk hf h ht
  obtain ⟨⟨e, he, helem⟩, hrest⟩ := execObserve_ok hf hg h ht
  refine ⟨⟨e, he, fun ch g i hin => ?_⟩, hrest⟩
  rw [helem ch g i hin, elapsedAt_of_invalidated htrk]

/-- Settles O37, by the effects of the commands; SEEK and OBSERVE branch. -/
theorem trackerTransitions : Obligations.TrackerTransitions := by
  intro s t i h
  refine ⟨?_, ?_, ?_, ?_, (exec_effect h).keeps_trk⟩
  · rintro rfl
    rw [execInvalidate_next h, State.withStatus_trk, State.withTrk_trk]
  · rintro p rfl
    exact execSeek_trk h
  · rintro rfl
    exact execObserve_trk h
  · rintro rfl
    rw [execReset_next h, State.powerOn_trk]

/-- Settles O35. -/
theorem invalidateWritesTrackerOnly : Obligations.InvalidateWritesTrackerOnly :=
  ⟨by decide, fun _ => rfl⟩

end Sys2Proof.Proofs
end

section
/-! The arithmetic of the pipeline (43_calibration.md R256, R258). A write-back is tied to `RoundsTo` by
two facts: the model's rounding of a magnitude is such a rounding, and there is only one. A sample is
converted to binary64 without rounding, so it is written back as itself. -/

namespace Sys2Proof.Machine

open Sys2Proof.Claims

/-! ### Rounding to an integer -/

theorem unitsPerOne_pos : 0 < unitsPerOne := pow_pos two_pos 1074

theorem natCast_unitsPerOne : (unitsPerOne : Int) = 2 ^ 1074 := by
  rw [unitsPerOne_eq, Nat.cast_pow, Nat.cast_two]

/-- A magnitude in whole units and a rest. -/
theorem natCast_eq_div_add_mod (n d : Nat) : (n : Int) = (n / d : Nat) * d + (n % d : Nat) := by
  exact_mod_cast (Nat.div_add_mod' n d).symm

section
variable (neg : Bool) (n : Nat)

theorem roundsTo_trunc :
    RoundsTo .trunc (signedInt neg n) (signedInt neg (roundMagnitude .trunc neg n)) := by
  have hdiv := natCast_eq_div_add_mod n unitsPerOne
  have hmod := Nat.mod_lt n unitsPerOne_pos
  have hwhole := Int.mul_nonneg (n / unitsPerOne).cast_nonneg unitsPerOne.cast_nonneg
  simp only [RoundsTo, roundMagnitude, ← natCast_unitsPerOne]
  generalize unitsPerOne = U at *
  cases neg <;>
    simp only [signedInt, if_true, Bool.false_eq_true, if_false, Int.add_mul, Int.sub_mul,
      Int.neg_mul, Int.one_mul] <;> omega

theorem roundsTo_floor :
    RoundsTo .floor (signedInt neg n) (signedInt neg (roundMagnitude .floor neg n)) := by
  have hdiv := natCast_eq_div_add_mod n unitsPerOne
  have hmod := Nat.mod_lt n unitsPerOne_pos
  simp only [RoundsTo, roundMagnitude, ← natCast_unitsPerOne]
  generalize unitsPerOne = U at *
  cases neg with
  | false =>
    simp only [signedInt, Bool.false_eq_true, false_and, if_false, Int.add_mul, Int.one_mul]
    omega
  | true =>
    simp only [signedInt, true_and, if_true]
    split <;>
      simp only [Nat.cast_add, Nat.cast_one, Int.neg_mul, Int.add_mul, Int.one_mul] <;> omega

/-- The distance of two values of one sign is that of their magnitudes. -/
theorem abs_signedInt_sub (m U : Nat) :
    |signedInt neg n - signedInt neg m * U| = |(n : Int) - m * U| := by
  cases neg with
  | false => rfl
  | true => rw [← abs_neg]; congr 1; simp only [signedInt, if_true]; ring

@[simp] theorem abs_signedInt : |signedInt neg n| = n := by
  cases neg <;> simp [signedInt]

theorem signedInt_mod_two : signedInt neg n % 2 = (n % 2 : Nat) := by
  cases neg
  · rfl
  · rw [signedInt, if_pos rfl]
    omega

theorem roundsTo_rne :
    RoundsTo .rne (signedInt neg n) (signedInt neg (roundMagnitude .rne neg n)) := by
  simp only [RoundsTo, roundMagnitude, ← natCast_unitsPerOne, abs_signedInt_sub, signedInt_mod_two]
  exact_mod_cast divRne_spec n unitsPerOne_pos

theorem roundsTo_rhaz :
    RoundsTo .rhaz (signedInt neg n) (signedInt neg (roundMagnitude .rhaz neg n)) := by
  have hdiv := natCast_eq_div_add_mod n unitsPerOne
  have hmod := Nat.mod_lt n unitsPerOne_pos
  simp only [RoundsTo, roundMagnitude, ← natCast_unitsPerOne, abs_signedInt_sub, abs_mul,
    abs_signedInt, Nat.abs_cast]
  generalize unitsPerOne = U at *
  split
  · next hup =>
    rw [Nat.cast_add, Nat.cast_one, Int.add_mul, Int.one_mul, abs_of_nonpos (by omega)]
    omega
  · next hdown =>
    rw [abs_of_nonneg (by omega)]
    omega

end

/-- The model's rounding rounds as WB_ROUND says. -/
theorem roundsTo_roundMagnitude (mode : WbRound) (neg : Bool) (n : Nat) :
    RoundsTo mode (signedInt neg n) (signedInt neg (roundMagnitude mode neg n)) :=
  match mode with
  | .trunc => roundsTo_trunc neg n
  | .rne => roundsTo_rne neg n
  | .floor => roundsTo_floor neg n
  | .rhaz => roundsTo_rhaz neg n

/-- Different integers are at least one unit apart. -/
theorem add_unit_le_of_lt {r r' U : Int} (hU : 0 < U) (h : r < r') : r * U + U ≤ r' * U := by
  have hmul := Int.mul_le_mul_of_nonneg_right (show r + 1 ≤ r' by omega) hU.le
  rwa [Int.add_mul, Int.one_mul] at hmul

/-- Two integers to which a value is nearest are the neighbours it lies halfway between. -/
theorem halfway_of_nearest {z r r' U : Int} (hU : 0 < U) (hr : 2 * |z - r * U| ≤ U)
    (hr' : 2 * |z - r' * U| ≤ U) (hlt : r < r') :
    r' = r + 1 ∧ 2 * |z - r * U| = U ∧ 2 * |z - r' * U| = U ∧ r * U < z ∧ z < r' * U := by
  have hapart := add_unit_le_of_lt hU hlt
  have habove := le_abs_self (z - r * U)
  have hbelow := neg_abs_le (z - r' * U)
  refine ⟨?_, by omega, by omega, by omega, by omega⟩
  by_contra hne
  have hfar := add_unit_le_of_lt hU (show r + 1 < r' by omega)
  rw [Int.add_mul] at hfar
  omega

/-- The rounding of a value to an integer is unique: two integers that differ are a unit apart, and a
value halfway between neighbours goes to the even one, or to the one farther from zero. -/
theorem roundsTo_unique {mode : WbRound} {z r r' : Int} (h : RoundsTo mode z r)
    (h' : RoundsTo mode z r') : r = r' := by
  have hU : (0 : Int) < 2 ^ 1074 := by positivity
  by_contra hne
  wlog hlt : r < r' generalizing r r'
  · exact this h' h (Ne.symm hne) (by omega)
  have hapart := add_unit_le_of_lt hU hlt
  unfold RoundsTo at h h'
  generalize (2 : Int) ^ 1074 = U at *
  cases mode with
  | trunc =>
    simp only [Int.add_mul, Int.sub_mul, Int.one_mul] at h h'
    omega
  | floor =>
    simp only [Int.add_mul, Int.one_mul] at h h'
    omega
  | rne =>
    obtain ⟨hnear, heven⟩ := h
    obtain ⟨hnear', heven'⟩ := h'
    obtain ⟨hnext, htie, htie', -⟩ := halfway_of_nearest hU hnear hnear' hlt
    have hr := heven htie
    have hr' := heven' htie'
    omega
  | rhaz =>
    obtain ⟨hnear, haway⟩ := h
    obtain ⟨hnear', haway'⟩ := h'
    obtain ⟨hnext, htie, htie', hbelow, habove⟩ := halfway_of_nearest hU hnear hnear' hlt
    have hr := haway htie
    have hr' := haway' htie'
    obtain hpos | hneg : 0 ≤ r ∨ r' ≤ 0 := by omega
    · have hr_pos := Int.mul_nonneg hpos hU.le
      rw [abs_of_nonneg hr_pos, abs_of_nonneg (by omega)] at hr
      omega
    · have hr_neg := Int.mul_nonpos_of_nonpos_of_nonneg hneg hU.le
      rw [abs_of_nonpos hr_neg, abs_of_nonpos (by omega)] at hr'
      omega

/-- An integer rounds to itself. -/
theorem roundsTo_of_integer (mode : WbRound) (r : Int) : RoundsTo mode (2 ^ 1074 * r) r := by
  have hU : (0 : Int) < 2 ^ 1074 := by positivity
  rw [Int.mul_comm]
  unfold RoundsTo
  generalize (2 : Int) ^ 1074 = U at *
  cases mode <;> simp only [Int.add_mul, Int.sub_mul, Int.one_mul, sub_self, abs_zero] <;> omega

/-! ### The write-back -/

/-- The write-back of a finite value, by its rounding. -/
theorem writeBack_fin {c : Config} {neg : Bool} {e : Fin 2047} {f : BitVec 52} {r : Int}
    (h : RoundsTo c.wbRound (unitsOf neg e f) r) : writeBack c (.fin neg e f) =
      if r < -32768 ∨ 32767 < r then .error (.code .arithmeticFault)
      else .ok (BitVec.ofInt 16 r) := by
  rw [roundsTo_unique h (roundsTo_roundMagnitude c.wbRound neg (f64Units e f))]
  rfl

/-- A whole number of last places is its own significand. -/
theorem IsSignificand.exact {num den k m n : Nat} (h : IsSignificand num den k m)
    (hn : num = n * (den * 2 ^ k)) : m * (den * 2 ^ k) = num := by
  have hnear := (h.le_multiple n).1
  rw [← Nat.cast_mul n, ← hn, sub_self, abs_zero, abs_nonpos_iff, sub_eq_zero] at hnear
  exact_mod_cast hnear.symm

/-- Of a number of at most `n + 1` bits that starts at place `p`, the top `n + 1` bits start no
higher. -/
theorem exponent_le_of_mul_le {n k p a : Nat} (h : 2 ^ n * 2 ^ k ≤ 2 ^ p * a)
    (ha : a < 2 ^ (n + 1)) : k ≤ p := by
  have hlt : 2 ^ (n + k) < 2 ^ (p + (n + 1)) := by
    rw [Nat.pow_add, Nat.pow_add 2 p]
    exact h.trans_lt ((Nat.mul_lt_mul_left (Nat.two_pow_pos p)).mpr ha)
  have := (Nat.pow_lt_pow_iff_right one_lt_two).mp hlt
  omega

/-- A whole number of 53 bits is not rounded: it is a multiple of its last place. -/
theorem f64Round_of_integer (neg : Bool) {a : Nat} (ha : a < 2 ^ 53) :
    ∃ e f, f64Round neg (2 ^ 1074 * a) 1 = .fin neg e f ∧ magnitude e f = 2 ^ 1074 * a := by
  have hsig := divRne_isSignificand (2 ^ 1074 * a) Nat.one_pos
  simp only [f64Round]
  generalize (2 ^ 1074 * a / 1).log2 - 52 = k at *
  generalize divRne (2 ^ 1074 * a) (1 * 2 ^ k) = m at *
  have hk : k ≤ 1074 := by
    by_contra hgt
    have hle := hsig.le_num (by omega)
    rw [Nat.one_mul] at hle
    exact hgt (exponent_le_of_mul_le hle ha)
  have hplace : 2 ^ 1074 * a = 2 ^ (1074 - k) * a * (1 * 2 ^ k) := by
    rw [Nat.one_mul, Nat.mul_right_comm, ← Nat.pow_add, Nat.sub_add_cancel hk]
  have hcode : (2 ^ 52 * k + m) / 2 ^ 52 < 2047 := by
    have := hsig.le
    omega
  rw [dif_pos hcode]
  have hexact := hsig.exact hplace
  rw [Nat.one_mul] at hexact
  exact ⟨_, _, rfl, (hsig.magnitude_code rfl).trans hexact⟩

/-- The binary64 value of an integer of 53 bits is that integer. -/
theorem toF64_exact {n : Int} (hn : n.natAbs < 2 ^ 53) :
    ∃ neg e f, toF64 n = .fin neg e f ∧ unitsOf neg e f = 2 ^ 1074 * n := by
  obtain ⟨e, f, hround, hmag⟩ := f64Round_of_integer (decide (n < 0)) hn
  refine ⟨decide (n < 0), e, f, ?_, ?_⟩
  · rw [toF64, unitsPerOne_eq, hround]
  · rw [unitsOf_eq_exactUnits, exactUnits, hmag, Nat.cast_mul, Nat.cast_pow, Nat.cast_two,
      Int.natCast_natAbs]
    split
    · next h => rw [abs_of_neg (of_decide_eq_true h), mul_neg, neg_neg]
    · next h => rw [abs_of_nonneg (by simpa using h)]

/-- A sample is written back as itself in every mode. -/
theorem writeBack_toF64 (c : Config) (x : Sample) : writeBack c (toF64 x.toInt) = .ok x := by
  have hlt := x.toInt_lt
  have hle := x.le_toInt
  obtain ⟨neg, e, f, hval, hunits⟩ := toF64_exact (n := x.toInt) (by omega)
  rw [hval, writeBack_fin (hunits ▸ roundsTo_of_integer c.wbRound x.toInt), if_neg (by omega),
    BitVec.ofInt_toInt]

/-! ### The offset of stage 2 -/

theorem powerLaw_eq_off2 (c : Config) (dt pa pb pc : F64) :
    powerLaw c dt pa pb pc = off2 c dt pa pb pc := by
  simp only [powerLaw, off2, isNaN, decide_eq_true_eq]

/-- An unknown elapsed time leaves the constant, or 0 where that is unknown too. -/
theorem off2_nan_ne_nan (c : Config) (pa pb pc : F64) : off2 c .nan pa pb pc ≠ .nan := by
  rw [off2, if_pos rfl]
  split
  · exact nofun
  · assumption

end Sys2Proof.Machine

namespace Sys2Proof.Proofs

open Sys2Proof.Machine

/-- Settles O44: the model's own rounding is one of each mode, and any other is the same integer. -/
theorem writeBackRoundsThenChecks : Obligations.WriteBackRoundsThenChecks := by
  intro c
  refine ⟨rfl, fun _ => rfl, fun neg e f => ⟨_, roundsTo_roundMagnitude c.wbRound neg _⟩,
    fun neg e f r hr => ⟨fun hle hge => ?_, fun hout => ?_⟩⟩
  · rw [writeBack_fin hr, if_neg (by omega)]
  · rw [writeBack_fin hr, if_pos hout]

/-- Settles O46: the conversion is exact and an integer rounds to itself. -/
theorem sampleSurvivesWriteBack : Obligations.SampleSurvivesWriteBack := writeBack_toF64

/-- Settles O45: the model's offset is that of the statement, case by case. -/
theorem powerLawOffset : Obligations.PowerLawOffset := fun c dt pa pb pc =>
  ⟨powerLaw_eq_off2 c dt pa pb pc, powerLaw_eq_off2 c .nan pa pb pc ▸ off2_nan_ne_nan c pa pb pc⟩

end Sys2Proof.Proofs
end

section
/-! CALCFG and APPLY (43_calibration.md R251 to R264). The scans of a stage's tables are tied once to
the keys of the stage, and the correction of one sample to the chain of stages that the statements
write; each outcome of a command is then a case of the one computation it runs. -/

namespace Sys2Proof.Machine

open Sys2Proof.Claims

/-! ### The keys of a stage -/

section
variable {c : Config} {st : CalStore}

/-- The entry of a key stands in a table of its stage. -/
theorem storeRead_in_stageTables {key : CalKey} (hk : IsKey c key) :
    ∃ t ∈ stageTables c st (stageOf key), ∃ j < t.2, storeRead c st key = calRead t.1 j := by
  cases key with
  | atCell t ch g cell =>
    obtain ⟨hch, hg, hcell⟩ := hk
    have hj := cellIndex_lt hch hg hcell
    cases t
    · exact ⟨(st.off, cellCount c), by simp [stageTables, stageOf], _, hj, rfl⟩
    · exact ⟨(st.pa, cellCount c), by simp [stageTables, stageOf], _, hj, rfl⟩
    · exact ⟨(st.pb, cellCount c), by simp [stageTables, stageOf], _, hj, rfl⟩
    · exact ⟨(st.pc, cellCount c), by simp [stageTables, stageOf], _, hj, rfl⟩
  | atPos t ch g cell pos =>
    cases t <;> obtain ⟨hch, hg, hcell, hpos⟩ := hk <;> have hj := posIndex_lt hch hg hcell hpos
    · exact ⟨(st.grid, gridCount c), by simp [stageTables, stageOf], _, hj, rfl⟩
    · exact ⟨(st.pat, patCount c), by simp [stageTables, stageOf], _, hj, rfl⟩

/-- Every place of a table by cell is the place of a key of that table. -/
theorem exists_cellKey (t : CellTable) {j : Nat} (hj : j < cellCount c) :
    ∃ key, IsKey c key ∧ stageOf key = stageOf (.atCell t 0 0 0) ∧
      storeRead c st key = calRead (cellTable st t) j := by
  obtain ⟨ch, g, cell, hch, hg, hcell, rfl⟩ := cellIndex_surj hj
  exact ⟨.atCell t ch g cell, ⟨hch, hg, hcell⟩, by cases t <;> rfl, rfl⟩

/-- Every place of a table by cell and position is the place of a key of that table. -/
theorem exists_posKey (t : PosTable) {j : Nat} (hj : j < cellCount c * posWidth c t) :
    ∃ key, IsKey c key ∧ stageOf key = stageOf (.atPos t 0 0 0 0) ∧
      storeRead c st key = calRead (posTable st t) j := by
  obtain ⟨ch, g, cell, pos, hch, hg, hcell, hpos, rfl⟩ := posIndex_surj hj
  exact ⟨.atPos t ch g cell pos, by cases t <;> exact ⟨hch, hg, hcell, hpos⟩,
    by cases t <;> rfl, rfl⟩

/-- Every place of a table of a stage is the place of a key of that stage. -/
theorem exists_key_of_stageTables {k j : Nat} {t : Runs (Option F64) × Nat}
    (ht : t ∈ stageTables c st k) (hj : j < t.2) :
    ∃ key, IsKey c key ∧ stageOf key = k ∧ storeRead c st key = calRead t.1 j := by
  match k with
  | 1 =>
    obtain rfl : t = (st.off, cellCount c) := by simpa [stageTables] using ht
    exact exists_cellKey .off hj
  | 2 =>
    have h : t = (st.pa, cellCount c) ∨ t = (st.pb, cellCount c) ∨ t = (st.pc, cellCount c) := by
      simpa [stageTables] using ht
    obtain rfl | rfl | rfl := h
    · exact exists_cellKey .pa hj
    · exact exists_cellKey .pb hj
    · exact exists_cellKey .pc hj
  | 3 =>
    obtain rfl : t = (st.grid, gridCount c) := by simpa [stageTables] using ht
    exact exists_posKey .grid hj
  | 4 =>
    obtain rfl : t = (st.pat, patCount c) := by simpa [stageTables] using ht
    exact exists_posKey .pat hj
  | 0 => cases ht
  | k + 5 => cases ht

/-- What holds of every entry of the tables of a stage is what holds at every key of the stage. -/
theorem forall_stageTables_iff {k : Nat} {p : Option F64 → Prop} :
    (∀ t ∈ stageTables c st k, ∀ j < t.2, p (calRead t.1 j)) ↔
      ∀ key, IsKey c key → stageOf key = k → p (storeRead c st key) := by
  constructor
  · rintro h key hk rfl
    obtain ⟨t, ht, j, hj, hread⟩ := storeRead_in_stageTables (st := st) hk
    exact hread ▸ h t ht j hj
  · intro h t ht j hj
    obtain ⟨key, hk, hstage, hread⟩ := exists_key_of_stageTables ht hj
    exact hread ▸ h key hk hstage

end

section
variable {s : State} {k : Nat}

theorem stageFull_iff_allPresent : stageFull s.cfg s.ct k = true ↔ AllPresent s k := by
  rw [stageFull, List.all_eq_true]
  exact (forall₂_congr fun _ _ => tableFull_iff).trans (forall_stageTables_iff (p := (· ≠ none)))

theorem stageEmpty_iff_not_somePresent : stageEmpty s.cfg s.ct k = true ↔ ¬ SomePresent s k := by
  have hnone : ¬ SomePresent s k ↔
      ∀ key, IsKey s.cfg key → stageOf key = k → storeRead s.cfg s.ct key = none := by
    simp only [SomePresent, not_exists, not_and, not_not]
  rw [stageEmpty, List.all_eq_true, hnone]
  exact (forall₂_congr fun _ _ => tableEmpty_iff).trans (forall_stageTables_iff (p := (· = none)))

theorem stageEmpty_eq_false_iff : stageEmpty s.cfg s.ct k = false ↔ SomePresent s k := by
  rw [← Bool.not_eq_true, stageEmpty_iff_not_somePresent, not_not]

/-- A bit of the mask operand. -/
theorem stageBit_setWidth {m : Field} (h1 : 1 ≤ k) (h4 : k ≤ 4) :
    stageBit (m.setWidth 4) k = m.getLsbD (k - 1) := by
  rw [stageBit, BitVec.getLsbD_setWidth, decide_eq_true (by omega), Bool.true_and]

end

theorem mem_stages {k : Nat} : k ∈ [1, 2, 3, 4] ↔ 1 ≤ k ∧ k ≤ 4 := by
  simp only [List.mem_cons, List.not_mem_nil, or_false]
  omega

/-! ### CALCFG -/

theorem calRead_if (b : Bool) (t : Runs (Option F64)) (j : Nat) :
    calRead (if b = true then t else []) j = if b = true then calRead t j else none := by
  cases b <;> rfl

/-- The store of the enabled stages, entry by entry. -/
theorem storeRead_restrictStore (c : Config) (st : CalStore) (en : BitVec 4) (key : CalKey) :
    storeRead c (restrictStore st en) key =
      if en.getLsbD (stageOf key - 1) = true then storeRead c st key else none := by
  cases key with
  | atCell t ch g cell => cases t <;> exact calRead_if ..
  | atPos t ch g cell pos => cases t <;> exact calRead_if ..

section
variable {s : State} {m : Field}

/-- A requested stage supplied in part stops the scan of the stages. -/
theorem enabledStages_error_of_partlySupplied (h : PartlySupplied s m) :
    enabledStages s.cfg s.ct (m.setWidth 4) [1, 2, 3, 4] =
      .error (.code .missingCalibrationConstant) := by
  obtain ⟨k, h1, h4, hm, hsome, hall⟩ := h
  cases hres : enabledStages s.cfg s.ct (m.setWidth 4) [1, 2, 3, 4] with
  | error e => rw [(enabledStages_error hres).1]
  | ok en =>
    have hfull := (enabledStages_ok (fun _ => mem_stages.mp) hres).1 k (mem_stages.mpr ⟨h1, h4⟩)
      (stageBit_setWidth h1 h4 ▸ hm) (stageEmpty_eq_false_iff.mpr hsome)
    exact absurd (stageFull_iff_allPresent.mp hfull) hall

/-- With no stage supplied in part the requested stages with some entry present are enabled. -/
theorem enabledStages_of_not_partlySupplied (h : ¬ PartlySupplied s m) :
    ∃ en, enabledStages s.cfg s.ct (m.setWidth 4) [1, 2, 3, 4] = .ok en ∧
      ∀ k, 1 ≤ k → k ≤ 4 →
        (en.getLsbD (k - 1) = true ↔ m.getLsbD (k - 1) = true ∧ SomePresent s k) := by
  cases hres : enabledStages s.cfg s.ct (m.setWidth 4) [1, 2, 3, 4] with
  | error e =>
    obtain ⟨-, k, hk, hm, hsome, hfull⟩ := enabledStages_error hres
    obtain ⟨h1, h4⟩ := mem_stages.mp hk
    refine absurd ⟨k, h1, h4, stageBit_setWidth h1 h4 ▸ hm, stageEmpty_eq_false_iff.mp hsome,
      fun hall => ?_⟩ h
    rw [stageFull_iff_allPresent.mpr hall] at hfull
    cases hfull
  | ok en =>
    refine ⟨en, rfl, fun k h1 h4 => ?_⟩
    have hbit := (enabledStages_ok (fun _ => mem_stages.mp) hres).2 k h1
    rw [stageBit_setWidth h1 h4, stageEmpty_eq_false_iff] at hbit
    exact hbit.trans (and_iff_right (mem_stages.mpr ⟨h1, h4⟩))

theorem execCalcfg_of_ok {en : BitVec 4} (hm : m.toNat < 16)
    (h : enabledStages s.cfg s.ct (m.setWidth 4) [1, 2, 3, 4] = .ok en) :
    execCalcfg m s = complete (s.withPipeline en (restrictStore s.ct en)) := by
  rw [execCalcfg, if_pos (show operand m < 16 from hm), h]

theorem execCalcfg_of_error {e : Stop} (hm : m.toNat < 16)
    (h : enabledStages s.cfg s.ct (m.setWidth 4) [1, 2, 3, 4] = .error e) :
    execCalcfg m s = finish s (.error e) := by
  rw [execCalcfg, if_pos (show operand m < 16 from hm), h]

end

/-! ### APPLY, outcome by outcome -/

section
variable {s : State}

theorem execApply_of_sequenceError
    (h : s.fb = none ∨ (stageBit s.stageEn 2 = true ∧ ebCur s = false)) :
    execApply s = raise .sequenceError s := by
  unfold execApply
  split
  · rfl
  · next f hf => exact if_pos (h.resolve_left (by simp [hf]))

variable {f : Frame} (hf : s.fb = some f)
  (hcur : ¬ (stageBit s.stageEn 2 = true ∧ ebCur s = false))
include hf hcur

theorem execApply_of_correctedRows {rows : List (List Sample)}
    (h : correctedRows s f.body (elapsedTimes s) = .ok rows) :
    execApply s = complete (s.withCorrected ⟨f.seq, { f.body with samples := rows }⟩) := by
  simp only [execApply, hf, if_neg hcur, h]

theorem execApply_of_error {e : Stop}
    (h : correctedRows s f.body (elapsedTimes s) = .error e) :
    execApply s = finish s (.error e) := by
  simp only [execApply, hf, if_neg hcur, h]

end

/-! ### What APPLY reads and writes -/

/-- APPLY writes CB and STATUS alone (43_calibration.md R262). -/
theorem execApply_writes {s u : State} (h : execApply s = .next u) :
    u = { s with cb := u.cb, status := u.status } := by
  obtain ⟨-, rfl⟩ | ⟨f, -, -, ⟨rows, -, rfl⟩ | ⟨-, rfl⟩⟩ := execApply_next h <;> rfl

/-- APPLY on a state that agrees with another on what it reads, and on CB, which a raise keeps
(43_calibration.md R262). -/
theorem execApply_congr {s t u : State} (hcfg : s.cfg = t.cfg) (hfb : s.fb = t.fb)
    (heb : s.eb = t.eb) (hen : s.stageEn = t.stageEn) (hacs : s.acs = t.acs) (hcb : s.cb = t.cb)
    (h : execApply s = .next u) :
    execApply t = .next { t with cb := u.cb, status := u.status } := by
  have hcur : ebCur s = ebCur t := by simp only [ebCur, heb, hfb]
  have hrows : ∀ f, correctedRows s f (elapsedTimes s) = correctedRows t f (elapsedTimes t) :=
    fun f => by
      rw [correctedRows_congr hcfg hen hacs, elapsedTimes, heb]
      rfl
  have hraise : ∀ c, raise c t = .next { t with cb := s.cb, status := codeBits c } :=
    fun c => by rw [hcb]; rfl
  obtain ⟨hseq, rfl⟩ | ⟨f, hf, hok, ⟨rows, hrow, rfl⟩ | ⟨hrow, rfl⟩⟩ := execApply_next h
  · rw [execApply_of_sequenceError (hfb ▸ hen ▸ hcur ▸ hseq)]
    exact hraise .sequenceError
  all_goals
    rw [hcur, hen] at hok
    rw [hrows] at hrow
    rw [hfb] at hf
  · rw [execApply_of_correctedRows hf hok hrow]
    rfl
  · rw [execApply_of_error hf hok hrow]
    exact hraise .arithmeticFault

/-! ### One sample -/

/-- A raise of the write-back is `none` in the statements. -/
theorem toOption_writeBack (c : Config) (y : F64) : (writeBack c y).toOption = written c y := by
  unfold written
  cases writeBack c y <;> rfl

theorem timeAt_eq_rowElem (s : State) (ch g i : Nat) :
    timeAt s ch g i = (rowElem (elapsedTimes s) ch g i).getD .nan := by
  simp only [timeAt, elapsedTimes, ← element_eq_rowElem]
  cases s.eb <;> rfl

theorem cellKey_eq_cellKeyOf {c : Config} {f : FrameBody} {ch g stop : Nat}
    (h : frameStop c f ch g = some stop) (i : Nat) :
    cellKey c ⟨ch, g, stop⟩ i = cellKeyOf c f ch g i := by
  simp only [cellKey, cellKeyOf, cellOf, stopOf_of_frameStop h]
  rfl

/-- An offset that is there is what the stage subtracts. -/
theorem stageOffset_eq_subtrahend {s : State} {f : FrameBody} {ch g stop i k : Nat} {o : Option F64}
    (hs : frameStop s.cfg f ch g = some stop)
    (h : stageOffset s (elapsedTimes s) ⟨ch, g, stop⟩ i k = .ok o) :
    o = subtrahend s f (timeAt s ch g i) ch g i k := by
  have hentry : ∀ x : Option F64, (match orMissing x with
      | .ok v => .ok (some v)
      | .error e => .error e) = Except.ok o → o = some (x.getD .nan) := by
    intro x hx
    split at hx
    · next v hv => cases hx; rw [orMissing_ok.mp hv, Option.getD_some]
    · cases hx
  match k with
  | 1 =>
    simp only [stageOffset, windowKey_eq_cellIndex hs] at h
    exact hentry _ h
  | 2 =>
    simp only [stageOffset, windowKey_eq_cellIndex hs] at h
    split at h
    · next d a b c hd ha hb hc =>
      cases h
      simp only [subtrahend, entry, storeRead, cellTable, timeAt_eq_rowElem, hd, ha, hb, hc,
        Option.getD_some, powerLaw_eq_off2]
    · cases h
  | 3 =>
    simp only [stageOffset, cellKey_eq_cellKeyOf hs] at h
    exact hentry _ h
  | 4 =>
    simp only [stageOffset, cellKey_eq_cellKeyOf hs] at h
    simp only [subtrahend]
    split at h
    · next hpre => rw [if_pos hpre]; exact hentry _ h
    · next hpre => cases h; rw [if_neg hpre]
  | 0 => cases h; rfl
  | k + 5 => cases h; rfl

theorem toOption_inOrder_nil {α : Type} (f : Nat → α → Except Stop α) (x : α) :
    (inOrder f [] x).toOption = some x := rfl

/-- A sequence of steps, a stop being `none`, is a chain of binds. -/
theorem toOption_inOrder_cons {α : Type} (f : Nat → α → Except Stop α) (k : Nat) (ks : List Nat)
    (x : α) : (inOrder f (k :: ks) x).toOption =
      (f k x).toOption.bind fun y => (inOrder f ks y).toOption := by
  simp only [inOrder]
  cases f k x <;> rfl

section
variable {s : State} {f : FrameBody} {ch g stop i : Nat}
  (hs : frameStop s.cfg f ch g = some stop)
include hs

/-- A stage with its offset there does what the statement says, a raise being `none`. -/
theorem toOption_applyStage {k : Nat} (hoff : stageBit s.stageEn k = true →
      ∃ o, stageOffset s (elapsedTimes s) ⟨ch, g, stop⟩ i k = .ok o) (x : Sample) :
    (applyStage s (elapsedTimes s) ⟨ch, g, stop⟩ i k x).toOption =
      stageStep s (subtrahend s f (timeAt s ch g i) ch g i k) k x := by
  unfold applyStage stageStep
  by_cases hen : stageBit s.stageEn k = true
  · obtain ⟨o, ho⟩ := hoff hen
    rw [if_pos hen, ho, if_pos (show s.stageEn.getLsbD (k - 1) = true from hen),
      ← stageOffset_eq_subtrahend hs ho]
    cases o with
    | none => rfl
    | some v => exact toOption_writeBack s.cfg (fsub (toF64 x.toInt) v)
  · rw [if_neg hen, if_neg (show ¬ s.stageEn.getLsbD (k - 1) = true from hen)]
    rfl

variable (hoff : ∀ k, 1 ≤ k → k ≤ 4 → stageBit s.stageEn k = true →
  ∃ o, stageOffset s (elapsedTimes s) ⟨ch, g, stop⟩ i k = .ok o)
include hoff

/-- The four stages in order are the chain of `correctedSample`. -/
theorem toOption_correctSample (x : Sample) :
    (correctSample s (elapsedTimes s) ⟨ch, g, stop⟩ i x).toOption =
      correctedSample s f (timeAt s ch g i) ch g i x := by
  have hstage : ∀ k, 1 ≤ k → k ≤ 4 → ∀ y,
      (applyStage s (elapsedTimes s) ⟨ch, g, stop⟩ i k y).toOption =
        stageStep s (subtrahend s f (timeAt s ch g i) ch g i k) k y :=
    fun k h1 h4 => toOption_applyStage hs (hoff k h1 h4)
  simp (disch := omega) only [correctSample, toOption_inOrder_cons, toOption_inOrder_nil, hstage,
    correctedSample, Option.bind_assoc, Option.bind_fun_some]

theorem toOption_correctAt :
    (correctAt s f (elapsedTimes s) ⟨ch, g, stop⟩ i).toOption = outputAt s f ch g i := by
  simp only [correctAt, outputAt, element_eq_rowElem]
  split
  · next x hx => rw [hx]; exact toOption_correctSample hs hoff x
  · next hx => rw [hx]; rfl

end

/-! ### The frame -/

/-- Among the codes the correction of a frame raises ARITHMETIC_FAULT alone. -/
theorem correctedRows_error_cases {s : State} {f : FrameBody} {dt : List (List F64)} {e : Stop}
    (h : correctedRows s f dt = .error e) :
    e = .code .arithmeticFault ∨ e = .fault .elementMissing := by
  obtain ⟨he, -⟩ | ⟨ch, g, i, stop, -, -, -, -, hat⟩ := correctedRows_error h
  · exact .inr he
  · simp only [correctAt] at hat
    split at hat
    · exact correctSample_error hat
    · cases hat; exact .inr rfl

section
variable {s : State} (hg : s.Good) {f : Frame} (hf : s.fb = some f)
  (hcur : ¬ (stageBit s.stageEn 2 = true ∧ ebCur s = false))
include hg hf hcur

/-- In a good state every offset is there, so the correction of a sample of FB is `outputAt`. -/
theorem State.Good.toOption_correctAt {ch g i stop : Nat} (hin : InFrame s.cfg f.body.len ch g i)
    (hs : frameStop s.cfg f.body ch g = some stop) :
    (correctAt s f.body (elapsedTimes s) ⟨ch, g, stop⟩ i).toOption = outputAt s f.body ch g i := by
  obtain ⟨hch, hgain, hi⟩ := hin
  exact Machine.toOption_correctAt hs fun k h1 h4 hen =>
    stageOffset_exists hg.config hg.pipeline (hg.frame f hf)
      (fun h2 => elapsedTimes_shape hg hf (by simpa [h2] using hcur)) hch hgain hi hs h1 h4 hen

/-- The corrected rows hold `outputAt` everywhere. -/
theorem State.Good.correctedRows_of_ok {rows : List (List Sample)}
    (h : correctedRows s f.body (elapsedTimes s) = .ok rows) {ch g i : Nat}
    (hin : InFrame s.cfg f.body.len ch g i) :
    ∃ x, element rows ch g i = some x ∧ outputAt s f.body ch g i = some x := by
  obtain ⟨-, -, -, -, helem⟩ := correctedRows_ok h
  obtain ⟨stop, x, hs, hx, hat⟩ := helem ch g i hin.1 hin.2.1 hin.2.2
  refine ⟨x, (element_eq_rowElem rows ch g i).trans hx, ?_⟩
  rw [← hg.toOption_correctAt hf hcur hin hs, hat]
  rfl

/-- In a good state the correction stops only with ARITHMETIC_FAULT, at a sample without an output. -/
theorem State.Good.correctedRows_of_error {e : Stop}
    (h : correctedRows s f.body (elapsedTimes s) = .error e) :
    e = .code .arithmeticFault ∧
      ∃ ch g i, InFrame s.cfg f.body.len ch g i ∧ outputAt s f.body ch g i = none := by
  obtain rfl | rfl := correctedRows_error_cases h
  · refine ⟨rfl, ?_⟩
    obtain ⟨he, -⟩ | ⟨ch, g, i, stop, hch, hgain, hi, hs, hat⟩ := correctedRows_error h
    · cases he
    · refine ⟨ch, g, i, ⟨hch, hgain, hi⟩, ?_⟩
      rw [← hg.toOption_correctAt hf hcur ⟨hch, hgain, hi⟩ hs, hat]
      rfl
  · exact absurd h (correctedRows_ne_fault hg hf hcur _)

end

end Sys2Proof.Machine

namespace Sys2Proof.Proofs

open Sys2Proof.Machine Sys2Proof.Claims

/-- Settles O38: a stage supplied in part is what stops the scan of the stages, and the store of the
enabled stages reads as CT at their keys. -/
theorem calcfgInstallsSuppliedStages : Obligations.CalcfgInstallsSuppliedStages := by
  refine ⟨by decide, fun s m hg hm => ⟨fun hpart => ?_, fun hpart => ?_⟩⟩
  · exact execCalcfg_of_error hm (enabledStages_error_of_partlySupplied hpart)
  · obtain ⟨en, hen, hbits⟩ := enabledStages_of_not_partlySupplied hpart
    exact ⟨en, restrictStore s.ct en, execCalcfg_of_ok hm hen, hbits,
      fun key _ => storeRead_restrictStore s.cfg s.ct en key⟩

/-- Settles O41: past the checks APPLY is the correction of FB, which stops exactly where `outputAt`
is `none` at some sample. -/
theorem applyCorrectsEverySample : Obligations.ApplyCorrectsEverySample := by
  refine ⟨by decide, fun s hg => ⟨fun hnone => execApply_of_sequenceError (.inl hnone),
    fun f hf => ⟨fun hen hold => ?_, fun hcurrent => ?_⟩⟩⟩
  · exact execApply_of_sequenceError
      (.inr ⟨hen, Bool.eq_false_iff.mpr (mt ebCur_eq_true.mp hold)⟩)
  have hcur : ¬ (stageBit s.stageEn 2 = true ∧ ebCur s = false) := fun ⟨hen, hold⟩ =>
    Bool.eq_false_iff.mp hold (ebCur_eq_true.mpr (hcurrent hen))
  cases hres : correctedRows s f.body (elapsedTimes s) with
  | ok rows =>
    have helem := fun ch g i => hg.correctedRows_of_ok hf hcur hres (ch := ch) (g := g) (i := i)
    refine ⟨fun ⟨ch, g, i, hin, hnone⟩ => ?_, fun _ => ?_⟩
    · obtain ⟨x, -, hx⟩ := helem ch g i hin
      cases hnone.symm.trans hx
    · obtain ⟨-, -, hcount, hlen, -⟩ := correctedRows_ok hres
      refine ⟨rows, execApply_of_correctedRows hf hcur hres, hcount, hlen, fun ch g i hin => ?_⟩
      obtain ⟨x, hx, hout⟩ := helem ch g i hin
      exact hx.trans hout.symm
  | error e =>
    obtain ⟨rfl, ch, g, i, hin, hnone⟩ := hg.correctedRows_of_error hf hcur hres
    exact ⟨fun _ => execApply_of_error hf hcur hres, fun hall => absurd hnone (hall ch g i hin)⟩

/-- Settles O43, by the congruence of APPLY and by what it writes. -/
theorem applyReadsOnlyItsInputs : Obligations.ApplyReadsOnlyItsInputs :=
  ⟨fun _ _ _ => execApply_congr, fun _ _ => execApply_writes⟩

/-- Settles O40: the write port writes CT, which is none of what APPLY reads. -/
theorem tableWritesDoNotReachApply : Obligations.TableWritesDoNotReachApply := by
  intro s t u e he ht hu
  obtain ⟨ct, rfl⟩ : ∃ ct, t = s.withCt ct := by
    obtain ⟨key, v, rfl⟩ | ⟨key, rfl⟩ := he <;> exact ⟨_, writeConstant_next ht⟩
  have happly := execApply_congr (s := s) (t := s.withCt ct) rfl rfl rfl rfl rfl rfl hu
  rw [execApply_writes hu]
  exact happly

end Sys2Proof.Proofs
end

section
/-! NOP (44_control.md R300). -/

namespace Sys2Proof

open Sys2Proof.Claims

/-- A word with a reserved bit set is illegal, whatever its other fields (30_encoding.md R133). -/
theorem illegal_of_fieldZ_ne_zero {w : Word} (hz : fieldZ w ≠ 0) : Illegal w := by
  have hbits : bitsAt w 0 8 ≠ 0 := by
    rw [bitsAt_z]
    exact fun hzero => hz (BitVec.eq_of_toNat_eq hzero)
  exact .inr (.inl hbits)

end Sys2Proof

namespace Sys2Proof.Proofs

open Sys2Proof.Machine Sys2Proof.Claims

/-- Settles O9: NOP is the ending of every completed command and no more, and the word 1 has a
reserved bit set. -/
theorem nopWritesStatusOnly : Obligations.NopWritesStatusOnly := by
  refine ⟨fun s => ?_, by decide, illegal_of_fieldZ_ne_zero (by decide)⟩
  change complete s = _
  exact (complete_next s _).mpr rfl

end Sys2Proof.Proofs
end

section
/-! Raises (60_exceptions.md R330, R331, R341): by its effects a command that does not end with OK wrote
STATUS, and FATAL for DECODE's header error; which codes it can report is read off its outcomes, command
by command. -/

namespace Sys2Proof.Machine

open Sys2Proof.Claims

/-- Of the effects of a command, two leave a code other than OK: STATUS alone, and DECODE's header
error (60_exceptions.md R331). -/
theorem Effect.raised {s t : State} {i : Instr} (h : Effect s i t) (hraise : t.status ≠ 0) :
    t = s.withStatus t.status ∨ (i = .decode ∧ t = (s.withFatal true).withStatus 3) := by
  cases h with
  | status => exact .inl rfl
  | headerError => exact .inr ⟨rfl, rfl⟩
  | _ => exact absurd rfl hraise

/-- `parse_frame` fails with END_OF_STREAM, FRAMING_ERROR or HEADER_FORMAT_ERROR
(40_framer.md R156). -/
theorem parseFrame_code {s : State} {lay : Layout} {pos : Nat} {c : Code}
    (h : parseFrame s lay pos = .error (.code c)) : codeBits c ∈ [1, 2, 3] := by
  obtain hc | hc | hc | hc := parseFrame_error h <;> cases hc <;> decide

/-- The codes that C2S, S2C and INWIN share (60_exceptions.md R330). -/
theorem translated_status {b : Bool} {n : Nat} {s t : State} (h : translated b n s = .next t) :
    t.status ∈ [0, 4, 8] := by
  obtain ⟨_, rfl⟩ | ⟨_, rfl⟩ := translated_next h <;> simp

/-- Each outcome of a command leaves one of its codes in STATUS (60_exceptions.md R330). -/
theorem exec_status_mem_codesOf {s t : State} {i : Instr} (h : exec i s = .next t) :
    t.status ∈ codesOf i := by
  cases i with
  | nop => simp [execNop_next h, codesOf]
  | reset => simp [execReset_next h, codesOf]
  | setlayoutA => simp [execSetlayoutA_next h, codesOf]
  | setlayoutB => simp [execSetlayoutB_next h, codesOf]
  | probe =>
    obtain ⟨_, rfl⟩ | ⟨_, ⟨_, _, rfl⟩ | ⟨_, ⟨_, _, rfl⟩ | ⟨c, hc, rfl⟩⟩⟩ := execProbe_next h
    · simp [codesOf]
    · simp [codesOf]
    · simp [codesOf]
    · have hlisted : [1, 2, 3] ⊆ codesOf .probe := by decide
      exact hlisted (parseFrame_code hc)
  | sync =>
    obtain ⟨_, rfl⟩ | ⟨_, _, ⟨_, rfl⟩ | ⟨_, ⟨_, _, rfl⟩ | ⟨_, rfl⟩⟩⟩ := execSync_next h <;>
      simp [codesOf]
  | decode =>
    obtain ⟨_, rfl⟩ | ⟨_, _, ⟨_, rfl⟩ | ⟨_, ⟨_, _, rfl⟩ | ⟨_, rfl⟩ | ⟨_, rfl⟩ | ⟨_, rfl⟩⟩⟩ :=
      execDecode_next h <;> simp [codesOf]
  | seek p =>
    obtain ⟨_, rfl⟩ | ⟨_, ⟨_, rfl⟩ | ⟨_, rfl⟩⟩ := execSeek_next h <;> simp [codesOf]
  | c2s | s2c | inwin => exact translated_status h
  | observe =>
    obtain ⟨_, rfl⟩ | ⟨_, _, _, _, _, rfl⟩ := execObserve_next h <;> simp [codesOf]
  | invalidate => simp [execInvalidate_next h, codesOf]
  | calcfg m =>
    obtain ⟨_, rfl⟩ | ⟨_, ⟨_, _, rfl⟩ | ⟨_, rfl⟩⟩ := execCalcfg_next h <;> simp [codesOf]
  | apply =>
    obtain ⟨_, rfl⟩ | ⟨_, _, _, ⟨_, _, rfl⟩ | ⟨_, rfl⟩⟩ := execApply_next h <;> simp [codesOf]

end Sys2Proof.Machine

namespace Sys2Proof.Proofs

open Sys2Proof.Machine

/-- Settles O8: with the port empty no interaction is taken. -/
theorem idleBlockKeepsState : Obligations.IdleBlockKeepsState := fun _ => step_of_port_nil

/-- Settles O48, by the two effects a raise can have. -/
theorem raiseIsPrecise : Obligations.RaiseIsPrecise := by
  intro s t i h hraise
  obtain ht | ⟨hi, rfl⟩ := (exec_effect h).raised hraise
  · have hfatal : t.fatal = s.fatal := by rw [ht, State.withStatus_fatal]
    exact ⟨by rw [hfatal]; exact ht, fun hne => absurd hfatal hne⟩
  · exact ⟨rfl, fun _ => ⟨hi, rfl, rfl⟩⟩

/-- Settles O49, by the outcomes of each command. -/
theorem codesPerCommand : Obligations.CodesPerCommand := fun _ _ _ => exec_status_mem_codesOf

end Sys2Proof.Proofs
end

section
/-! Reset (70_reset_and_hazards.md R360 to R362): RESET and the host's reset answer the same state,
which is at its reset values and takes a new stream. The machine after power-on is such a state and
meets the invariant. In such a state exactly the commands that need a layout or a frame raise
SEQUENCE_ERROR. -/

namespace Sys2Proof.Machine

open Sys2Proof.Claims

/-! ### What a reset answers -/

/-- The OK that RESET ends with is the reset value of STATUS (44_control.md R301). -/
theorem exec_reset (s : State) : exec .reset s = .next s.powerOn := by
  change complete s.powerOn = _
  exact (complete_next _ _).mpr rfl

theorem hostReset_eq (s : State) : hostReset s = .next s.powerOn := rfl

/-! ### A new stream after a reset -/

/-- A supplied stream holds its bytes from address 0 on, and nothing beyond (20_memory.md R71). -/
theorem readByte_ofBytes (bytes : List Byte) (a : Nat) :
    readByte (Memory.ofBytes bytes) a = bytes[a]? := by
  have hcells : (Memory.ofBytes bytes).map (·.2) = bytes := by
    simp [Memory.ofBytes, Function.comp_def]
  rw [readByte_eq (Memory.wf_ofBytes bytes), ← List.getElem?_map, hcells]

theorem supplyStream_of_open {s : State} {bytes : List Byte} (hopen : s.streamFixed = false)
    (hlen : bytes.length < 2 ^ 64) (hpos : s.pos.toNat ≤ bytes.length) :
    supplyStream bytes s = .next (s.withStream (Memory.ofBytes bytes)) :=
  if_pos ⟨hopen, hlen, hpos⟩

/-- A reset opens the session's stream again and puts POS at 0, where no stream is too short
(70_reset_and_hazards.md R361, R368). -/
theorem supply_powerOn (s : State) {bytes : List Byte} (hlen : bytes.length < 2 ^ 64) :
    hostEvent (.supply bytes) s.powerOn = .next (s.powerOn.withStream (Memory.ofBytes bytes)) :=
  supplyStream_of_open s.powerOn_streamFixed hlen (Nat.zero_le _)

/-! ### The state after power-on -/

/-- No stage is enabled and ACS is empty, so no enabled stage lacks a constant. -/
theorem PipelineOk.of_disabled {s : State} (hen : s.stageEn = 0#4) (hacs : s.acs = .empty) :
    PipelineOk s := by
  refine ⟨fun k _ _ hbit => ?_, ?_⟩
  · rw [hen, stageBit_zero] at hbit
    cases hbit
  · rw [hen, hacs]
    decide

/-- Reset values meet the invariant under every legal configuration and over every stream. -/
theorem State.Good.resetWith {cfg : Config} {stream : Memory} (hcfg : configOk cfg = true)
    (hwf : stream.wf = true) (hlen : stream.length < 2 ^ 64) (port : List HostEvent)
    (reply : Option HostValue) : (State.resetWith cfg stream port reply).Good where
  config := hcfg
  stream := ⟨hwf, hlen, Nat.zero_le _⟩
  status := Nat.zero_le _
  fatal_layout := nofun
  ring := .nil _ _
  constants := .empty _
  active := .empty _
  pipeline := .of_disabled rfl rfl
  frame := nofun
  elapsed := nofun
  corrected := nofun
  tags := .reset

/-- The configuration of log 2 is one 00_scope.md section 3 allows. -/
theorem configOk_tc : configOk .tc = true := by decide

/-- A machine at power-on is one that was just reset. -/
theorem State.powerOn_reset : State.reset.powerOn = State.reset := rfl

/-! ### SEQUENCE_ERROR after a reset -/

/-- The commands that can report SEQUENCE_ERROR at all (60_exceptions.md R330). -/
theorem sequenceError_mem_codesOf {i : Instr} :
    7 ∈ codesOf i ↔ i ∈ [Instr.decode, .sync, .observe, .apply] := by
  cases i <;> simp [codesOf]

/-- DECODE and SYNC miss a layout, OBSERVE and APPLY a frame (70_reset_and_hazards.md R362). -/
theorem exec_sequenceError_of_atReset {s : State} (hs : AtReset s) {i : Instr}
    (hi : i ∈ [Instr.decode, .sync, .observe, .apply]) :
    exec i s = .next { s with status := 7 } := by
  suffices hraise : exec i s = raise .sequenceError s from hraise
  simp only [List.mem_cons, List.not_mem_nil, or_false] at hi
  obtain rfl | rfl | rfl | rfl := hi
  · exact execDecode_of_no_layout hs.layout
  · exact execSync_of_no_layout hs.layout
  · exact execObserve_of_no_frame hs.fb
  · exact execApply_of_sequenceError (.inl hs.fb)

end Sys2Proof.Machine

namespace Sys2Proof.Proofs

open Sys2Proof.Machine Sys2Proof.Claims

/-- Settles O13: the four commands miss what a reset took away, and SEQUENCE_ERROR is among the
codes of no other command. -/
theorem sequenceErrorsAfterReset : Obligations.SequenceErrorsAfterReset := by
  intro s hs
  refine ⟨fun _ hi => exec_sequenceError_of_atReset hs hi, fun i t hi h hseven => hi ?_⟩
  have hcode : t.status ∈ codesOf i := exec_status_mem_codesOf h
  rw [hseven] at hcode
  exact sequenceError_mem_codesOf.mp hcode

/-- Settles O10: both resets answer `s.powerOn`, which is at its reset values. -/
theorem resetRestoresEveryElement : Obligations.ResetRestoresEveryElement :=
  ⟨by decide, fun s => ⟨s.powerOn, exec_reset s, hostReset_eq s, s.powerOn_atReset⟩⟩

/-- Settles O11: both resets answer `s.powerOn`, whose stream is open and whose position is 0. -/
theorem powerOnResetEqualsReset : Obligations.PowerOnResetEqualsReset := by
  refine fun s => ⟨s.powerOn, hostReset_eq s, exec_reset s, fun bytes hlen => ?_⟩
  exact ⟨_, supply_powerOn s hlen, Memory.streamLen_ofBytes bytes, readByte_ofBytes bytes⟩

/-- Settles O12: the machine after power-on is the reset state under TC, over the empty stream. -/
theorem powerOnStateMeetsInvariant : Obligations.PowerOnStateMeetsInvariant :=
  ⟨State.powerOn_reset ▸ State.powerOn_atReset State.reset,
    .resetWith configOk_tc Memory.wf_nil (Nat.two_pow_pos 64) [] none⟩

end Sys2Proof.Proofs
end
